-- ==== Sys2Proof/Word.lean ====
section
/-! DEFINITION. The unit's word and byte types (spec/00_scope.md R9, spec/30_encoding.md R70). -/

namespace Sys2Proof

/-- A 64-bit message, operand, response or CSR word (R70, R33). Native words of 32 bits stand in bits 31:0. -/
abbrev Word := BitVec 64

/-- One byte of host memory or of an engine's output image (R50, R130). -/
abbrev Byte := BitVec 8

end Sys2Proof
end

