-- ==== Sys2Proof/Config.lean ====
section
/-! DEFINITION. What an implementation of the unit fixes: the parameters of spec/00_scope.md R6. The plain ones are
data (`Config`, carried unchanged in the state's field `cfg`); the ones that are functions are opaque constants, so that
nothing can be proved of their values beyond the laws the spec states. The free values of spec/44_resample.md R235 stand here too. -/

namespace Sys2Proof

/-- The block engine of an instance (spec/10_state.md R22). -/
inductive Engine where
  | aes128 | aes192 | aes256
  | philox2x32 | philox4x32 | philox2x64 | philox4x64
  | threefry2x32 | threefry4x32 | threefry2x64 | threefry4x64
deriving DecidableEq, Repr

/-- The mode of the RngStreamSet (R6, R23). -/
inductive Mode where
  | sequential
  | parallel
deriving DecidableEq, Repr

/-- WR, the width of a result word (R6): 32 or 64 bits. -/
inductive ResultWidth where
  | w32
  | w64
deriving DecidableEq, Repr

/-- The addresses `base` to `base + size - 1`. -/
structure Region where
  base : Nat
  size : Nat
deriving DecidableEq, Repr

/-- The parameters of one instance that are plain data (R6). `admitted` lists the host addresses the unit may access (R51);
every predicate on the finite space of 64-bit addresses is such a list (assumption log 2). -/
structure Config where
  /-- ENGINE. -/
  engine : Engine
  /-- NR, rounds of an ARX engine, 1..255. -/
  nr : Nat
  /-- M, counter blocks transformed per refill, 1..256. -/
  m : Nat
  /-- WR. -/
  wr : ResultWidth
  /-- NSTREAMS, number of stream slots, 1..2^32-1. -/
  nstreams : Nat
  /-- MODE. -/
  mode : Mode
  /-- P, number of requesters, 1..2^16. -/
  p : Nat
  /-- Admit. -/
  admitted : List Region
deriving DecidableEq, Repr

/-- The instance State.reset is built on. DESIGN CHOICE (assumption log 1, unsafe for a claim that rests on it): R6 leaves every
parameter open; this is the configuration of spec/95_test_vectors.md section 6 with Admit true for 0x0000..0xFFFF. -/
def Config.resetInstance : Config where
  engine := .philox4x32
  nr := 10
  m := 1
  wr := .w32
  nstreams := 2
  mode := .parallel
  p := 2
  admitted := [⟨0, 0x10000⟩]

namespace Config

/-! ### Parameters that are functions (R6, OPEN: decisions D10, D11, D32)

Each has no body. Every total function of the stated kind is one of them (assumption log 3, 4, 5). -/

/-- Word `i` of KeyFromSeed(v) before it is cut to the key's word width (R172, D10). -/
opaque keyFromSeedWord : Config → (v : Word) → (i : Nat) → Word

/-- Word `i` of KeyFromSeedSeq(vs) before it is cut to the key's word width (R173, D10). -/
opaque keyFromSeedSeqWord : Config → (vs : List Word) → (i : Nat) → Word

/-- SeedOfStream(v, s) (R181, D11). -/
opaque seedOfStream : Config → (v : Word) → (s : Nat) → Word

/-- Which of the binary64 values `0 <= u < 1` U01Draw returns, as a function of the slot's key, counter, buffer and cursor
(R203). Numbers below `0x3FF0000000000000` are the bit patterns of `+0` up to the last value below 1; that number stands for `-0`. -/
opaque u01Index : Config → (key : List Word) → (ctr : List (List Word)) → (buf : List Word) → (cur : Nat) →
  Fin 0x3FF0000000000001

/-- One less than the number `m >= 1` of NEXTs by which U01Draw changes the slot (R203). -/
opaque u01ExtraNexts : Config → (key : List Word) → (ctr : List (List Word)) → (buf : List Word) → (cur : Nat) → Nat

/-- The Binomial(n, p) variate where `p` is neither 0 nor 1, as a function of the slot and of n and p's bit pattern (R204). -/
opaque binomIndex : Config → (key : List Word) → (ctr : List (List Word)) → (buf : List Word) → (cur : Nat) →
  (n : Nat) → (p : Word) → Fin (n + 1)

/-- The number `m >= 0` of NEXTs by which BinomDraw changes the slot (R204). -/
opaque binomNexts : Config → (key : List Word) → (ctr : List (List Word)) → (buf : List Word) → (cur : Nat) →
  (n : Nat) → (p : Word) → Nat

/-! ### Free values: the spec gives the effect, not the value

`use` is the state's counter of free values taken, so that each use has values of its own. -/

/-- Word `i` of register bank `bank` (0 the key, 1 the buffer, `2 + b` counter block b) of slot `s` after a RESAMPLE that
aborted after a draw (R235, U5), before it is cut to its width. -/
opaque freeSlotWord : Config → (use : Nat) → (s : Nat) → (bank : Nat) → (i : Nat) → Word

/-- The cursor of slot `s`, at most `r`, after a RESAMPLE that aborted after a draw (R235, U5: `0 <= CUR <= R`). -/
opaque freeCursor : Config → (use : Nat) → (s : Nat) → (r : Nat) → Fin (r + 1)

/-- The byte at `addr` of the replication buffer after a RESAMPLE that aborted after a draw (R235, U5). -/
opaque freeByte : Config → (use : Nat) → (addr : Word) → Byte

/-- FAULT_INFO for a sum of 2^64 or more, which 64 bits cannot hold (R216, R39; assumption log 7). -/
opaque freeInfo : Config → (use : Nat) → Word

/-- PROB_TOL, 1e-6 as binary64 (R41, R211, decision D33). -/
def probTol : Word := 0x3EB0C6F7A0B5ED8D

end Config

end Sys2Proof
end

