-- ==== Sys2Proof/Machine/Sizes.lean ====
section
/-! DEFINITION. The sizes the parameters fix (spec/00_scope.md R7, R8, spec/30_encoding.md R75) and the engine codes
(spec/10_state.md R22). -/

namespace Sys2Proof

/-- The code of an engine, the value of CONFIG0.ENGINE (R22). -/
def Engine.code : Engine → BitVec 8
  | .aes128 => 0x01 | .aes192 => 0x02 | .aes256 => 0x03
  | .philox2x32 => 0x10 | .philox4x32 => 0x11 | .philox2x64 => 0x12 | .philox4x64 => 0x13
  | .threefry2x32 => 0x20 | .threefry4x32 => 0x21 | .threefry2x64 => 0x22 | .threefry4x64 => 0x23

namespace Config

/-- W, words per counter block (R7). -/
def w (c : Config) : Nat :=
  match c.engine with
  | .aes128 | .aes192 | .aes256 => 2
  | .philox2x32 | .philox2x64 | .threefry2x32 | .threefry2x64 => 2
  | .philox4x32 | .philox4x64 | .threefry4x32 | .threefry4x64 => 4

/-- WC, bits per counter word (R7). -/
def wc (c : Config) : Nat :=
  match c.engine with
  | .aes128 | .aes192 | .aes256 => 64
  | .philox2x64 | .philox4x64 | .threefry2x64 | .threefry4x64 => 64
  | .philox2x32 | .philox4x32 | .threefry2x32 | .threefry4x32 => 32

/-- KW, operand words of a key (R75). -/
def kw (c : Config) : Nat :=
  match c.engine with
  | .aes128 => 2 | .aes192 => 3 | .aes256 => 4
  | .philox2x32 | .philox2x64 => 1
  | .philox4x32 | .philox4x64 => 2
  | .threefry2x32 | .threefry2x64 => 2
  | .threefry4x32 | .threefry4x64 => 4

/-- The rounds CONFIG0.NR shows: 10, 12 or 14 for AES, NR for an ARX engine (R34, R140). -/
def rounds (c : Config) : Nat :=
  match c.engine with
  | .aes128 => 10 | .aes192 => 12 | .aes256 => 14
  | _ => c.nr

/-- WR as a number of bits (R6). -/
def wrBits (c : Config) : Nat :=
  match c.wr with
  | .w32 => 32
  | .w64 => 64

/-- BLOCK_BITS (R8). -/
def blockBits (c : Config) : Nat := c.w * c.wc

/-- RB, result words per block (R8). -/
def rb (c : Config) : Nat := c.blockBits / c.wrBits

/-- R, the buffer length in result words (R8). -/
def bufLen (c : Config) : Nat := c.m * c.rb

/-- PART, whether the 8-bit block field is reserved (R8, decision D4). -/
def part (c : Config) : Bool := decide (2 ≤ c.m)

/-- A, the width of the counter's arithmetic part (R8). -/
def arithBits (c : Config) : Nat := if c.part then c.blockBits - 8 else c.blockBits

/-- Whether `v` fits a native word of the engine (R74 items 1 and 2). -/
def nativeWord (c : Config) (v : Word) : Bool := decide (v.toNat < 2 ^ c.wc)

/-- `v` cut to a native word of the engine. -/
def toNative (c : Config) (v : Word) : Word := BitVec.ofNat 64 (v.toNat % 2 ^ c.wc)

/-- KeyFromSeed(v): KW native words (R172, R6). -/
def keyFromSeed (c : Config) (v : Word) : List Word :=
  (List.range c.kw).map fun i => c.toNative (c.keyFromSeedWord v i)

/-- KeyFromSeedSeq(vs): KW native words (R173, R6). -/
def keyFromSeedSeq (c : Config) (vs : List Word) : List Word :=
  (List.range c.kw).map fun i => c.toNative (c.keyFromSeedSeqWord vs i)

/-- Admit(a) (R51). -/
def admits (c : Config) (a : Nat) : Bool :=
  c.admitted.any fun r => decide (r.base ≤ a) && decide (a < r.base + r.size)

end Config

end Sys2Proof
end

