-- ==== Sys2Proof/Syntax.lean ====
section
/-! DEFINITION. The commands of the unit, one constructor per row of spec/opcode_table.json (spec/30_encoding.md R80), the
CSR names (spec/10_state.md R33) and the fault causes (spec/60_exceptions.md R240). -/

namespace Sys2Proof

/-- The control and status registers (R33). -/
inductive Csr where
  | config0 | config1 | min | max | status | faultInfo | faultLoc | probTol
  | cursor | slotState
deriving DecidableEq, Repr

/-- The fault causes (R240). `refused` is a response code only and is never recorded. -/
inductive Cause where
  | illegalOpcode | reservedField | badSlot | uninitialised | badOperand | sharedStreamRace
  | badStride | sizeMismatch | probOutOfRange | badWeight | sumMismatch | misaligned | busError
  | bufferOverlap | memoryRace | badPolicy | badLength | refused
deriving DecidableEq, Repr

/-- A raised cause with the information value it records in FAULT_INFO (R240, R241). -/
structure Raise where
  cause : Cause
  info  : Word
deriving DecidableEq, Repr

/-- The seven operand words of a RESAMPLE (spec/44_resample.md R200). -/
structure ResampleOps where
  /-- OP[0], N, the particle count. -/
  n       : Word
  /-- OP[1], WBASE, byte address of weight element 0. -/
  wbase   : Word
  /-- OP[2], WSTRIDE, signed, in elements. -/
  wstride : Word
  /-- OP[3], NW, length of the weight buffer. -/
  nw      : Word
  /-- OP[4], RBASE, byte address of replication element 0. -/
  rbase   : Word
  /-- OP[5], RSTRIDE, signed, in elements. -/
  rstride : Word
  /-- OP[6], NRL, length of the replication buffer. -/
  nrl     : Word
deriving DecidableEq, Repr

/-- The commands (R80). `slot` is the SLOT field of the command word (R71). -/
inductive Instr where
  /-- CSR_READ (R90). -/
  | csrRead (csr : Csr) (slot : BitVec 32)
  /-- CTR_ZERO (R110). -/
  | ctrZero (slot : BitVec 32)
  /-- CTR_INC (R111). -/
  | ctrInc (slot : BitVec 32)
  /-- CTR_ADD (R112): add `n` to the counter. -/
  | ctrAdd (slot : BitVec 32) (n : Word)
  /-- CTR_LOAD (R113): words c0 .. c(W-1) of block 0. -/
  | ctrLoad (slot : BitVec 32) (words : List Word)
  /-- CTR_READ (R114): block number `block`. -/
  | ctrRead (slot : BitVec 32) (block : BitVec 8)
  /-- KEY_LOAD (R171): the key's operand words. -/
  | keyLoad (slot : BitVec 32) (key : List Word)
  /-- TRANSFORM (R131): the input block's words. -/
  | transform (slot : BitVec 32) (block : List Word)
  /-- SEED (R172). -/
  | seed (slot : BitVec 32) (value : Word)
  /-- SEEDSEQ (R173). -/
  | seedSeq (slot : BitVec 32) (values : List Word)
  /-- SEED_ALL (R181). -/
  | seedAll (value : Word)
  /-- NEXT (R174). -/
  | next (slot : BitVec 32)
  /-- DISCARD (R176): skip `n` result words. -/
  | discard (slot : BitVec 32) (n : Word)
  /-- RESAMPLE, policy 0 (R215). -/
  | resampleMultinomial (ops : ResampleOps)
  /-- RESAMPLE, policy 1 (R218). -/
  | resampleResidual (ops : ResampleOps)
  /-- RESAMPLE, policy 2 (R222). -/
  | resampleStratified (ops : ResampleOps)
  /-- RESAMPLE, policy 3 (R223). -/
  | resampleSystematic (ops : ResampleOps)
  /-- RESAMPLE, policy 4 (R224). -/
  | resampleResidualStratified (ops : ResampleOps)
  /-- RESAMPLE, policy 5 (R225). -/
  | resampleResidualSystematic (ops : ResampleOps)
deriving DecidableEq, Repr

end Sys2Proof
end

