-- ==== Sys2Proof/WellFormed.lean ====
section
/-! DEFINITION. Which instances are legal (spec/00_scope.md R6) and which commands an instance's decoder can produce
(spec/30_encoding.md R81). -/

namespace Sys2Proof

/-- The legal values of the parameters (R6). -/
def Config.legal (c : Config) : Bool :=
  decide (1 ≤ c.nr ∧ c.nr ≤ 255) && decide (1 ≤ c.m ∧ c.m ≤ 256) &&
    decide (1 ≤ c.nstreams ∧ c.nstreams < 2 ^ 32) && decide (1 ≤ c.p ∧ c.p ≤ 2 ^ 16) &&
    (decide (c.mode = .parallel) || decide (c.nstreams = 1))

/-- Whether a CSR is per slot (R33). -/
def Csr.perSlot : Csr → Bool
  | .cursor | .slotState => true
  | .config0 | .config1 | .min | .max | .status | .faultInfo | .faultLoc | .probTol => false

/-- The commands that some message of the instance decodes to: the checks of R81 hold. -/
def Instr.wf (c : Config) : Instr → Bool
  | .csrRead csr slot => csr.perSlot || decide (slot = 0)
  | .ctrZero _ => true
  | .ctrInc _ => true
  | .ctrAdd _ n => c.nativeWord n
  | .ctrLoad _ words => decide (words.length = c.w) && words.all c.nativeWord
  | .ctrRead _ block => decide (block.toNat < c.m)
  | .keyLoad _ key => decide (key.length = c.kw) && key.all c.nativeWord
  | .transform _ block => decide (block.length = c.w) && block.all c.nativeWord
  | .seed _ _ => true
  | .seedSeq _ values => decide (1 ≤ values.length) && decide (values.length ≤ 255)
  | .seedAll _ => true
  | .next _ => true
  | .discard _ _ => true
  | .resampleMultinomial _ => true
  | .resampleResidual _ => true
  | .resampleStratified _ => true
  | .resampleSystematic _ => true
  | .resampleResidualStratified _ => true
  | .resampleResidualSystematic _ => true

end Sys2Proof
end

