-- ==== Sys2Proof/Decode.lean ====
section
/-! DEFINITION. Command encoding (spec/30_encoding.md R70-R82): the fields of a command word, the opcode map, the decoder of a
message and the encoder of a command. -/

namespace Sys2Proof

/-! ### The command word (R71) -/

/-- OPC, bits 7:0. -/
def opcOf (cw : Word) : BitVec 8 := cw.extractLsb' 0 8

/-- SUB, bits 15:8. -/
def subOf (cw : Word) : BitVec 8 := cw.extractLsb' 8 8

/-- RSV, bits 31:16. -/
def rsvOf (cw : Word) : BitVec 16 := cw.extractLsb' 16 16

/-- SLOT, bits 63:32. -/
def slotFieldOf (cw : Word) : BitVec 32 := cw.extractLsb' 32 32

/-- The command word with the given fields and RSV 0. -/
def makeCw (opc sub : BitVec 8) (slot : BitVec 32) : Word := slot ++ (0#16 ++ (sub ++ opc))

/-! ### The opcode map (R80) -/

/-- The opcodes of the map. -/
inductive Opcode where
  | csrRead | ctrZero | ctrInc | ctrAdd | ctrLoad | ctrRead | keyLoad | transform
  | seed | seedSeq | seedAll | next | discard | resample
deriving DecidableEq, Repr

/-- The OPC value of an opcode (R80). -/
def Opcode.code : Opcode → BitVec 8
  | .csrRead => 0x01
  | .ctrZero => 0x10 | .ctrInc => 0x11 | .ctrAdd => 0x12 | .ctrLoad => 0x13 | .ctrRead => 0x14
  | .keyLoad => 0x20 | .transform => 0x21
  | .seed => 0x30 | .seedSeq => 0x31 | .seedAll => 0x32
  | .next => 0x38 | .discard => 0x39
  | .resample => 0x40

/-- The opcode an OPC value names, if the map has it (R80, R82). -/
def Opcode.ofCode (v : BitVec 8) : Option Opcode :=
  match v.toNat with
  | 0x01 => some .csrRead
  | 0x10 => some .ctrZero | 0x11 => some .ctrInc | 0x12 => some .ctrAdd
  | 0x13 => some .ctrLoad | 0x14 => some .ctrRead
  | 0x20 => some .keyLoad | 0x21 => some .transform
  | 0x30 => some .seed | 0x31 => some .seedSeq | 0x32 => some .seedAll
  | 0x38 => some .next | 0x39 => some .discard
  | 0x40 => some .resample
  | _ => none

/-- L, the operand word count (R80). For SEEDSEQ it is the SUB field. -/
def operandCount (c : Config) (op : Opcode) (sub : BitVec 8) : Nat :=
  match op with
  | .csrRead | .ctrZero | .ctrInc | .ctrRead | .next => 0
  | .ctrAdd | .seed | .seedAll | .discard => 1
  | .ctrLoad | .transform => c.w
  | .keyLoad => c.kw
  | .seedSeq => sub.toNat
  | .resample => 7

/-- The CSR number of a CSR (spec/10_state.md R33). -/
def Csr.number : Csr → BitVec 8
  | .config0 => 0x00 | .config1 => 0x01 | .min => 0x02 | .max => 0x03
  | .status => 0x04 | .faultInfo => 0x05 | .faultLoc => 0x06 | .probTol => 0x07
  | .cursor => 0x10 | .slotState => 0x11

/-- The CSR a number names, if it is not reserved (spec/10_state.md R33). -/
def Csr.ofNumber (v : BitVec 8) : Option Csr :=
  match v.toNat with
  | 0x00 => some .config0 | 0x01 => some .config1 | 0x02 => some .min | 0x03 => some .max
  | 0x04 => some .status | 0x05 => some .faultInfo | 0x06 => some .faultLoc | 0x07 => some .probTol
  | 0x10 => some .cursor | 0x11 => some .slotState
  | _ => none

/-- Whether SUB must be 0 for the opcode (R71, R80). -/
def subFixed : Opcode → Bool
  | .csrRead | .ctrRead | .seedSeq | .resample => false
  | .ctrZero | .ctrInc | .ctrAdd | .ctrLoad | .keyLoad | .transform | .seed | .seedAll
  | .next | .discard => true

/-- Whether SLOT must be 0 for the opcode and SUB (R71, R80). A CSR number that is not per slot, a reserved one among
them, needs SLOT 0 (DEDUCED from R80's column, assumption log 17, safe). -/
def slotFixed (op : Opcode) (sub : BitVec 8) : Bool :=
  match op with
  | .seedAll | .resample => true
  | .csrRead =>
    match Csr.ofNumber sub with
    | some csr => !csr.perSlot
    | none => true
  | .ctrZero | .ctrInc | .ctrAdd | .ctrLoad | .ctrRead | .keyLoad | .transform | .seed | .seedSeq
  | .next | .discard => false

/-- Whether the opcode's operands are native words of the engine (R74, R81 item 4, R112). -/
def nativeOperands : Opcode → Bool
  | .ctrAdd | .ctrLoad | .keyLoad | .transform => true
  | .csrRead | .ctrZero | .ctrInc | .ctrRead | .seed | .seedSeq | .seedAll | .next | .discard
  | .resample => false

/-- The index of the first operand with bits above a native word, counting from `i` (R81 item 4). R81 says 'the operand index' and not
which one where several operands are too wide: the lowest (DESIGN CHOICE, assumption log 26, unsafe for a claim about the index). -/
def firstWide (c : Config) : (i : Nat) → List Word → Option Nat
  | _, [] => none
  | i, v :: vs => if c.nativeWord v then firstWide c (i + 1) vs else some i

/-! ### Cause codes (spec/60_exceptions.md R240) -/

/-- The cause code (spec/60_exceptions.md R240), RESULT of a response and STATUS.CAUSE. -/
def Cause.code : Cause → BitVec 8
  | .illegalOpcode => 0x01
  | .reservedField => 0x02
  | .badSlot => 0x03
  | .uninitialised => 0x04
  | .badOperand => 0x05
  | .sharedStreamRace => 0x06
  | .badStride => 0x07
  | .sizeMismatch => 0x08
  | .probOutOfRange => 0x09
  | .badWeight => 0x0A
  | .sumMismatch => 0x0B
  | .misaligned => 0x0C
  | .busError => 0x0D
  | .bufferOverlap => 0x0E
  | .memoryRace => 0x0F
  | .badPolicy => 0x10
  | .badLength => 0x11
  | .refused => 0x12

/-! ### Decoding (R81) -/

/-- R81 item 5 and the operands: the command, once the message has passed items 1 to 4. The last case of each operand
list cannot arise after item 2. -/
def decodeOp (c : Config) (op : Opcode) (sub : BitVec 8) (slot : BitVec 32) (ops : List Word) :
    Except Raise Instr :=
  match op, ops with
  | .csrRead, _ =>
    match Csr.ofNumber sub with
    | some csr => .ok (.csrRead csr slot)
    | none => .error ⟨.badOperand, sub.setWidth 64⟩
  | .ctrZero, _ => .ok (.ctrZero slot)
  | .ctrInc, _ => .ok (.ctrInc slot)
  | .ctrAdd, [n] => .ok (.ctrAdd slot n)
  | .ctrLoad, _ => .ok (.ctrLoad slot ops)
  | .ctrRead, _ =>
    if sub.toNat < c.m then .ok (.ctrRead slot sub) else .error ⟨.badOperand, sub.setWidth 64⟩
  | .keyLoad, _ => .ok (.keyLoad slot ops)
  | .transform, _ => .ok (.transform slot ops)
  | .seed, [v] => .ok (.seed slot v)
  | .seedSeq, _ => if sub = 0 then .error ⟨.badLength, 1⟩ else .ok (.seedSeq slot ops)
  | .seedAll, [v] => .ok (.seedAll v)
  | .next, _ => .ok (.next slot)
  | .discard, [n] => .ok (.discard slot n)
  | .resample, [n, wbase, wstride, nw, rbase, rstride, nrl] =>
    let o : ResampleOps := ⟨n, wbase, wstride, nw, rbase, rstride, nrl⟩
    match sub.toNat with
    | 0 => .ok (.resampleMultinomial o)
    | 1 => .ok (.resampleResidual o)
    | 2 => .ok (.resampleStratified o)
    | 3 => .ok (.resampleSystematic o)
    | 4 => .ok (.resampleResidualStratified o)
    | 5 => .ok (.resampleResidualSystematic o)
    | _ => .error ⟨.badPolicy, sub.setWidth 64⟩
  | _, _ => .error ⟨.badLength, BitVec.ofNat 64 (1 + ops.length)⟩

/-- The command a message is, or the cause and information value of the first decoding check that fails (R70, R81). -/
def decode (c : Config) (msg : List Word) : Except Raise Instr :=
  match msg with
  | [] => .error ⟨.badLength, 0⟩
  | cw :: ops =>
    match Opcode.ofCode (opcOf cw) with
    | none => .error ⟨.illegalOpcode, cw⟩
    | some op =>
      if ops.length ≠ operandCount c op (subOf cw) then
        .error ⟨.badLength, BitVec.ofNat 64 msg.length⟩
      else if rsvOf cw ≠ 0 ∨ (subFixed op = true ∧ subOf cw ≠ 0) ∨
          (slotFixed op (subOf cw) = true ∧ slotFieldOf cw ≠ 0) then
        .error ⟨.reservedField, cw⟩
      else
        match (if nativeOperands op then firstWide c 0 ops else none) with
        | some i => .error ⟨.reservedField, BitVec.ofNat 64 i⟩
        | none => decodeOp c op (subOf cw) (slotFieldOf cw) ops

/-! ### Encoding (R71, R74, R80) -/

/-- The opcode of a command (R80). -/
def Instr.opcode : Instr → Opcode
  | .csrRead _ _ => .csrRead
  | .ctrZero _ => .ctrZero
  | .ctrInc _ => .ctrInc
  | .ctrAdd _ _ => .ctrAdd
  | .ctrLoad _ _ => .ctrLoad
  | .ctrRead _ _ => .ctrRead
  | .keyLoad _ _ => .keyLoad
  | .transform _ _ => .transform
  | .seed _ _ => .seed
  | .seedSeq _ _ => .seedSeq
  | .seedAll _ => .seedAll
  | .next _ => .next
  | .discard _ _ => .discard
  | .resampleMultinomial _ => .resample
  | .resampleResidual _ => .resample
  | .resampleStratified _ => .resample
  | .resampleSystematic _ => .resample
  | .resampleResidualStratified _ => .resample
  | .resampleResidualSystematic _ => .resample

/-- The SUB field of a command (R71). -/
def Instr.sub : Instr → BitVec 8
  | .csrRead csr _ => csr.number
  | .ctrRead _ block => block
  | .seedSeq _ values => BitVec.ofNat 8 values.length
  | .resampleMultinomial _ => 0
  | .resampleResidual _ => 1
  | .resampleStratified _ => 2
  | .resampleSystematic _ => 3
  | .resampleResidualStratified _ => 4
  | .resampleResidualSystematic _ => 5
  | .ctrZero _ | .ctrInc _ | .ctrAdd _ _ | .ctrLoad _ _ | .keyLoad _ _ | .transform _ _
  | .seed _ _ | .seedAll _ | .next _ | .discard _ _ => 0

/-- The SLOT field of a command (R71). -/
def Instr.slotField : Instr → BitVec 32
  | .csrRead _ slot | .ctrZero slot | .ctrInc slot | .ctrAdd slot _ | .ctrLoad slot _
  | .ctrRead slot _ | .keyLoad slot _ | .transform slot _ | .seed slot _ | .seedSeq slot _
  | .next slot | .discard slot _ => slot
  | .seedAll _ | .resampleMultinomial _ | .resampleResidual _ | .resampleStratified _
  | .resampleSystematic _ | .resampleResidualStratified _ | .resampleResidualSystematic _ => 0

/-- The operand words of a RESAMPLE in order (spec/44_resample.md R200). -/
def ResampleOps.words (o : ResampleOps) : List Word :=
  [o.n, o.wbase, o.wstride, o.nw, o.rbase, o.rstride, o.nrl]

/-- The operand words of a command (R80). -/
def Instr.operands : Instr → List Word
  | .csrRead _ _ | .ctrZero _ | .ctrInc _ | .ctrRead _ _ | .next _ => []
  | .ctrAdd _ n => [n]
  | .ctrLoad _ words => words
  | .keyLoad _ key => key
  | .transform _ block => block
  | .seed _ value => [value]
  | .seedSeq _ values => values
  | .seedAll value => [value]
  | .discard _ n => [n]
  | .resampleMultinomial o | .resampleResidual o | .resampleStratified o | .resampleSystematic o
  | .resampleResidualStratified o | .resampleResidualSystematic o => o.words

/-- The message of a command: CW and its operand words (R70, R71). -/
def encode (i : Instr) : List Word :=
  makeCw i.opcode.code i.sub i.slotField :: i.operands

/-! ### One table word as a message -/

/-- The first `k` 64-bit words of the bits `w`, the word of bits 63:0 first. -/
def wordsOfBits : (k : Nat) → (w : Nat) → List Word
  | 0, _ => []
  | k + 1, w => BitVec.ofNat 64 w :: wordsOfBits k (w / 2 ^ 64)

/-- The message whose bits are `w`, of which the opcode table gives `nbits`: CW first, then operand words, zero where the
table gives no bits, as many as CW's opcode takes (R70, R80). -/
def tableMessage (c : Config) (nbits w : Nat) : List Word :=
  let v := w % 2 ^ nbits
  let cw : Word := BitVec.ofNat 64 v
  let extra := (nbits + 63) / 64 - 1
  let need :=
    match Opcode.ofCode (opcOf cw) with
    | some op => operandCount c op (subOf cw)
    | none => 0
  cw :: wordsOfBits (max extra need) (v / 2 ^ 64)

/-- What the decoder of the reset instance reads from the bits `w` of an opcode-table row of `nbits` bits; none where it
raises a cause. -/
def decodeTableWord (nbits w : Nat) : Option Instr :=
  match decode Config.resetInstance (tableMessage Config.resetInstance nbits w) with
  | .ok i => some i
  | .error _ => none

end Sys2Proof
end

