-- ==== Sys2Proof/Machine/State.lean ====
section
/-! DEFINITION. The state of the unit (spec/10_state.md R20-R48), of the host memory it reaches (spec/20_memory.md R50) and of
the outside world's moves (spec/60_exceptions.md R250), as plain data, and the machine right after reset (R46). -/

namespace Sys2Proof.Machine

/-- Why the machine has no step. No command of a requester ends in one: a command that faults is answered (R241) and the
machine goes on. -/
inductive Fault where
  /-- Raised by `step` on a move of a requester q >= P: there is no such agent (R250). Safe: the unit never sees such a move. -/
  | noSuchRequester
  /-- Raised by `step` on a message of a requester whose command is in flight: "stuck: the requester has no issue step until
  its response" (spec/93_implementation_defined.md U13, R274). Safe: the spec gives that move no step either. -/
  | requesterBusy
  /-- Raised by `step` on a completion step of a requester with nothing in flight: there is no such step (R252). Safe. -/
  | nothingInFlight
  /-- Raised by `step` on a host access that runs past address 2^64 - 1: those bytes do not exist (spec/20_memory.md R50). Safe. -/
  | hostAccessBeyondSpace
deriving DecidableEq, Repr

/-- Why the model gives an instruction no meaning. -/
inductive Refusal where
  /-- Raised by `exec` for an instruction whose meaning is still to be written; every instruction has its meaning. Safe. -/
  | notModelled (mnemonic : String)
deriving DecidableEq, Repr

/-- The registers of a constructed stream slot (R23-R27). A slot with VALID = 0 has none (R28, R48). -/
structure Slot where
  /-- KEY[s]: KW words (R24). AES keys are held as their operand words (spec/30_encoding.md R74 item 3). -/
  key : List Word
  /-- CTR[s]: M blocks of W words, word 0 first (R25). -/
  ctr : List (List Word)
  /-- BUF[s]: R result words (R26); empty from the construction to the first refill, when it has no contents to read. -/
  buf : List Word
  /-- CUR[s], 0..R (R27). -/
  cur : Nat
deriving DecidableEq, Repr

/-- The slots `lo` to `hi - 1`, the form of every held set (spec/43_stream.md R182). -/
structure Held where
  lo : Nat
  hi : Nat
deriving DecidableEq, Repr

/-- The elements `base + 8 * i * stride` for `i < n`, 8 bytes each (spec/20_memory.md R55). -/
structure Footprint where
  base   : Nat
  stride : Nat
  n      : Nat
deriving DecidableEq, Repr

/-- The byte ranges of a RESAMPLE in flight (R45, R251). -/
structure Footprints where
  /-- WFOOT. -/
  weights : Footprint
  /-- RFOOT. -/
  counts  : Footprint
deriving DecidableEq, Repr

/-- A command in flight (R45, R251). -/
structure InFlight where
  /-- The message: CW and its operand words. -/
  msg  : List Word
  /-- The slots it holds. -/
  held : Held
  /-- The bytes it reads and writes, when they are recorded. -/
  foot : Option Footprints
deriving DecidableEq, Repr

/-- Host memory: the bytes that differ from what an unlisted address reads as, by rising address (R50). -/
abbrev Memory := List Host.Cell

/-- The moves of the outside world and the moments it leaves open (R250-R254, R270). -/
inductive Event where
  /-- Requester `q` sends a message (R251). -/
  | issue (q : Nat) (msg : List Word)
  /-- The unit takes the completion step of requester `q`'s command (R252). -/
  | complete (q : Nat)
  /-- Requester `q` reads `len` bytes of host memory at `addr` (R254). -/
  | hostRead (q : Nat) (addr : Word) (len : Nat)
  /-- Requester `q` writes bytes of host memory from `addr` on (R254). -/
  | hostWrite (q : Nat) (addr : Word) (bytes : List Byte)
  /-- Reset (spec/70_reset_and_hazards.md R270). -/
  | reset
deriving DecidableEq, Repr

/-- What a requester receives. -/
inductive Output where
  /-- A response message: RW and the data words (spec/30_encoding.md R76). -/
  | response (q : Nat) (words : List Word)
  /-- The bytes a host read returns (R254). -/
  | readData (q : Nat) (addr : Word) (bytes : List Byte)
deriving DecidableEq, Repr

/-- The machine. -/
structure State where
  /-- The instance's parameters; no step changes them (R21). -/
  cfg : Config
  /-- The NSTREAMS slots: VALID[s] is 1 when entry s is present (R23, R28). -/
  slots : List (Option Slot)
  /-- STATUS.FAULT (R38). -/
  statusFault : Bool
  /-- STATUS.CAUSE (R38). -/
  statusCause : BitVec 8
  /-- FAULT_INFO (R39). -/
  faultInfo : Word
  /-- FAULT_LOC (R40). -/
  faultLoc : Word
  /-- INFLIGHT[q] for the P requesters (R45). -/
  inflight : List (Option InFlight)
  /-- Host memory (R50). -/
  mem : Memory
  /-- The model's own: the pending moves of the outside world, the next first (assumption log 10). -/
  inputs : List Event
  /-- The model's own: what the requesters have received, the newest first (R273, assumption log 12). -/
  outputs : List Output
  /-- The model's own: the requester whose command is being performed (assumption log 23). -/
  serving : Nat
  /-- The model's own: how many times a free value has been taken (assumption log 6). -/
  freeCount : Nat
deriving DecidableEq, Repr

/-- The state right after reset of an instance, its memory listing nothing (R46). -/
def State.resetOf (c : Config) : State where
  cfg := c
  slots := List.replicate c.nstreams none
  statusFault := false
  statusCause := 0
  faultInfo := 0
  faultLoc := 0
  inflight := List.replicate c.p none
  mem := []
  inputs := []
  outputs := []
  serving := 0
  freeCount := 0

/-- The machine right after reset (R46), for the instance of assumption log 1. -/
def State.reset : State := State.resetOf Config.resetInstance

end Sys2Proof.Machine
end

