-- ==== Sys2Proof/Machine/Operands.lean ====
section
/-! DEFINITION. Operand forms (spec/30_encoding.md R73, R74, spec/20_memory.md R55): the slot a SLOT field names, the strides and
buffers of a RESAMPLE, and the slots and bytes a message holds while it is in flight. Native words and AES byte strings
travel as the 64-bit operand words themselves (R74); their bytes are taken apart in Machine/Engine.lean. -/

namespace Sys2Proof.Machine

/-- The first answer of `f i, f (i+1), ..`, at most `count` of them. -/
def firstFrom {α : Type} : (count : Nat) → (i : Nat) → (f : Nat → Option α) → Option α
  | 0, _, _ => none
  | count + 1, i, f =>
    match f i with
    | some x => some x
    | none => firstFrom count (i + 1) f

/-- `SlotOf(SLOT)` (spec/43_stream.md R180): none where it raises BadSlot. -/
def slotIndex (c : Config) (slot : BitVec 32) : Option Nat :=
  match c.mode with
  | .sequential => some 0
  | .parallel => if slot.toNat < c.nstreams then some slot.toNat else none

/-- Whether a stride, read as `sext_64`, is positive (R73, spec/44_resample.md R201). -/
def stridePositive (v : Word) : Bool := decide (0 < v.toInt)

/-- Address of element `i` (spec/20_memory.md R55), an exact integer. -/
def Footprint.elem (f : Footprint) (i : Nat) : Nat := f.base + 8 * i * f.stride

/-- Whether every element's 8 bytes fit in 64-bit addresses (spec/20_memory.md R55). -/
def Footprint.fits (f : Footprint) : Bool := decide (f.n = 0) || decide (f.elem (f.n - 1) + 7 < 2 ^ 64)

/-- Whether byte address `a` is in the footprint of elements with a positive stride (spec/20_memory.md R55). -/
def Footprint.contains (f : Footprint) (a : Nat) : Bool :=
  decide (f.base ≤ a) && decide ((a - f.base) / (8 * f.stride) < f.n) &&
    decide ((a - f.base) % (8 * f.stride) < 8)

/-- The weight elements of a RESAMPLE; the stride is positive, so its unsigned reading is the signed one (spec/20_memory.md R55). -/
def weightFoot (o : ResampleOps) : Footprint := ⟨o.wbase.toNat, o.wstride.toNat, o.n.toNat⟩

/-- The replication elements of a RESAMPLE (spec/20_memory.md R55). -/
def countFoot (o : ResampleOps) : Footprint := ⟨o.rbase.toNat, o.rstride.toNat, o.n.toNat⟩

/-- The operand checks of RESAMPLE in their order (spec/44_resample.md R200, R201). -/
def operandCheck (o : ResampleOps) : Option Raise :=
  if !stridePositive o.wstride then some ⟨.badStride, o.wstride⟩
  else if !stridePositive o.rstride then some ⟨.badStride, o.rstride⟩
  else if o.nw ≠ o.n then some ⟨.sizeMismatch, o.nw⟩
  else if o.nrl ≠ o.n then some ⟨.sizeMismatch, o.nrl⟩
  else if 2 ^ 32 ≤ o.n.toNat then some ⟨.badOperand, o.n⟩
  else none

/-- The opcode byte of a message; a missing command word is taken as 0 (R70, decision D51). -/
def msgOpc (msg : List Word) : BitVec 8 := opcOf (msg.headD 0)

/-- The SLOT field of a message; a missing command word is taken as 0 (R70, decision D51). -/
def msgSlot (msg : List Word) : BitVec 32 := slotFieldOf (msg.headD 0)

/-- The held set of a message, from its raw fields (spec/43_stream.md R182). A RESAMPLE without OP[0] holds no slot (DESIGN CHOICE,
assumption log 15). -/
def heldOf (c : Config) (msg : List Word) : Held :=
  match Opcode.ofCode (msgOpc msg) with
  | none => ⟨0, 0⟩
  | some .csrRead => ⟨0, 0⟩
  | some .seedAll => ⟨0, c.nstreams⟩
  | some .resample =>
    let n := (msg.getD 1 0).toNat
    if n = 0 ∨ 2 ^ 32 ≤ n then ⟨0, 0⟩
    else
      match c.mode with
      | .sequential => ⟨0, 1⟩
      | .parallel => ⟨0, min n c.nstreams⟩
  | some _ =>
    match slotIndex c (msgSlot msg) with
    | some k => ⟨k, k + 1⟩
    | none => ⟨0, 0⟩

/-- The lowest slot two held sets share (spec/43_stream.md R183). -/
def Held.shared (a b : Held) : Option Nat :=
  if max a.lo b.lo < min a.hi b.hi then some (max a.lo b.lo) else none

/-- The footprints a message records at its issue (R251): those of a RESAMPLE of eight words whose operand checks pass and whose
addresses fit (the message's length: DESIGN CHOICE, assumption log 16). -/
def footOf (msg : List Word) : Option Footprints :=
  match msg with
  | [cw, n, wbase, wstride, nw, rbase, rstride, nrl] =>
    let o : ResampleOps := ⟨n, wbase, wstride, nw, rbase, rstride, nrl⟩
    if Opcode.ofCode (opcOf cw) = some .resample ∧ operandCheck o = none ∧
        (weightFoot o).fits = true ∧ (countFoot o).fits = true then
      some ⟨weightFoot o, countFoot o⟩
    else none
  | _ => none

/-- What the issue step records of a message (R251). -/
def inFlightOf (c : Config) (msg : List Word) : InFlight := ⟨msg, heldOf c msg, footOf msg⟩

end Sys2Proof.Machine
end

