-- ==== Sys2Proof/Machine/Counter.lean ====
section
/-! DEFINITION. CounterBlock arithmetic (spec/41_counter.md R100-R106). A counter block is a list of W words, word 0 first. -/

namespace Sys2Proof

/-- `sum over j of words[j] * 2^(bits*j)`: word 0 is the least significant (R100). -/
def valWords (bits : Nat) : List Word → Nat
  | [] => 0
  | v :: vs => v.toNat + 2 ^ bits * valWords bits vs

namespace Config

/-- `val(C)` (R100). -/
def ctrVal (c : Config) (block : List Word) : Nat := valWords c.wc block

/-- `words_W(v)` (R102). -/
def ctrWords (c : Config) (v : Nat) : List Word :=
  (List.range c.w).map fun j => BitVec.ofNat 64 (v / 2 ^ (c.wc * j) % 2 ^ c.wc)

/-- `arith(C)`, the arithmetic part (R101). -/
def arith (c : Config) (block : List Word) : Nat := c.ctrVal block % 2 ^ c.arithBits

/-- `field(C)`, the block field: the top 8 bits of the last word (R101). -/
def field (c : Config) (block : List Word) : Nat :=
  (block.getD (c.w - 1) 0).toNat / 2 ^ (c.wc - 8) % 2 ^ 8

/-- `Blocks(a)`: the M blocks whose arithmetic part is `a`, block b with field b (R102). -/
def blocks (c : Config) (a : Nat) : List (List Word) :=
  if c.part then (List.range c.m).map fun b => c.ctrWords (b * 2 ^ c.arithBits + a)
  else [c.ctrWords a]

/-- `CounterAdd(a, k)` (R103). -/
def counterAdd (c : Config) (a k : Nat) : Nat := (a + k) % 2 ^ c.arithBits

/-- Adding `k` to a slot's counter: `Blocks(CounterAdd(arith(CTR[s][0]), k))` (R103). -/
def addCtr (c : Config) (ctr : List (List Word)) (k : Nat) : List (List Word) :=
  c.blocks (c.counterAdd (c.arith (ctr.headD [])) k)

end Config

end Sys2Proof
end

