-- ==== Sys2Proof/Machine/Engine.lean ====
section
/-! DEFINITION. The BlockEngine transforms (spec/42_engine.md). The constants are those the spec states; it marks them as
general knowledge (assumption log 24). Words of the ARX engines are natural numbers below 2^w. -/

namespace Sys2Proof

/-! ### AES (R140-R149) -/

namespace Aes

/-- The S-box of R143, a row per high nibble, its columns from left to right. -/
def sboxRow (hi : Nat) : Nat :=
  match hi with
  | 0x0 => 0x637c777bf26b6fc53001672bfed7ab76
  | 0x1 => 0xca82c97dfa5947f0add4a2af9ca472c0
  | 0x2 => 0xb7fd9326363ff7cc34a5e5f171d83115
  | 0x3 => 0x04c723c31896059a071280e2eb27b275
  | 0x4 => 0x09832c1a1b6e5aa0523bd6b329e32f84
  | 0x5 => 0x53d100ed20fcb15b6acbbe394a4c58cf
  | 0x6 => 0xd0efaafb434d338545f9027f503c9fa8
  | 0x7 => 0x51a3408f929d38f5bcb6da2110fff3d2
  | 0x8 => 0xcd0c13ec5f974417c4a77e3d645d1973
  | 0x9 => 0x60814fdc222a908846eeb814de5e0bdb
  | 0xa => 0xe0323a0a4906245cc2d3ac629195e479
  | 0xb => 0xe7c8376d8dd54ea96c56f4ea657aae08
  | 0xc => 0xba78252e1ca6b4c6e8dd741f4bbd8b8a
  | 0xd => 0x703eb5664803f60e613557b986c11d9e
  | 0xe => 0xe1f8981169d98e949b1e87e9ce5528df
  | _ => 0x8ca1890dbfe6426841992d0fb054bb16

/-- `S(a)` (R143). -/
def sbox (a : Byte) : Byte :=
  BitVec.ofNat 8 (sboxRow (a.toNat / 16) >>> (8 * (15 - a.toNat % 16)))

/-- `xtime(a)`: multiplication by 0x02 (R142). -/
def xtime (a : Byte) : Byte := (a <<< 1) ^^^ (if a.msb then 0x1B else 0)

/-- `a * 0x03` (R142). -/
def times3 (a : Byte) : Byte := xtime a ^^^ a

/-- `Rcon[i]` for `i >= 1` (R141). -/
def rcon : Nat → Byte
  | 0 => 0
  | 1 => 0x01
  | i + 2 => xtime (rcon (i + 1))

/-- The key words Nk (R140). -/
def nk (c : Config) : Nat := c.kw * 2

/-- The bytes of a list of 64-bit words, each little-endian (R74 item 3). -/
def bytesOfWords (ws : List Word) : List Byte :=
  ws.flatMap fun v => (List.range 8).map fun k => v.extractLsb' (8 * k) 8

/-- Four bytes of a key-schedule word. -/
abbrev KeyWord := Byte × Byte × Byte × Byte

/-- RotWord (R140). -/
def rotWord (v : KeyWord) : KeyWord := (v.2.1, v.2.2.1, v.2.2.2, v.1)

/-- SubWord (R140). -/
def subWord (v : KeyWord) : KeyWord := (sbox v.1, sbox v.2.1, sbox v.2.2.1, sbox v.2.2.2)

/-- Exclusive or of two schedule words. -/
def xorWord (u v : KeyWord) : KeyWord :=
  (u.1 ^^^ v.1, u.2.1 ^^^ v.2.1, u.2.2.1 ^^^ v.2.2.1, u.2.2.2 ^^^ v.2.2.2)

/-- The schedule word `w[i]` for `i >= Nk`, from the words before it, newest first (R140). -/
def nextKeyWord (nk i : Nat) (before : List KeyWord) : KeyWord :=
  let t := before.headD (0, 0, 0, 0)
  let t' :=
    if i % nk = 0 then xorWord (subWord (rotWord t)) (rcon (i / nk), 0, 0, 0)
    else if nk = 8 ∧ i % nk = 4 then subWord t
    else t
  xorWord (before.getD (nk - 1) (0, 0, 0, 0)) t'

/-- `count` more schedule words from `w[i]` on, newest first (R140). -/
def expandFrom (nk : Nat) : (count : Nat) → (i : Nat) → (before : List KeyWord) → List KeyWord
  | 0, _, before => before
  | count + 1, i, before => expandFrom nk count (i + 1) (nextKeyWord nk i before :: before)

/-- The key's bytes as schedule words `w[0] .. w[Nk-1]` (R140). -/
def keyWords : List Byte → List KeyWord
  | a :: b :: x :: y :: rest => (a, b, x, y) :: keyWords rest
  | _ => []

/-- The key schedule `w[0] .. w[4*(Nr+1)-1]` (R140). -/
def schedule (c : Config) (key : List Word) : List KeyWord :=
  (expandFrom (nk c) (4 * (c.rounds + 1) - nk c) (nk c)
    (keyWords (bytesOfWords key)).reverse).reverse

/-- The state, 16 bytes in input order: `st[r][c]` is byte `r + 4c` (R144). -/
abbrev St := List Byte

/-- `st[r][c]` (R144). -/
def cell (st : St) (r col : Nat) : Byte := st.getD (r + 4 * col) 0

/-- The state whose `st[r][c]` is `f r c` (R144). -/
def build (f : Nat → Nat → Byte) : St := (List.range 16).map fun i => f (i % 4) (i / 4)

/-- SubBytes (R145). -/
def subBytes (st : St) : St := st.map sbox

/-- ShiftRows (R146). -/
def shiftRows (st : St) : St := build fun r col => cell st r ((col + r) % 4)

/-- MixColumns (R147): row r of a column is `02*a_r xor 03*a_(r+1) xor a_(r+2) xor a_(r+3)`, indices modulo 4. -/
def mixColumns (st : St) : St := build fun r col =>
  xtime (cell st r col) ^^^ times3 (cell st ((r + 1) % 4) col) ^^^
    cell st ((r + 2) % 4) col ^^^ cell st ((r + 3) % 4) col

/-- The 16 bytes of round key `r`: `w[4r + c][i]` stands at `i + 4c` (R148). -/
def roundKey (w : List KeyWord) (r : Nat) : St :=
  ((w.drop (4 * r)).take 4).flatMap fun v => [v.1, v.2.1, v.2.2.1, v.2.2.2]

/-- AddRoundKey (R148). -/
def addRoundKey (w : List KeyWord) (r : Nat) (st : St) : St :=
  List.zipWith (· ^^^ ·) st (roundKey w r)

/-- `count` full rounds from round `r` on (R149). -/
def fullRounds (w : List KeyWord) : (count : Nat) → (r : Nat) → St → St
  | 0, _, st => st
  | count + 1, r, st =>
    fullRounds w count (r + 1) (addRoundKey w r (mixColumns (shiftRows (subBytes st))))

/-- The AES cipher (R149). -/
def cipher (c : Config) (key : List Word) (input : List Byte) : List Byte :=
  let w := schedule c key
  let st := fullRounds w (c.rounds - 1) 1 (addRoundKey w 0 input)
  addRoundKey w c.rounds (shiftRows (subBytes st))

end Aes

/-! ### Philox (R150-R154) -/

namespace Philox

/-- The Weyl constants PW (R150). -/
def weyl (w : Nat) : List Nat :=
  if w = 32 then [0x9E3779B9, 0xBB67AE85] else [0x9E3779B97F4A7C15, 0xBB67AE8584CAA73B]

/-- The multipliers PM0 (and PM1) (R151). -/
def multipliers : Engine → List Nat
  | .philox2x32 => [0xD256D193]
  | .philox4x32 => [0xD2511F53, 0xCD9E8D57]
  | .philox2x64 => [0xD2B74407B1CE6E93]
  | .philox4x64 => [0xD2E7470EE14C6C93, 0xCA5A826395121157]
  | _ => []

/-- The bump of the key before each later round (R150). -/
def bump (w : Nat) (key : List Nat) : List Nat :=
  List.zipWith (fun k p => (k + p) % 2 ^ w) key (weyl w)

/-- One round of two words (R152) or four (R153) under the round key. -/
def round (w : Nat) (pm key x : List Nat) : List Nat :=
  match pm, key, x with
  | [pm0], [k0], [x0, x1] =>
    [(pm0 * x0 / 2 ^ w) ^^^ k0 ^^^ x1, pm0 * x0 % 2 ^ w]
  | [pm0, pm1], [k0, k1], [x0, x1, x2, x3] =>
    [(pm1 * x2 / 2 ^ w) ^^^ x1 ^^^ k0, pm1 * x2 % 2 ^ w,
     (pm0 * x0 / 2 ^ w) ^^^ x3 ^^^ k1, pm0 * x0 % 2 ^ w]
  | _, _, _ => x

/-- `count` rounds, the key bumped between rounds (R150, R154). -/
def rounds (w : Nat) (pm : List Nat) : (count : Nat) → (key x : List Nat) → List Nat
  | 0, _, x => x
  | count + 1, key, x => rounds w pm count (bump w key) (round w pm key x)

end Philox

/-! ### Threefry (R160-R164) -/

namespace Threefry

/-- PARITY (R160). -/
def parity (w : Nat) : Nat := if w = 32 then 0x1BD11BDA else 0x1BD11BDAA9FC1A22

/-- The extended key `ks[0] .. ks[n]` (R160). -/
def extend (w : Nat) (key : List Nat) : List Nat := key ++ [key.foldl (· ^^^ ·) (parity w)]

/-- `Inject(x, d)` (R160): `d` is added to the last word. -/
def inject (w : Nat) (ks x : List Nat) (d : Nat) : List Nat :=
  let n := x.length
  (List.range n).map fun i =>
    let y := (x.getD i 0 + ks.getD ((d + i) % (n + 1)) 0) % 2 ^ w
    if i = n - 1 then (y + d) % 2 ^ w else y

/-- The rotation constants of two words, ROT2 (R161). -/
def rot2 (w : Nat) : List Nat :=
  if w = 32 then [13, 15, 26, 6, 17, 29, 16, 24] else [16, 42, 12, 31, 16, 32, 24, 21]

/-- The rotation constants of four words, (RA, RB) (R161). -/
def rot4 (w : Nat) : List (Nat × Nat) :=
  if w = 32 then [(10, 26), (11, 21), (13, 27), (23, 5), (6, 20), (17, 11), (25, 10), (18, 20)]
  else [(14, 16), (52, 57), (23, 40), (5, 37), (25, 33), (46, 12), (58, 22), (32, 32)]

/-- `rotl_w(v, k)` (R161). -/
def rotl (w v k : Nat) : Nat := (v * 2 ^ k ||| v / 2 ^ (w - k)) % 2 ^ w

/-- Round `r` of two words (R162) or four (R163). -/
def round (w : Nat) (r : Nat) (x : List Nat) : List Nat :=
  match x with
  | [x0, x1] =>
    let y0 := (x0 + x1) % 2 ^ w
    [y0, rotl w x1 ((rot2 w).getD (r % 8) 0) ^^^ y0]
  | [x0, x1, x2, x3] =>
    let k := (rot4 w).getD (r % 8) (0, 0)
    if r % 2 = 0 then
      let y0 := (x0 + x1) % 2 ^ w
      let y2 := (x2 + x3) % 2 ^ w
      [y0, rotl w x1 k.1 ^^^ y0, y2, rotl w x3 k.2 ^^^ y2]
    else
      let y0 := (x0 + x3) % 2 ^ w
      let y2 := (x2 + x1) % 2 ^ w
      [y0, rotl w x1 k.2 ^^^ y2, y2, rotl w x3 k.1 ^^^ y0]
  | _ => x

/-- `count` rounds from round `r` on, with an injection after every fourth (R164). -/
def rounds (w : Nat) (ks : List Nat) : (count : Nat) → (r : Nat) → (x : List Nat) → List Nat
  | 0, _, x => x
  | count + 1, r, x =>
    let y := round w r x
    rounds w ks count (r + 1) (if r % 4 = 3 then inject w ks y ((r + 1) / 4) else y)

end Threefry

/-! ### The transform (R130) -/

/-- `sum over k of bytes[k] * 2^(8k)` (spec/20_memory.md R52). -/
def leNat : List Byte → Nat
  | [] => 0
  | b :: bs => b.toNat + 256 * leNat bs

/-- The low `n` bytes of `v`, the least significant first (spec/20_memory.md R52). -/
def leBytes : (n : Nat) → (v : Nat) → List Byte
  | 0, _ => []
  | n + 1, v => BitVec.ofNat 8 v :: leBytes n (v / 256)

/-- The first `count` words of `size` bytes each of a byte string, each little-endian (R175, R74). -/
def cutWords (size : Nat) : (count : Nat) → List Byte → List Word
  | 0, _ => []
  | count + 1, bytes => BitVec.ofNat 64 (leNat (bytes.take size)) :: cutWords size count (bytes.drop size)

/-- The output words of an ARX engine (R154, R164). -/
def arxWords (c : Config) (key block : List Nat) : List Nat :=
  match c.engine with
  | .philox2x32 | .philox4x32 | .philox2x64 | .philox4x64 =>
    Philox.rounds c.wc (Philox.multipliers c.engine) c.nr key block
  | .threefry2x32 | .threefry4x32 | .threefry2x64 | .threefry4x64 =>
    let ks := Threefry.extend c.wc key
    Threefry.rounds c.wc ks c.nr 0 (Threefry.inject c.wc ks block 0)
  | .aes128 | .aes192 | .aes256 => block

/-- `E(KEY, C)`: the output image, a byte string (R130). -/
def engineImage (c : Config) (key block : List Word) : List Byte :=
  match c.engine with
  | .aes128 | .aes192 | .aes256 => Aes.cipher c key (Aes.bytesOfWords block)
  | _ =>
    (arxWords c (key.map BitVec.toNat) (block.map BitVec.toNat)).flatMap (leBytes (c.wc / 8))

/-- The output image as W native words, the response of TRANSFORM (R131, R74). -/
def engineWords (c : Config) (key block : List Word) : List Word :=
  cutWords (c.wc / 8) c.w (engineImage c key block)

end Sys2Proof
end

