-- ==== Sys2Proof/Machine/Stream.lean ====
section
/-! DEFINITION. The CBRNG adapter (spec/43_stream.md R170-R178): what one slot does, as functions of its registers. -/

namespace Sys2Proof.Machine

/-- The registers `Construct(s, key)` leaves (R170): counter 0, buffer exhausted and without contents. -/
def constructed (c : Config) (key : List Word) : Slot where
  key := key
  ctr := c.blocks 0
  buf := []
  cur := c.bufLen

/-- `Fill(key, C)` (R175). -/
def fill (c : Config) (key : List Word) (ctr : List (List Word)) : List Word :=
  cutWords (c.wrBits / 8) c.bufLen (ctr.flatMap (engineImage c key))

/-- The refill of an exhausted buffer: the counter is increased by `k`, then transformed (R174, R177). -/
def refill (c : Config) (k : Nat) (sl : Slot) : Slot :=
  let ctr := c.addCtr sl.ctr k
  { sl with ctr := ctr, buf := fill c sl.key ctr }

/-- The slot after the first half of NEXT: refilled when exhausted, with the cursor at 0 (R174). -/
def readySlot (c : Config) (sl : Slot) : Slot :=
  if sl.cur = c.bufLen then { refill c 1 sl with cur := 0 } else sl

/-- The result word of NEXT (R174). -/
def nextWord (c : Config) (sl : Slot) : Word :=
  let r := readySlot c sl
  r.buf.getD r.cur 0

/-- The slot after NEXT (R174). -/
def nextSlot (c : Config) (sl : Slot) : Slot :=
  let r := readySlot c sl
  { r with cur := r.cur + 1 }

/-- The slot after `n` NEXTs: the loop that defines DISCARD (R176). -/
def nextTimes (c : Config) : (n : Nat) → Slot → Slot
  | 0, sl => sl
  | n + 1, sl => nextTimes c n (nextSlot c sl)

/-- The slot after DISCARD n, in the closed form of R177. -/
def discardSlot (c : Config) (n : Nat) (sl : Slot) : Slot :=
  let rem := c.bufLen - sl.cur
  if n ≤ rem then { sl with cur := sl.cur + n }
  else
    let n2 := n - rem
    let k := (n2 + c.bufLen - 1) / c.bufLen
    { refill c k sl with cur := n2 - (k - 1) * c.bufLen }

/-- The slot after a direct write of its counter: the buffer is exhausted (spec/41_counter.md, decision D12). -/
def withCtr (c : Config) (sl : Slot) (ctr : List (List Word)) : Slot :=
  { sl with ctr := ctr, cur := c.bufLen }

end Sys2Proof.Machine
end

