-- ==== Sys2Proof/Machine/Ops.lean ====
section
/-! DEFINITION. The named operations the meanings share: host memory (spec/20_memory.md R50-R53), slots (spec/43_stream.md R170, R180),
responses (spec/30_encoding.md R76), raising a cause (spec/60_exceptions.md R241), the refusal (R244) and reset
(spec/70_reset_and_hazards.md R270). -/

namespace Sys2Proof.Machine

/-! ### Host memory (R50-R53) -/

/-- What a byte of host memory that is not listed reads as. DESIGN CHOICE (assumption log 9, unsafe for a claim that rests on it). -/
def unlistedByte : Byte := 0

/-- The byte at an address. -/
def Memory.byteAt : Memory → Nat → Byte
  | [], _ => unlistedByte
  | (k, v) :: rest, a => if k = a then v else Memory.byteAt rest a

/-- Memory with the byte at `a` set, in canonical form. -/
def Memory.set : Memory → Nat → Byte → Memory
  | [], a, v => if v = unlistedByte then [] else [(a, v)]
  | (k, x) :: rest, a, v =>
    if a < k then (if v = unlistedByte then (k, x) :: rest else (a, v) :: (k, x) :: rest)
    else if a = k then (if v = unlistedByte then rest else (a, v) :: rest)
    else (k, x) :: Memory.set rest a v

/-- Whether the listed addresses rise strictly from at least `lo`, are addresses, and no entry is what an unlisted byte
reads as. -/
def Memory.wfFrom : (lo : Nat) → Memory → Bool
  | _, [] => true
  | lo, (k, v) :: rest =>
    decide (lo ≤ k) && decide (k < 2 ^ 64) && decide (v ≠ unlistedByte) && Memory.wfFrom (k + 1) rest

/-- The canonical form of memory: equal memories are equal lists. -/
def Memory.wf (m : Memory) : Bool := Memory.wfFrom 0 m

/-- The `n` bytes at `a`, `a+1`, .. -/
def Memory.read (m : Memory) : (n : Nat) → (a : Word) → List Byte
  | 0, _ => []
  | n + 1, a => m.byteAt a.toNat :: Memory.read m n (a + 1)

/-- Memory with the bytes written at `a`, `a+1`, .. -/
def Memory.write : Memory → (a : Word) → List Byte → Memory
  | m, _, [] => m
  | m, a, b :: bs => Memory.write (m.set a.toNat b) (a + 1) bs

/-- `MemRead(a, 8)` (R52, R53): a 64-bit little-endian word. -/
def Memory.readWord (m : Memory) (a : Word) : Word := BitVec.ofNat 64 (leNat (m.read 8 a))

/-- `MemWrite(a, 8, v)` (R52, R53). -/
def Memory.writeWord (m : Memory) (a : Word) (v : Nat) : Memory := m.write a (leBytes 8 v)

/-- The byte of host memory at an address. -/
def State.readByte (s : State) (a : Word) : Byte := s.mem.byteAt a.toNat

/-! ### Slots (R23, R28, R180) -/

/-- The registers of slot `k`; none while VALID[k] = 0 (R28). -/
def State.slot (s : State) (k : Nat) : Option Slot := s.slots.getD k none

/-- The state with slot `k`'s registers written. -/
def State.setSlot (s : State) (k : Nat) (sl : Slot) : State := { s with slots := s.slots.set k (some sl) }

/-- INFLIGHT[q] (R45). -/
def State.inFlight (s : State) (q : Nat) : Option InFlight := s.inflight.getD q none

/-! ### Responses and faults (R76, R240-R244) -/

/-- RW: RESULT in bits 7:0, the echo of OPC in bits 15:8 (R76). -/
def responseWord (result opc : BitVec 8) : Word := 0#48 ++ (opc ++ result)

/-- The response to the requester being served, whose command is then no longer in flight (R76, R252). -/
def respond (result opc : BitVec 8) (data : List Word) (s : State) : State :=
  { s with
    outputs := .response s.serving (responseWord result opc :: data) :: s.outputs
    inflight := s.inflight.set s.serving none }

/-- FAULT_LOC (R40): SLOT in bits 31:0, the requester in bits 47:32, OPC in bits 55:48. -/
def locWord (slot : BitVec 32) (q : Nat) (opc : BitVec 8) : Word :=
  0#8 ++ (opc ++ (BitVec.ofNat 16 q ++ slot))

/-- The first fault's record: STATUS.FAULT, STATUS.CAUSE, FAULT_INFO and FAULT_LOC are written while STATUS.FAULT = 0, and kept
after that (R241). -/
def recordFault (q : Nat) (opc : BitVec 8) (slot : BitVec 32) (r : Raise) (s : State) : State :=
  if s.statusFault then s
  else { s with
    statusFault := true
    statusCause := r.cause.code
    faultInfo := r.info
    faultLoc := locWord slot q opc }

/-- Raising a cause: the fault is recorded and the requester being served gets its code and no data (R241). This is the whole of
fault entry: there is no handler and no return (R245, R247). -/
def takeFault (opc : BitVec 8) (slot : BitVec 32) (r : Raise) (s : State) : State :=
  respond r.cause.code opc [] (recordFault s.serving opc slot r s)

/-- The refusal of a command in the fault state (R244): response 0x12 and no other effect. -/
def refuse (opc : BitVec 8) (s : State) : State := respond Cause.refused.code opc [] s

/-- What the checks and effects of a command come to: its state and response data, or the cause it raises with the state the fault
leaves (R241: the state before the command, but for R235). -/
inductive CmdResult where
  | done (s : State) (data : List Word)
  | raised (r : Raise) (s : State)
deriving DecidableEq, Repr

/-- The end of a completion step: the response or the fault (R252). -/
def CmdResult.finish (i : Instr) : CmdResult → State
  | .done s data => respond 0x00 i.opcode.code data s
  | .raised r s => takeFault i.opcode.code i.slotField r s

/-- The completion step of a decoded command: refused in the fault state unless it is CSR_READ, else its checks and effects and
then the response (R244, R252). -/
def perform (i : Instr) (body : State → CmdResult) (s : State) : Host.Outcome State Fault Refusal :=
  if s.statusFault = true ∧ i.opcode ≠ .csrRead then .next (refuse i.opcode.code s)
  else .next ((body s).finish i)

/-- The slot prologue `s <- SlotOf(SLOT)` (R180). -/
def onSlot (slot : BitVec 32) (s : State) (f : Nat → CmdResult) : CmdResult :=
  match slotIndex s.cfg slot with
  | none => .raised ⟨.badSlot, slot.setWidth 64⟩ s
  | some k => f k

/-- The slot prologue with the check of VALID (R242). -/
def onValidSlot (slot : BitVec 32) (s : State) (f : Nat → Slot → CmdResult) : CmdResult :=
  onSlot slot s fun k =>
    match s.slot k with
    | none => .raised ⟨.uninitialised, BitVec.ofNat 64 k⟩ s
    | some sl => f k sl

/-- `Construct(s, key)` on the slot a SLOT field names (R170). -/
def construct (slot : BitVec 32) (key : List Word) (s : State) : CmdResult :=
  onSlot slot s fun k => .done (s.setSlot k (constructed s.cfg key)) []

/-- A direct counter command (spec/41_counter.md): the new counter of a valid slot, its buffer exhausted. -/
def writeCtr (slot : BitVec 32) (f : Slot → List (List Word)) (s : State) : CmdResult :=
  onValidSlot slot s fun k sl => .done (s.setSlot k (withCtr s.cfg sl (f sl))) []

/-! ### Reset (R270) -/

/-- The reset event: every slot invalid, the fault record cleared, nothing in flight; host memory and the parameters stay. -/
def resetUnit (s : State) : State :=
  { s with
    slots := List.replicate s.cfg.nstreams none
    statusFault := false
    statusCause := 0
    faultInfo := 0
    faultLoc := 0
    inflight := List.replicate s.cfg.p none }

/-! ### Races (R62, R183, R251, R254) -/

/-- The smaller of two answers, where there are answers. -/
def minOption : Option Nat → Option Nat → Option Nat
  | none, b => b
  | a, none => a
  | some a, some b => some (min a b)

/-- The lowest slot that `h` shares with the held set of a command in flight for a requester other than `q`, the list's first
entry being requester `i` (R183, R251). -/
def raceFrom (q : Nat) (h : Held) : (i : Nat) → List (Option InFlight) → Option Nat
  | _, [] => none
  | i, r :: rs =>
    let here :=
      match r with
      | some c => if i = q then none else h.shared c.held
      | none => none
    minOption here (raceFrom q h (i + 1) rs)

/-- Whether a host access to byte `a` is one that R62 forbids while the footprints are in flight. -/
def Footprints.forbids (f : Footprints) (write : Bool) (a : Nat) : Bool :=
  f.counts.contains a || (write && f.weights.contains a)

/-- The first requester with a command in flight whose footprints forbid the access to byte `a`, the list's first entry being
requester `i` (R254). -/
def forbiddingFrom (write : Bool) (a : Nat) : (i : Nat) → List (Option InFlight) → Option (Nat × List Word)
  | _, [] => none
  | i, r :: rs =>
    match r with
    | some ⟨msg, _, some f⟩ =>
      if f.forbids write a then some (i, msg) else forbiddingFrom write a (i + 1) rs
    | _ => forbiddingFrom write a (i + 1) rs

/-- The lowest byte of a host access to `len` bytes at `addr` that a RESAMPLE in flight forbids, with that RESAMPLE's requester
and message (R62, R254; the lowest byte: DEDUCED, assumption log 18). -/
def memoryRace (s : State) (write : Bool) (addr : Word) (len : Nat) : Option (Nat × Nat × List Word) :=
  firstFrom len addr.toNat fun a => (forbiddingFrom write a 0 s.inflight).map fun x => (a, x)

end Sys2Proof.Machine
end

