-- ==== Sys2Proof/Machine/Agents.lean ====
section
/-! DEFINITION. The moves of the requesters (spec/60_exceptions.md R251, R254) and what the completion step does around a command
(R252). -/

namespace Sys2Proof.Machine

/-- The state with the remaining moves. -/
def State.withInputs (s : State) (rest : List Event) : State := { s with inputs := rest }

/-- The state in which requester `q`'s command is being performed. -/
def serve (q : Nat) (s : State) : State := { s with serving := q }

/-- The issue step of requester `q` (R251): SharedStreamRace while STATUS.FAULT = 0, else the command is in flight. -/
def issueStep (q : Nat) (msg : List Word) (s : State) : Host.Outcome State Fault Refusal :=
  match s.inflight[q]? with
  | none => .fault .noSuchRequester
  | some (some _) => .fault .requesterBusy
  | some none =>
    match (if s.statusFault then none else raceFrom q (heldOf s.cfg msg) 0 s.inflight) with
    | some k =>
      .next (takeFault (msgOpc msg) (msgSlot msg) ⟨.sharedStreamRace, BitVec.ofNat 64 k⟩ (serve q s))
    | none => .next { s with inflight := s.inflight.set q (some (inFlightOf s.cfg msg)) }

/-- The completion of a message that fails a decoding check: refused in the fault state unless it is a CSR_READ, else the cause is
raised (R243, R244, R252). -/
def rejectMessage (msg : List Word) (r : Raise) (s : State) : State :=
  if s.statusFault = true ∧ msgOpc msg ≠ Opcode.csrRead.code then refuse (msgOpc msg) s
  else takeFault (msgOpc msg) (msgSlot msg) r s

/-- A host access to `len` bytes at `addr` (R254): MemoryRace, recorded for the RESAMPLE in flight and with no other effect, or
the access itself. -/
def hostAccess (q : Nat) (write : Bool) (addr : Word) (len : Nat) (access : State → State) (s : State) :
    Host.Outcome State Fault Refusal :=
  if s.inflight.length ≤ q then .fault .noSuchRequester
  else if 2 ^ 64 < addr.toNat + len then .fault .hostAccessBeyondSpace
  else
    match (if s.statusFault then none else memoryRace s write addr len) with
    | some (a, owner, msg) =>
      .next (recordFault owner (msgOpc msg) (msgSlot msg) ⟨.memoryRace, BitVec.ofNat 64 a⟩ s)
    | none => .next (access s)

/-- A host read: the bytes are delivered to the requester (R254, spec/20_memory.md R51). -/
def hostReadStep (q : Nat) (addr : Word) (len : Nat) (s : State) : Host.Outcome State Fault Refusal :=
  hostAccess q false addr len
    (fun s => { s with outputs := .readData q addr (s.mem.read len addr) :: s.outputs }) s

/-- A host write (R254, spec/20_memory.md R51). -/
def hostWriteStep (q : Nat) (addr : Word) (bytes : List Byte) (s : State) :
    Host.Outcome State Fault Refusal :=
  hostAccess q true addr bytes.length (fun s => { s with mem := s.mem.write addr bytes }) s

/-- The lowest requester with a command in flight (R253; the order: assumption log 11). -/
def firstInFlight (s : State) : Option Nat := s.inflight.findIdx? Option.isSome

end Sys2Proof.Machine
end

