-- ==== Sys2Proof/Machine/CounterCommands.lean ====
section
/-! DEFINITION. The direct counter commands (spec/41_counter.md R110-R114). -/

namespace Sys2Proof.Machine

/-- CTR_ZERO (R110). -/
def execCtrZero (slot : BitVec 32) (s : State) : Host.Outcome State Fault Refusal :=
  perform (.ctrZero slot) (fun s => writeCtr slot (fun _ => s.cfg.blocks 0) s) s

/-- CTR_INC (R111). -/
def execCtrInc (slot : BitVec 32) (s : State) : Host.Outcome State Fault Refusal :=
  perform (.ctrInc slot) (fun s => writeCtr slot (fun sl => s.cfg.addCtr sl.ctr 1) s) s

/-- CTR_ADD (R112). -/
def execCtrAdd (slot : BitVec 32) (n : Word) (s : State) : Host.Outcome State Fault Refusal :=
  perform (.ctrAdd slot n) (fun s => writeCtr slot (fun sl => s.cfg.addCtr sl.ctr n.toNat) s) s

/-- The bits of a loaded value that stand where the block field is; 0 when no field is reserved (R113). -/
def loadedField (c : Config) (v : Nat) : Nat := if c.part then v / 2 ^ c.arithBits else 0

/-- The checks and effects of CTR_LOAD (R113). -/
def ctrLoadBody (slot : BitVec 32) (words : List Word) (s : State) : CmdResult :=
  onValidSlot slot s fun k sl =>
    let v := valWords s.cfg.wc words
    if loadedField s.cfg v ≠ 0 then .raised ⟨.badOperand, BitVec.ofNat 64 (loadedField s.cfg v)⟩ s
    else .done (s.setSlot k (withCtr s.cfg sl (s.cfg.blocks v))) []

/-- CTR_LOAD (R113). -/
def execCtrLoad (slot : BitVec 32) (words : List Word) (s : State) : Host.Outcome State Fault Refusal :=
  perform (.ctrLoad slot words) (ctrLoadBody slot words) s

/-- The checks and the answer of CTR_READ (R114): no state changes. -/
def ctrReadBody (slot : BitVec 32) (block : BitVec 8) (s : State) : CmdResult :=
  if s.cfg.m ≤ block.toNat then .raised ⟨.badOperand, block.setWidth 64⟩ s
  else onValidSlot slot s fun _ sl => .done s (sl.ctr.getD block.toNat [])

/-- CTR_READ (R114). -/
def execCtrRead (slot : BitVec 32) (block : BitVec 8) (s : State) : Host.Outcome State Fault Refusal :=
  perform (.ctrRead slot block) (ctrReadBody slot block) s

end Sys2Proof.Machine
end

