-- ==== Sys2Proof/Machine/Flags.lean ====
section
/-! DEFINITION. The STATUS register (spec/10_state.md R38), the unit's only flags (R32): no command writes one, a fault sets FAULT and
CAUSE, BUSY is seen by the reader. -/

namespace Sys2Proof.Machine

/-- Whether a requester other than `q` has a command in flight, the list's first entry being requester `i` (R38). -/
def busyFrom (q : Nat) : (i : Nat) → List (Option InFlight) → Bool
  | _, [] => false
  | i, r :: rs => (decide (i ≠ q) && r.isSome) || busyFrom q (i + 1) rs

/-- STATUS.BUSY as requester `q` reads it (R38). -/
def busy (s : State) (q : Nat) : Bool := busyFrom q 0 s.inflight

/-- STATUS as requester `q` reads it (R38): FAULT in bit 0, ADVISORY 0 in bit 1, BUSY in bit 2, CAUSE in bits 15:8. -/
def statusWord (s : State) (q : Nat) : Word :=
  0#48 ++ (s.statusCause ++ (0#5 ++ (BitVec.ofBool (busy s q) ++ (0#1 ++ BitVec.ofBool s.statusFault))))

end Sys2Proof.Machine
end

