-- ==== Sys2Proof/Machine/Csr.lean ====
section
/-! DEFINITION. The control and status registers and CSR_READ (spec/10_state.md R33-R44, spec/30_encoding.md R90). -/

namespace Sys2Proof.Machine

/-- MODE's bit in CONFIG0 (R34). -/
def modeBit : Mode → BitVec 1
  | .sequential => 0
  | .parallel => 1

/-- CONFIG0 (R34), its fields from bit 63 down to bit 0. -/
def config0Word (c : Config) : Word :=
  0#6 ++ (BitVec.ofBool c.part ++ (modeBit c.mode ++ (BitVec.ofNat 8 c.rounds ++ (0#7 ++
    (BitVec.ofNat 9 c.m ++ (BitVec.ofNat 8 c.wrBits ++ (BitVec.ofNat 8 c.wc ++
      (BitVec.ofNat 8 c.w ++ c.engine.code))))))))

/-- CONFIG1 (R35): NSTREAMS in bits 31:0, R in bits 47:32, P - 1 in bits 63:48. -/
def config1Word (c : Config) : Word :=
  BitVec.ofNat 16 (c.p - 1) ++ (BitVec.ofNat 16 c.bufLen ++ BitVec.ofNat 32 c.nstreams)

/-- MAX (R37). -/
def maxWord (c : Config) : Word := BitVec.ofNat 64 (2 ^ c.wrBits - 1)

/-- CURSOR: CUR[s] in bits 11:0 (R42). -/
def cursorWord (sl : Slot) : Word := (BitVec.ofNat 12 sl.cur).setWidth 64

/-- SLOT_STATE: VALID[s] in bit 0 (R43). -/
def slotStateWord (s : State) (k : Nat) : Word := (BitVec.ofBool (s.slot k).isSome).setWidth 64

/-- The checks and the answer of CSR_READ (R90): no state changes. -/
def csrReadBody (csr : Csr) (slot : BitVec 32) (s : State) : CmdResult :=
  match csr with
  | .config0 => .done s [config0Word s.cfg]
  | .config1 => .done s [config1Word s.cfg]
  | .min => .done s [0]
  | .max => .done s [maxWord s.cfg]
  | .status => .done s [statusWord s s.serving]
  | .faultInfo => .done s [s.faultInfo]
  | .faultLoc => .done s [s.faultLoc]
  | .probTol => .done s [Config.probTol]
  | .cursor => onValidSlot slot s fun _ sl => .done s [cursorWord sl]
  | .slotState => onSlot slot s fun k => .done s [slotStateWord s k]

/-- CSR_READ (R90). -/
def execCsrRead (csr : Csr) (slot : BitVec 32) (s : State) : Host.Outcome State Fault Refusal :=
  perform (.csrRead csr slot) (csrReadBody csr slot) s

end Sys2Proof.Machine
end

