-- ==== Sys2Proof/Machine/Float.lean ====
section
/-! DEFINITION. IEEE 754 binary64 as spec/00_scope.md R10 and R11 use it: the value of a bit pattern, one operation rounded to
nearest, ties to even, comparison, floor and conversion from an integer. -/

namespace Sys2Proof

/-- A binary64 value. Every finite one is an integer number of units of 2^-1074, so `fin neg mag` is
`(-1)^neg * mag * 2^-1074`. All NaNs are one value: no rule lets a NaN's bits be seen (assumption log 20, safe). -/
inductive F64 where
  | nan
  | inf (neg : Bool)
  | fin (neg : Bool) (mag : Nat)
deriving DecidableEq, Repr

namespace F64

/-- 1.0 in units. -/
def unit : Nat := 2 ^ 1074

/-- +0.0. -/
def zero : F64 := fin false 0

/-- 1.0. -/
def one : F64 := fin false unit

/-- `f64(x)`: the value of a bit pattern (R10). -/
def ofBits (x : Word) : F64 :=
  let neg := x.msb
  let e := (x.toNat / 2 ^ 52) % 2 ^ 11
  let f := x.toNat % 2 ^ 52
  if e = 0x7FF then (if f = 0 then inf neg else nan)
  else if e = 0 then fin neg f
  else fin neg ((2 ^ 52 + f) * 2 ^ (e - 1))

/-- `bits64(d)`: the bit pattern of a value (R10); a NaN gives the quiet one with sign 0. -/
def toBits : F64 → Word
  | nan => 0x7FF8000000000000
  | inf neg => if neg then 0xFFF0000000000000 else 0x7FF0000000000000
  | fin neg mag =>
    let sign := if neg then 2 ^ 63 else 0
    let sh := Nat.log2 mag - 52
    let body := if mag < 2 ^ 52 then mag else (sh + 1) * 2 ^ 52 + (mag / 2 ^ sh - 2 ^ 52)
    BitVec.ofNat 64 (sign + body)

/-- The number of units nearest to `num / den` units that has at most 53 significant bits, ties to the even significand, the
exponent not bounded above (R11). -/
def roundUnits (num den : Nat) : Nat :=
  let q := num / den
  let sh := if q < 2 ^ 53 then 0 else Nat.log2 q - 52
  let d := den * 2 ^ sh
  let k := num / d
  let rest := num % d
  let k' := if d < 2 * rest ∨ (2 * rest = d ∧ k % 2 = 1) then k + 1 else k
  k' * 2 ^ sh

/-- A rounded magnitude with a sign; 2^1024 and above overflow to infinity. -/
def ofUnits (neg : Bool) (units : Nat) : F64 :=
  if units < 2 ^ 2098 then fin neg units else inf neg

/-- The sign bit flipped. -/
def negate : F64 → F64
  | nan => nan
  | inf neg => inf (!neg)
  | fin neg mag => fin (!neg) mag

/-- `a +. b` (R10). -/
def add : F64 → F64 → F64
  | nan, _ => nan
  | _, nan => nan
  | inf a, inf b => if a = b then inf a else nan
  | inf a, fin _ _ => inf a
  | fin _ _, inf b => inf b
  | fin a x, fin b y =>
    if a = b then ofUnits a (roundUnits (x + y) 1)
    else if x = y then zero
    else if y < x then ofUnits a (roundUnits (x - y) 1)
    else ofUnits b (roundUnits (y - x) 1)

/-- `a -. b` (R10). -/
def sub (a b : F64) : F64 := add a (negate b)

/-- `a *. b` (R10). -/
def mul : F64 → F64 → F64
  | nan, _ => nan
  | _, nan => nan
  | inf a, inf b => inf (a != b)
  | inf a, fin b y => if y = 0 then nan else inf (a != b)
  | fin a x, inf b => if x = 0 then nan else inf (a != b)
  | fin a x, fin b y => ofUnits (a != b) (roundUnits (x * y) unit)

/-- `a /. b` (R10). -/
def div : F64 → F64 → F64
  | nan, _ => nan
  | _, nan => nan
  | inf _, inf _ => nan
  | inf a, fin b _ => inf (a != b)
  | fin a _, inf b => fin (a != b) 0
  | fin a x, fin b y =>
    if y = 0 then (if x = 0 then nan else inf (a != b))
    else ofUnits (a != b) (roundUnits (x * unit) y)

/-- Whether the value is NaN. -/
def isNan : F64 → Bool
  | nan => true
  | _ => false

/-- A finite value's signed number of units. -/
def signed (neg : Bool) (mag : Nat) : Int := if neg then -(mag : Int) else mag

/-- `a < b`; false when either is NaN, and -0 is not below +0. -/
def lt : F64 → F64 → Bool
  | nan, _ => false
  | _, nan => false
  | inf a, inf b => a && !b
  | inf a, fin _ _ => a
  | fin _ _, inf b => !b
  | fin a x, fin b y => decide (signed a x < signed b y)

/-- `a <= b` for values that are not NaN; false when either is NaN. -/
def le (a b : F64) : Bool := !a.isNan && !b.isNan && !lt b a

/-- Whether the value is +0 or -0. -/
def isZero : F64 → Bool
  | fin _ mag => decide (mag = 0)
  | _ => false

/-- The binary64 value of a non-negative integer, exact up to 2^53 (R11). -/
def ofNat (n : Nat) : F64 := ofUnits false (roundUnits (n * unit) 1)

end F64

end Sys2Proof
end

