-- ==== Sys2Proof/Machine/Draws.lean ====
section
/-! DEFINITION. The draws of RESAMPLE (spec/44_resample.md R202-R204): the parameters U01Draw and BinomDraw with their laws built
in, and what a draw does to the slots. -/

namespace Sys2Proof.Machine

/-- Draw algorithms as functions of a slot's registers: `u01` gives a variate's bit pattern and the number of NEXTs it takes,
`binom` those of a Binomial(n, p) variate. -/
structure Draws where
  u01   : Slot → Word × Nat
  binom : Slot → (n : Nat) → (p : F64) → Nat × Nat

/-- U01Draw's bit pattern: any binary64 `u` with `0 <= u < 1` (R203). -/
def u01Bits (c : Config) (sl : Slot) : Word :=
  let i := (c.u01Index sl.key sl.ctr sl.buf sl.cur).val
  if i = 0x3FF0000000000000 then 0x8000000000000000 else BitVec.ofNat 64 i

/-- BinomDraw's variate: `k` with `0 <= k <= n`; 0 where p = 0 and n where p = 1 (R204). -/
def binomVariate (c : Config) (sl : Slot) (n : Nat) (p : F64) : Nat :=
  if p.isZero then 0
  else if p = F64.one then n
  else (c.binomIndex sl.key sl.ctr sl.buf sl.cur n p.toBits).val

/-- The draw algorithms of an instance (R203, R204; assumption log 4 and 5). -/
def Draws.ofInstance (c : Config) : Draws where
  u01 sl := (u01Bits c sl, c.u01ExtraNexts sl.key sl.ctr sl.buf sl.cur + 1)
  binom sl n p := (binomVariate c sl n p, c.binomNexts sl.key sl.ctr sl.buf sl.cur n p.toBits)

/-- `stream_of(i)` (R202): the index has a stream, which RESAMPLE's slot checks ensure. -/
def streamOf (c : Config) (i : Nat) : Nat :=
  match c.mode with
  | .sequential => 0
  | .parallel => i

/-- `U01Draw(s)`: the variate and the slots after it (R203). The case of an unconstructed slot cannot arise after
RESAMPLE's slot checks. -/
def u01Draw (c : Config) (d : Draws) (s : Nat) (slots : List (Option Slot)) : F64 × List (Option Slot) :=
  match slots.getD s none with
  | some sl => (F64.ofBits (d.u01 sl).1, slots.set s (some (nextTimes c (d.u01 sl).2 sl)))
  | none => (F64.zero, slots)

/-- `BinomDraw(s, n, p)`: the variate and the slots after it (R204). The case of an unconstructed slot cannot arise after
RESAMPLE's slot checks. -/
def binomDraw (c : Config) (d : Draws) (s n : Nat) (p : F64) (slots : List (Option Slot)) :
    Nat × List (Option Slot) :=
  match slots.getD s none with
  | some sl => ((d.binom sl n p).1, slots.set s (some (nextTimes c (d.binom sl n p).2 sl)))
  | none => (0, slots)

end Sys2Proof.Machine
end

