-- ==== Sys2Proof/Machine/Policy.lean ====
section
/-! DEFINITION. The resampling policies (spec/44_resample.md R210-R225) as functions of the weights and the slots. N is the length
of the weight list. -/

namespace Sys2Proof.Machine

/-- A cause raised by a policy, with its information value as an integer and whether a draw had been made (R235). -/
structure PolicyFault where
  cause : Cause
  info  : Nat
  drawn : Bool
deriving DecidableEq, Repr

/-- What a policy answers: the replication counts and the slots after its draws. -/
abbrev PolicyResult := Except PolicyFault (List Nat × List (Option Slot))

/-! ### The shared primitive (R210-R213) -/

/-- `Clamp(p, i)`: none where it raises ProbOutOfRange (R211). -/
def clamp (p : F64) : Option F64 :=
  let tol := F64.ofBits Config.probTol
  if p.isNan || F64.lt p tol.negate || F64.lt (F64.add F64.one tol) p then none
  else if F64.lt p F64.zero then some F64.zero
  else if F64.lt F64.one p then some F64.one
  else some p

/-- A policy's answer with `k` as the count of the particle before. -/
def PolicyResult.push (k : Nat) : PolicyResult → PolicyResult
  | .ok (rep, slots) => .ok (k :: rep, slots)
  | .error f => .error f

/-- The loop of `Primitive(L, S, v)` from index `i` on, with the accumulated mass and count (R210), and its sum check
(R212). -/
def primitiveFrom (c : Config) (d : Draws) (S : Nat) :
    (v : List F64) → (i : Nat) → (accW : F64) → (accS : Nat) → (drawn : Bool) →
    (slots : List (Option Slot)) → PolicyResult
  | [], _, _, accS, drawn, slots =>
    if accS = S then .ok ([], slots) else .error ⟨.sumMismatch, accS, drawn⟩
  | v :: vs, i, accW, accS, drawn, slots =>
    if accS < S ∧ F64.lt F64.zero v = true then
      match clamp (F64.div v (F64.sub F64.one accW)) with
      | none => .error ⟨.probOutOfRange, i, drawn⟩
      | some p =>
        let (k, slots') := binomDraw c d (streamOf c i) (S - accS) p slots
        PolicyResult.push k
          (primitiveFrom c d S vs (i + 1) (F64.add accW v) (accS + k) true slots')
    else PolicyResult.push 0 (primitiveFrom c d S vs (i + 1) (F64.add accW v) accS drawn slots)

/-- `Primitive(L, S, v)` (R210). -/
def primitive (c : Config) (d : Draws) (S : Nat) (v : List F64) (slots : List (Option Slot)) : PolicyResult :=
  primitiveFrom c d S v 0 F64.zero 0 false slots

/-! ### The residual split (R216, R217) -/

/-- `t <- f64(N) *. w[i]` (R216). -/
def scaled (N : Nat) (w : F64) : F64 := F64.mul (F64.ofNat N) w

/-- `g[i] <- floor(t)` (R216). Where the product overflows binary64, `floor` has no value in R10; R232 bounds g[i] below by the
exact floor of N * w[i], which is above N, so SumMismatch follows whatever it is (assumption log 8). -/
def guaranteed (N : Nat) (w : F64) : Nat :=
  match scaled N w, w with
  | .fin _ mag, _ => mag / F64.unit
  | _, .fin _ mag => N * mag / F64.unit
  | _, _ => 0

/-- `r[i] <- t -. f64(g[i])` (R216). -/
def residue (N : Nat) (w : F64) : F64 := F64.sub (scaled N w) (F64.ofNat (guaranteed N w))

/-- `tot`, summed left to right (R217). -/
def total (r : List F64) : F64 := r.foldl F64.add F64.zero

/-- A residual policy (R218, R224, R225): Split, then `inner` on the normalised residues with S draws, then the guaranteed copies
added back. -/
def residualPolicy (inner : (S : Nat) → List F64 → List (Option Slot) → PolicyResult)
    (w : List F64) (slots : List (Option Slot)) : PolicyResult :=
  let N := w.length
  let g := w.map (guaranteed N)
  let r := w.map (residue N)
  let G := g.sum
  if N < G then .error ⟨.sumMismatch, G, false⟩
  else if N - G = 0 then .ok (g, slots)
  else
    let tot := total r
    if tot.isZero then .error ⟨.sumMismatch, G, false⟩
    else
      match inner (N - G) (r.map fun x => F64.div x tot) slots with
      | .ok (rp, slots') => .ok (List.zipWith (· + ·) g rp, slots')
      | .error f => .error f

/-! ### Strata and the scan (R220, R221) -/

/-- `(f64(j) +. u) /. f64(K)` (R220). -/
def position (K j : Nat) (u : F64) : F64 := F64.div (F64.add (F64.ofNat j) u) (F64.ofNat K)

/-- `StratPos(K)` for the strata from `j` on: one draw from stream_of(j) each, in order (R220). -/
def stratPosFrom (c : Config) (d : Draws) (K : Nat) :
    (count : Nat) → (j : Nat) → List (Option Slot) → List F64 × List (Option Slot)
  | 0, _, slots => ([], slots)
  | count + 1, j, slots =>
    let (u, slots1) := u01Draw c d (streamOf c j) slots
    let (rest, slots2) := stratPosFrom c d K count (j + 1) slots1
    (position K j u :: rest, slots2)

/-- `StratPos(K)` (R220). -/
def stratPos (c : Config) (d : Draws) (K : Nat) (slots : List (Option Slot)) : List F64 × List (Option Slot) :=
  stratPosFrom c d K K 0 slots

/-- `SysPos(K)`: one draw from stream_of(0) (R220). -/
def sysPos (c : Config) (d : Draws) (K : Nat) (slots : List (Option Slot)) : List F64 × List (Option Slot) :=
  let (u, slots') := u01Draw c d (streamOf c 0) slots
  ((List.range K).map fun j => position K j u, slots')

/-- The scan of R221 from a particle whose cumulative weight is `cw`, `vs` the weights after it, `pos` the positions not yet
placed: the positions before the first one not below `cw` fall in the particle; the last particle takes the rest. -/
def scanFrom : (cw : F64) → (vs : List F64) → (pos : List F64) → List Nat
  | _, [], pos => [pos.length]
  | cw, v :: vs, pos =>
    (pos.takeWhile fun x => F64.lt x cw).length ::
      scanFrom (F64.add cw v) vs (pos.dropWhile fun x => F64.lt x cw)

/-- `Scan(L, K, v, pos)` (R221). -/
def scan (v pos : List F64) : List Nat :=
  match v with
  | [] => []
  | v0 :: vs => scanFrom v0 vs pos

/-- Scan of the positions a rule of R220 gives. -/
def scanPolicy (positions : List F64 × List (Option Slot)) (v : List F64) : PolicyResult :=
  .ok (scan v positions.1, positions.2)

/-! ### The six policies -/

/-- MULTINOMIAL (R215). -/
def policyMultinomial (c : Config) (d : Draws) (w : List F64) (slots : List (Option Slot)) : PolicyResult :=
  primitive c d w.length w slots

/-- RESIDUAL (R218). -/
def policyResidual (c : Config) (d : Draws) (w : List F64) (slots : List (Option Slot)) : PolicyResult :=
  residualPolicy (fun S rw sl => primitive c d S rw sl) w slots

/-- STRATIFIED (R222). -/
def policyStratified (c : Config) (d : Draws) (w : List F64) (slots : List (Option Slot)) : PolicyResult :=
  scanPolicy (stratPos c d w.length slots) w

/-- SYSTEMATIC (R223). -/
def policySystematic (c : Config) (d : Draws) (w : List F64) (slots : List (Option Slot)) : PolicyResult :=
  scanPolicy (sysPos c d w.length slots) w

/-- RESIDUAL_STRATIFIED (R224). -/
def policyResidualStratified (c : Config) (d : Draws) (w : List F64) (slots : List (Option Slot)) :
    PolicyResult :=
  residualPolicy (fun S rw sl => scanPolicy (stratPos c d S sl) rw) w slots

/-- RESIDUAL_SYSTEMATIC (R225). -/
def policyResidualSystematic (c : Config) (d : Draws) (w : List F64) (slots : List (Option Slot)) :
    PolicyResult :=
  residualPolicy (fun S rw sl => scanPolicy (sysPos c d S sl) rw) w slots

end Sys2Proof.Machine
end

