-- ==== Sys2Proof/Machine/Resample.lean ====
section
/-! DEFINITION. RESAMPLE (spec/44_resample.md R200-R235): its slot, memory and weight checks, the state an aborted policy leaves,
and the six commands. -/

namespace Sys2Proof.Machine

/-- The largest number of `UsedSlots(N)` plus one: 1 in SEQUENTIAL mode, N in PARALLEL mode (R200). -/
def usedSlots (c : Config) (N : Nat) : Nat :=
  match c.mode with
  | .sequential => 1
  | .parallel => N

/-- The slot checks (R200, R202). -/
def slotCheck (s : State) (N : Nat) : Option Raise :=
  if s.cfg.mode = .parallel ∧ s.cfg.nstreams < N then
    some ⟨.badSlot, BitVec.ofNat 64 s.cfg.nstreams⟩
  else
    firstFrom (usedSlots s.cfg N) 0 fun k =>
      match s.slot k with
      | some _ => none
      | none => some ⟨.uninitialised, BitVec.ofNat 64 k⟩

/-- Whether the 8 bytes at the exact address `a` fit in 64 bits and are all admitted (spec/20_memory.md R51, R55). -/
def reachable (c : Config) (a : Nat) : Bool :=
  decide (a + 7 < 2 ^ 64) && (List.range 8).all fun k => c.admits (a + k)

/-- The first element that does not fit or is not admitted (spec/20_memory.md R51, R55). -/
def busCheck (c : Config) (f : Footprint) : Option Raise :=
  firstFrom f.n 0 fun i =>
    if reachable c (f.elem i) then none else some ⟨.busError, BitVec.ofNat 64 (f.elem i)⟩

/-- The lowest byte the footprints share (spec/20_memory.md R63). -/
def overlapCheck (w r : Footprint) : Option Raise :=
  firstFrom w.n 0 fun i =>
    firstFrom 8 (w.elem i) fun a =>
      if r.contains a then some ⟨.bufferOverlap, BitVec.ofNat 64 a⟩ else none

/-- The memory checks in their order (R200). -/
def memoryCheck (c : Config) (o : ResampleOps) : Option Raise :=
  if o.wbase.toNat % 8 ≠ 0 then some ⟨.misaligned, o.wbase⟩
  else if o.rbase.toNat % 8 ≠ 0 then some ⟨.misaligned, o.rbase⟩
  else
    match busCheck c (weightFoot o) with
    | some r => some r
    | none =>
      match busCheck c (countFoot o) with
      | some r => some r
      | none => overlapCheck (weightFoot o) (countFoot o)

/-- The weights, `w[i] <- f64(MemRead(wa(i), 8))` (R200). -/
def readWeights (m : Memory) (f : Footprint) : List F64 :=
  (List.range f.n).map fun i => F64.ofBits (m.readWord (BitVec.ofNat 64 (f.elem i)))

/-- Whether a weight is not valid: NaN, below zero, or +inf (R205). -/
def weightBad (w : F64) : Bool := w.isNan || F64.lt w F64.zero || decide (w = .inf false)

/-- The first weight that is not valid, counting from `i` (R205). -/
def weightCheckFrom : (i : Nat) → List F64 → Option Raise
  | _, [] => none
  | i, w :: ws => if weightBad w then some ⟨.badWeight, BitVec.ofNat 64 i⟩ else weightCheckFrom (i + 1) ws

/-- The replication counts written from element `i` on, `MemWrite(ra(i), 8, rep[i])` (R200). -/
def writeCounts (f : Footprint) : (i : Nat) → List Nat → Memory → Memory
  | _, [], m => m
  | i, k :: ks, m => writeCounts f (i + 1) ks (m.writeWord (BitVec.ofNat 64 (f.elem i)) k)

/-- Every check of R200 before the policy, in order, for N > 0; none where they all pass. -/
def resampleCheck (o : ResampleOps) (s : State) : Option Raise :=
  match slotCheck s o.n.toNat with
  | some r => some r
  | none =>
    match memoryCheck s.cfg o with
    | some r => some r
    | none => weightCheckFrom 0 (readWeights s.mem (weightFoot o))

/-! ### The state an aborted policy leaves (R235) -/

/-- The registers of slot `k` after an abort: any value of each register's shape, the cursor at most R (R235, U5; assumption
log 6). -/
def freeSlot (c : Config) (use k : Nat) : Slot where
  key := (List.range c.kw).map fun i => c.toNative (c.freeSlotWord use k 0 i)
  ctr := (List.range c.m).map fun b =>
    (List.range c.w).map fun i => c.toNative (c.freeSlotWord use k (2 + b) i)
  buf := (List.range c.bufLen).map fun i =>
    BitVec.ofNat 64 ((c.freeSlotWord use k 1 i).toNat % 2 ^ c.wrBits)
  cur := (c.freeCursor use k c.bufLen).val

/-- The slots below `count` hold any value; they stay constructed. -/
def freeSlots (c : Config) (use : Nat) : (count : Nat) → List (Option Slot) → List (Option Slot)
  | 0, slots => slots
  | count + 1, slots => (freeSlots c use count slots).set count (some (freeSlot c use count))

/-- The 8 bytes of an element hold any value. -/
def freeElem (c : Config) (use : Nat) (a : Word) (m : Memory) : Memory :=
  m.write a ((List.range 8).map fun k => c.freeByte use (a + BitVec.ofNat 64 k))

/-- The bytes of the first `count` elements hold any value. -/
def freeElems (c : Config) (use : Nat) (f : Footprint) : (count : Nat) → Memory → Memory
  | 0, m => m
  | count + 1, m => freeElem c use (BitVec.ofNat 64 (f.elem count)) (freeElems c use f count m)

/-- The state after a policy raised a cause: as it was if no draw had been made, else the used slots and the replication bytes
hold any value (R235). -/
def abortedState (o : ResampleOps) (f : PolicyFault) (s : State) : State :=
  if f.drawn then
    { s with
      slots := freeSlots s.cfg s.freeCount (usedSlots s.cfg o.n.toNat) s.slots
      mem := freeElems s.cfg s.freeCount (countFoot o) o.n.toNat s.mem
      freeCount := s.freeCount + 1 }
  else s

/-- A policy's fault as the command raises it. A sum of 2^64 or more does not fit FAULT_INFO, whose value is then free
(assumption log 7). -/
def abort (o : ResampleOps) (f : PolicyFault) (s : State) : CmdResult :=
  let s' := abortedState o f s
  if f.info < 2 ^ 64 then .raised ⟨f.cause, BitVec.ofNat 64 f.info⟩ s'
  else .raised ⟨f.cause, s.cfg.freeInfo s'.freeCount⟩ { s' with freeCount := s'.freeCount + 1 }

/-! ### The command (R200) -/

/-- A policy: a function of the instance, its draws, the weights and the slots. -/
abbrev Policy := Config → Draws → List F64 → List (Option Slot) → PolicyResult

/-- The policy's answer on a state: its weights read from memory, its draws the instance's. -/
def policyOn (policy : Policy) (o : ResampleOps) (s : State) : PolicyResult :=
  policy s.cfg (Draws.ofInstance s.cfg) (readWeights s.mem (weightFoot o)) s.slots

/-- The checks and effects of RESAMPLE with a policy (R200). -/
def resampleBody (policy : Policy) (o : ResampleOps) (s : State) : CmdResult :=
  match operandCheck o with
  | some r => .raised r s
  | none =>
    if o.n = 0 then .done s []
    else
      match resampleCheck o s with
      | some r => .raised r s
      | none =>
        match policyOn policy o s with
        | .ok (rep, slots) =>
          .done { s with slots := slots, mem := writeCounts (countFoot o) 0 rep s.mem } []
        | .error f => abort o f s

/-- RESAMPLE, MULTINOMIAL (R200, R215). -/
def execResampleMultinomial (o : ResampleOps) (s : State) : Host.Outcome State Fault Refusal :=
  perform (.resampleMultinomial o) (resampleBody policyMultinomial o) s

/-- RESAMPLE, RESIDUAL (R200, R218). -/
def execResampleResidual (o : ResampleOps) (s : State) : Host.Outcome State Fault Refusal :=
  perform (.resampleResidual o) (resampleBody policyResidual o) s

/-- RESAMPLE, STRATIFIED (R200, R222). -/
def execResampleStratified (o : ResampleOps) (s : State) : Host.Outcome State Fault Refusal :=
  perform (.resampleStratified o) (resampleBody policyStratified o) s

/-- RESAMPLE, SYSTEMATIC (R200, R223). -/
def execResampleSystematic (o : ResampleOps) (s : State) : Host.Outcome State Fault Refusal :=
  perform (.resampleSystematic o) (resampleBody policySystematic o) s

/-- RESAMPLE, RESIDUAL_STRATIFIED (R200, R224). -/
def execResampleResidualStratified (o : ResampleOps) (s : State) : Host.Outcome State Fault Refusal :=
  perform (.resampleResidualStratified o) (resampleBody policyResidualStratified o) s

/-- RESAMPLE, RESIDUAL_SYSTEMATIC (R200, R225). -/
def execResampleResidualSystematic (o : ResampleOps) (s : State) : Host.Outcome State Fault Refusal :=
  perform (.resampleResidualSystematic o) (resampleBody policyResidualSystematic o) s

end Sys2Proof.Machine
end

