-- ==== Sys2Proof/Machine/StreamCommands.lean ====
section
/-! DEFINITION. The stream commands (spec/43_stream.md R170-R186) and TRANSFORM (spec/42_engine.md R131). -/

namespace Sys2Proof.Machine

/-- KEY_LOAD (R171). -/
def execKeyLoad (slot : BitVec 32) (key : List Word) (s : State) : Host.Outcome State Fault Refusal :=
  perform (.keyLoad slot key) (construct slot key) s

/-- SEED (R172). -/
def execSeed (slot : BitVec 32) (value : Word) (s : State) : Host.Outcome State Fault Refusal :=
  perform (.seed slot value) (fun s => construct slot (s.cfg.keyFromSeed value) s) s

/-- SEEDSEQ (R173). -/
def execSeedSeq (slot : BitVec 32) (values : List Word) (s : State) : Host.Outcome State Fault Refusal :=
  perform (.seedSeq slot values) (fun s => construct slot (s.cfg.keyFromSeedSeq values) s) s

/-- The slots SEED_ALL constructs (R181). -/
def seededSlots (c : Config) (value : Word) (slots : List (Option Slot)) : List (Option Slot) :=
  match c.mode with
  | .sequential => slots.set 0 (some (constructed c (c.keyFromSeed value)))
  | .parallel =>
    (List.range c.nstreams).map fun k => some (constructed c (c.keyFromSeed (c.seedOfStream value k)))

/-- SEED_ALL (R181). -/
def execSeedAll (value : Word) (s : State) : Host.Outcome State Fault Refusal :=
  perform (.seedAll value)
    (fun s => .done { s with slots := seededSlots s.cfg value s.slots } []) s

/-- TRANSFORM (R131): no state changes. -/
def execTransform (slot : BitVec 32) (block : List Word) (s : State) : Host.Outcome State Fault Refusal :=
  perform (.transform slot block)
    (fun s => onValidSlot slot s fun _ sl => .done s (engineWords s.cfg sl.key block)) s

/-- NEXT (R174). -/
def execNext (slot : BitVec 32) (s : State) : Host.Outcome State Fault Refusal :=
  perform (.next slot)
    (fun s => onValidSlot slot s fun k sl =>
      .done (s.setSlot k (nextSlot s.cfg sl)) [nextWord s.cfg sl]) s

/-- DISCARD (R176), in the closed form R177 allows. -/
def execDiscard (slot : BitVec 32) (n : Word) (s : State) : Host.Outcome State Fault Refusal :=
  perform (.discard slot n)
    (fun s => onValidSlot slot s fun k sl => .done (s.setSlot k (discardSlot s.cfg n.toNat sl)) []) s

end Sys2Proof.Machine
end

