-- ==== Sys2Proof/Machine/Dispatch.lean ====
section
/-! DEFINITION. The meaning of each command: one arm per constructor of Instr, each a definition of its own. -/

namespace Sys2Proof.Machine

def exec (i : Instr) (s : State) : Host.Outcome State Fault Refusal :=
  match i with
  | .csrRead csr slot => Sys2Proof.Machine.execCsrRead csr slot s
  | .ctrZero slot => Sys2Proof.Machine.execCtrZero slot s
  | .ctrInc slot => Sys2Proof.Machine.execCtrInc slot s
  | .ctrAdd slot n => Sys2Proof.Machine.execCtrAdd slot n s
  | .ctrLoad slot words => Sys2Proof.Machine.execCtrLoad slot words s
  | .ctrRead slot block => Sys2Proof.Machine.execCtrRead slot block s
  | .keyLoad slot key => Sys2Proof.Machine.execKeyLoad slot key s
  | .transform slot block => Sys2Proof.Machine.execTransform slot block s
  | .seed slot value => Sys2Proof.Machine.execSeed slot value s
  | .seedSeq slot values => Sys2Proof.Machine.execSeedSeq slot values s
  | .seedAll value => Sys2Proof.Machine.execSeedAll value s
  | .next slot => Sys2Proof.Machine.execNext slot s
  | .discard slot n => Sys2Proof.Machine.execDiscard slot n s
  | .resampleMultinomial o => Sys2Proof.Machine.execResampleMultinomial o s
  | .resampleResidual o => Sys2Proof.Machine.execResampleResidual o s
  | .resampleStratified o => Sys2Proof.Machine.execResampleStratified o s
  | .resampleSystematic o => Sys2Proof.Machine.execResampleSystematic o s
  | .resampleResidualStratified o => Sys2Proof.Machine.execResampleResidualStratified o s
  | .resampleResidualSystematic o => Sys2Proof.Machine.execResampleResidualSystematic o s

end Sys2Proof.Machine
end

