-- ==== Sys2Proof/Machine/Step.lean ====
section
/-! DEFINITION. One step of the machine: the next pending move of the outside world, or, when none is pending, the completion of a
command in flight (spec/60_exceptions.md R250-R254, spec/70_reset_and_hazards.md R270). -/

namespace Sys2Proof.Machine

/-- The completion step of requester `q`'s command (R252): the command its message decodes to is performed; a message that
fails a decoding check raises its cause. -/
def completeStep (q : Nat) (s : State) : Host.Outcome State Fault Refusal :=
  match s.inflight[q]? with
  | none => .fault .noSuchRequester
  | some none => .fault .nothingInFlight
  | some (some c) =>
    match decode s.cfg c.msg with
    | .ok i => exec i (serve q s)
    | .error r => .next (rejectMessage c.msg r (serve q s))

/-- One step. -/
def step (s : State) : Host.Outcome State Fault Refusal :=
  match s.inputs with
  | .issue q msg :: rest => issueStep q msg (s.withInputs rest)
  | .complete q :: rest => completeStep q (s.withInputs rest)
  | .hostRead q addr len :: rest => hostReadStep q addr len (s.withInputs rest)
  | .hostWrite q addr bytes :: rest => hostWriteStep q addr bytes (s.withInputs rest)
  | .reset :: rest => .next (resetUnit (s.withInputs rest))
  | [] =>
    match firstInFlight s with
    | some q => completeStep q s
    | none => .next s

/-- The state in which the next step completes, for requester 0, the command whose bits are `w`, of which the opcode table gives
`nbits`: its message is in flight as its issue step records it, and its completion is the next move. -/
def State.withFetchWord (s : State) (nbits w : Nat) : State :=
  { s with
    inflight := s.inflight.set 0 (some (inFlightOf s.cfg (tableMessage s.cfg nbits w)))
    inputs := .complete 0 :: s.inputs }

end Sys2Proof.Machine
end

