-- ==== Sys2Proof/Safety.lean ====
section
/-! DEFINITION. What the statements about the unit are made of: the invariants of spec/10_state.md R30, the launch and end of a run
(spec/70_reset_and_hazards.md R272, R273), the hypothesis on seeds (spec/43_stream.md R184), and what it means that a command
completed or faulted (spec/30_encoding.md R76, spec/60_exceptions.md R241). -/

namespace Sys2Proof.Machine

/-! ### Slots (R24-R30) -/

/-- A slot's registers have the sizes of R24-R27, and its cursor is at most R (R30 item 1). -/
structure SlotShaped (c : Config) (sl : Slot) : Prop where
  keyLength  : sl.key.length = c.kw
  keyNative  : ∀ v ∈ sl.key, v.toNat < 2 ^ c.wc
  ctrLength  : sl.ctr.length = c.m
  ctrBlocks  : ∀ block ∈ sl.ctr, block.length = c.w ∧ ∀ v ∈ block, v.toNat < 2 ^ c.wc
  bufLength  : sl.buf = [] ∨ sl.buf.length = c.bufLen
  bufWords   : ∀ v ∈ sl.buf, v.toNat < 2 ^ c.wrBits
  curBound   : sl.cur ≤ c.bufLen

/-- R30 items 2 and 3: every block has its field and the common arithmetic part, and an unexhausted buffer is the transform of the
counter. -/
structure SlotCoherent (c : Config) (sl : Slot) : Prop where
  sameArith : ∀ b, b < c.m → c.arith (sl.ctr.getD b []) = c.arith (sl.ctr.getD 0 [])
  fields    : c.part = true → ∀ b, b < c.m → c.field (sl.ctr.getD b []) = b
  filled    : sl.cur < c.bufLen → sl.buf = fill c sl.key sl.ctr

/-- Every constructed slot has its shape (R30 item 1). -/
def SlotsShaped (s : State) : Prop := ∀ k sl, s.slot k = some sl → SlotShaped s.cfg sl

/-- Every constructed slot is coherent (R30 items 2 and 3). -/
def SlotsCoherent (s : State) : Prop := ∀ k sl, s.slot k = some sl → SlotCoherent s.cfg sl

/-- There are NSTREAMS slots and P requesters (R23, R45). -/
structure SizesRight (s : State) : Prop where
  slots    : s.slots.length = s.cfg.nstreams
  inflight : s.inflight.length = s.cfg.p

/-- While STATUS.FAULT = 0 the record reads 0 (R38-R40). -/
def RecordClear (s : State) : Prop :=
  s.statusFault = false → s.statusCause = 0 ∧ s.faultInfo = 0 ∧ s.faultLoc = 0

/-- Every in-flight record is what the issue step makes of its message, and while STATUS.FAULT = 0 no two of them share a slot
(R182, R183, R251). -/
structure InFlightDisjoint (s : State) : Prop where
  recorded : ∀ q c, s.inFlight q = some c → c = inFlightOf s.cfg c.msg
  disjoint : s.statusFault = false → ∀ q q' c c', q ≠ q' → s.inFlight q = some c →
    s.inFlight q' = some c' → c.held.shared c'.held = none

/-! ### Runs (R272, R273) -/

/-- `CleanLaunch(V)`: no fault recorded, nothing in flight, every slot invalid or as V gives it, V satisfying R30 (R272). -/
structure CleanLaunch (V : List (Option Slot)) (s : State) : Prop where
  noFault    : s.statusFault = false
  noCause    : s.statusCause = 0
  noInfo     : s.faultInfo = 0
  noLoc      : s.faultLoc = 0
  idle       : ∀ q, s.inFlight q = none
  slotsOfV   : ∀ k sl, s.slot k = some sl →
    V.getD k none = some sl ∧ SlotShaped s.cfg sl ∧ SlotCoherent s.cfg sl

/-- A run has ended: every command of every requester is issued and answered (R273), and no other move is pending. R273 does not say
whether host accesses pending after the last response belong to the run: here they do, the run ends when they are made (DESIGN
CHOICE, assumption log 28). It is a property of the last state alone, so a run that a reset cut short counts as ended too: R273 says
nothing of such a run (DESIGN CHOICE, assumption log 27). -/
def RunEnded (s : State) : Prop := s.inputs = [] ∧ ∀ q, s.inFlight q = none

/-- A faulted run (R273). -/
def FaultedRun (s : State) : Prop := RunEnded s ∧ s.statusFault = true

/-- A successful run (R273). A run whose reset dropped a command or cleared a fault counts as one (DESIGN CHOICE, assumption log 27,
unsafe for a claim that every command of such a run was answered). -/
def SuccessfulRun (s : State) : Prop := RunEnded s ∧ s.statusFault = false

/-- STREAM_DISTINCT, the hypothesis on the seed parameters (R184): a claim that needs distinct keys takes it as a premise. -/
def StreamDistinct (c : Config) : Prop :=
  ∀ v s s', s < c.nstreams → s' < c.nstreams → s ≠ s' →
    c.keyFromSeed (c.seedOfStream v s) ≠ c.keyFromSeed (c.seedOfStream v s')

/-! ### The outcome of one command -/

/-- What no command but a fault changes besides its own effect: the parameters, the moves to come, the fault record. -/
structure Framed (s t : State) : Prop where
  cfg         : t.cfg = s.cfg
  inputs      : t.inputs = s.inputs
  serving     : t.serving = s.serving
  freeCount   : t.freeCount = s.freeCount
  statusFault : t.statusFault = s.statusFault
  statusCause : t.statusCause = s.statusCause
  faultInfo   : t.faultInfo = s.faultInfo
  faultLoc    : t.faultLoc = s.faultLoc

/-- Command `i` of the requester being served completed with the data words (R76, R252): RESULT 0, nothing in flight for the
requester, and the frame; what it does to slots and memory is said apart. -/
structure Completed (i : Instr) (data : List Word) (s t : State) : Prop where
  response : t.outputs = .response s.serving (responseWord 0 i.opcode.code :: data) :: s.outputs
  inflight : t.inflight = s.inflight.set s.serving none
  frame    : Framed s t

/-- Every byte of host memory reads as before. -/
def MemorySame (s t : State) : Prop := ∀ a : Word, t.readByte a = s.readByte a

/-- Every slot is as before. -/
def SlotsSame (s t : State) : Prop := ∀ k, t.slot k = s.slot k

/-- Slot `k` holds `sl` and every other slot is as before. -/
def SlotWritten (k : Nat) (sl : Slot) (s t : State) : Prop :=
  t.slot k = some sl ∧ ∀ j, j ≠ k → t.slot j = s.slot j

/-- The first fault, raised by the command with the given OPC and SLOT of the requester being served: recorded, reported, and
precise (R241). -/
structure Faulted (opc : BitVec 8) (slot : BitVec 32) (r : Raise) (s t : State) : Prop where
  response    : t.outputs = .response s.serving [responseWord r.cause.code opc] :: s.outputs
  inflight    : t.inflight = s.inflight.set s.serving none
  statusFault : t.statusFault = true
  statusCause : t.statusCause = r.cause.code
  faultInfo   : t.faultInfo = r.info
  faultLoc    : t.faultLoc = locWord slot s.serving opc
  slots       : t.slots = s.slots
  mem         : t.mem = s.mem
  cfg         : t.cfg = s.cfg
  inputs      : t.inputs = s.inputs
  serving     : t.serving = s.serving
  freeCount   : t.freeCount = s.freeCount

/-- A fault while STATUS.FAULT = 1, raised by the requester being served: reported with its code and no data, and nothing recorded
(R241, R247). -/
structure ReportedOnly (opc : BitVec 8) (cause : Cause) (s t : State) : Prop where
  response : t.outputs = .response s.serving [responseWord cause.code opc] :: s.outputs
  inflight : t.inflight = s.inflight.set s.serving none
  frame    : Framed s t
  slots    : t.slots = s.slots
  mem      : t.mem = s.mem

/-! ### What the issue step records (R251) -/

/-- Slot `k` is one of the held slots. -/
def Held.Has (h : Held) (k : Nat) : Prop := h.lo ≤ k ∧ k < h.hi

/-- The operand checks of a RESAMPLE would pass and its addresses fit in 64 bits (R251, spec/20_memory.md R55). -/
structure FootprintsComputable (o : ResampleOps) : Prop where
  wstride : 0 < o.wstride.toInt
  rstride : 0 < o.rstride.toInt
  nw      : o.nw = o.n
  nrl     : o.nrl = o.n
  nBound  : o.n.toNat < 2 ^ 32
  wfits   : o.n.toNat ≠ 0 → o.wbase.toNat + 8 * (o.n.toNat - 1) * o.wstride.toNat + 7 < 2 ^ 64
  rfits   : o.n.toNat ≠ 0 → o.rbase.toNat + 8 * (o.n.toNat - 1) * o.rstride.toNat + 7 < 2 ^ 64

/-- Byte `a` is one of the 8 bytes of one of `n` elements at `base` (spec/20_memory.md R55). -/
def InElements (base stride n a : Nat) : Prop :=
  ∃ i, i < n ∧ base + 8 * i * stride ≤ a ∧ a < base + 8 * i * stride + 8

/-! ### RESAMPLE (spec/44_resample.md R200) -/

/-- The operand checks pass (R201) and N is not 0. -/
structure OperandsOk (o : ResampleOps) : Prop where
  wstride : 0 < o.wstride.toInt
  rstride : 0 < o.rstride.toInt
  nw      : o.nw = o.n
  nrl     : o.nrl = o.n
  nPos    : 0 < o.n.toNat
  nBound  : o.n.toNat < 2 ^ 32

/-- The slot checks pass (R202). -/
structure StreamsOk (o : ResampleOps) (s : State) : Prop where
  streams : s.cfg.mode = .parallel → o.n.toNat ≤ s.cfg.nstreams
  valid   : ∀ k, k < usedSlots s.cfg o.n.toNat → (s.slot k).isSome = true

/-- Every element of the footprint fits and is admitted (spec/20_memory.md R51, R55). -/
def Reachable (c : Config) (f : Footprint) : Prop := ∀ i, i < f.n → reachable c (f.elem i) = true

/-- The buffers share no byte (spec/20_memory.md R63). -/
def BuffersDisjoint (o : ResampleOps) : Prop :=
  ∀ a, ¬ ((weightFoot o).contains a = true ∧ (countFoot o).contains a = true)

/-- The memory checks pass (spec/20_memory.md R51, R54, R55, R63). -/
structure BuffersOk (o : ResampleOps) (s : State) : Prop where
  walign   : o.wbase.toNat % 8 = 0
  ralign   : o.rbase.toNat % 8 = 0
  wreach   : Reachable s.cfg (weightFoot o)
  rreach   : Reachable s.cfg (countFoot o)
  disjoint : BuffersDisjoint o

/-- The weight of particle `i` as the command reads it. -/
def storedWeight (o : ResampleOps) (s : State) (i : Nat) : F64 :=
  F64.ofBits (s.mem.readWord (BitVec.ofNat 64 ((weightFoot o).elem i)))

/-- The replication count stored for particle `i`. -/
def storedCount (o : ResampleOps) (t : State) (i : Nat) : Nat :=
  (t.mem.readWord (BitVec.ofNat 64 ((countFoot o).elem i))).toNat

/-- Every condition R200 checks before the policy holds, and N is not 0. -/
structure ResampleRunnable (o : ResampleOps) (s : State) : Prop where
  operands : OperandsOk o
  streams  : StreamsOk o s
  buffers  : BuffersOk o s
  weights  : ∀ i, i < o.n.toNat → weightBad (storedWeight o s i) = false

/-- The six RESAMPLE commands with their policies (spec/30_encoding.md R80). -/
def resamplePolicies : List ((ResampleOps → Instr) × Policy) :=
  [(.resampleMultinomial, policyMultinomial), (.resampleResidual, policyResidual),
   (.resampleStratified, policyStratified), (.resampleSystematic, policySystematic),
   (.resampleResidualStratified, policyResidualStratified),
   (.resampleResidualSystematic, policyResidualSystematic)]

/-! ### The literal loops of the spec, for statements that the model's functions equal them -/

/-- The loop of `Scan(L, K, v, pos)` as R221 writes it, with at most `fuel` turns. -/
def scanLoop (L K : Nat) (v pos : List F64) :
    (fuel : Nat) → (j k : Nat) → (cw : F64) → (rep : List Nat) → List Nat
  | 0, _, _, _, rep => rep
  | fuel + 1, j, k, cw, rep =>
    if j < K then
      if k = L - 1 then rep.set (L - 1) (rep.getD (L - 1) 0 + (K - j))
      else if F64.lt (pos.getD j F64.zero) cw then
        scanLoop L K v pos fuel (j + 1) k cw (rep.set k (rep.getD k 0 + 1))
      else scanLoop L K v pos fuel j (k + 1) (F64.add cw (v.getD (k + 1) F64.zero)) rep
    else rep

/-- The loop of `Primitive(L, S, v)` as R210 writes it, from index `i` on with `count` indices to go, and the sum check of R212.
`drawn` is whether a draw has been made (R235). -/
def primitiveLoop (c : Config) (d : Draws) (S : Nat) (v : List F64) :
    (count : Nat) → (i : Nat) → (accW : F64) → (accS : Nat) → (drawn : Bool) → (rep : List Nat) →
    (slots : List (Option Slot)) → PolicyResult
  | 0, _, _, accS, drawn, rep, slots =>
    if accS ≠ S then .error ⟨.sumMismatch, accS, drawn⟩ else .ok (rep, slots)
  | count + 1, i, accW, accS, drawn, rep, slots =>
    let vi := v.getD i F64.zero
    if 0 < (S : Int) - accS ∧ F64.lt F64.zero vi = true then
      match clamp (F64.div vi (F64.sub F64.one accW)) with
      | none => .error ⟨.probOutOfRange, i, drawn⟩
      | some p =>
        let x := binomDraw c d (streamOf c i) (S - accS) p slots
        primitiveLoop c d S v count (i + 1) (F64.add accW vi) (accS + x.1) true (rep.set i x.1) x.2
    else primitiveLoop c d S v count (i + 1) (F64.add accW vi) accS drawn rep slots

/-- `Primitive(L, S, v)` by that loop (R210). -/
def primitiveRule (c : Config) (d : Draws) (S : Nat) (v : List F64) (slots : List (Option Slot)) : PolicyResult :=
  primitiveLoop c d S v v.length 0 F64.zero 0 false (List.replicate v.length 0) slots

/-- `StratPos(K)`: for j = 0, 1, .. a draw from stream_of(j), then the position (R220). -/
def stratLoop (c : Config) (d : Draws) (K : Nat) (slots : List (Option Slot)) : List F64 × List (Option Slot) :=
  (List.range K).foldl
    (fun acc j =>
      let x := u01Draw c d (streamOf c j) acc.2
      (acc.1 ++ [F64.div (F64.add (F64.ofNat j) x.1) (F64.ofNat K)], x.2))
    ([], slots)

/-- `SysPos(K)`: one draw from stream_of(0), then the positions for j = 0, 1, .. (R220). -/
def sysLoop (c : Config) (d : Draws) (K : Nat) (slots : List (Option Slot)) : List F64 × List (Option Slot) :=
  let x := u01Draw c d (streamOf c 0) slots
  ((List.range K).foldl
    (fun pos j => pos ++ [F64.div (F64.add (F64.ofNat j) x.1) (F64.ofNat K)]) [], x.2)

/-- `Scan(L, K, v, pos)` by the loop of R221, as a policy's answer. -/
def scanRule (K : Nat) (positions : List F64 × List (Option Slot)) (v : List F64) : PolicyResult :=
  .ok (scanLoop v.length K v positions.1 (v.length + K + 1) 0 0 (v.getD 0 F64.zero)
    (List.replicate v.length 0), positions.2)

/-- `g` and `r` are what `Split(N, w)` computes from valid weights whose products with N do not overflow (R216): `t` is
`f64(N) *. w[i]`, `g[i]` its floor, `r[i]` is `t -. f64(g[i])`. -/
structure SplitInto (w : List F64) (g : List Nat) (r : List F64) : Prop where
  gLength : g.length = w.length
  rLength : r.length = w.length
  element : ∀ i, i < w.length → weightBad (w.getD i F64.zero) = false ∧ ∃ neg mag,
    F64.mul (F64.ofNat w.length) (w.getD i F64.zero) = .fin neg mag ∧
    g.getD i 0 * F64.unit ≤ mag ∧ mag < (g.getD i 0 + 1) * F64.unit ∧
    r.getD i F64.zero = F64.sub (.fin neg mag) (F64.ofNat (g.getD i 0))

/-- `Inc(C)` word by word (spec/41_counter.md R104). -/
def incWords (c : Config) : List Word → List Word
  | [] => []
  | [x] =>
    if c.part then
      let half := 2 ^ (c.wc - 8)
      [BitVec.ofNat 64 (x.toNat / half * half + (x.toNat % half + 1) % half)]
    else [BitVec.ofNat 64 ((x.toNat + 1) % 2 ^ c.wc)]
  | x :: y :: rest =>
    let x' := (x.toNat + 1) % 2 ^ c.wc
    if x' ≠ 0 then BitVec.ofNat 64 x' :: y :: rest
    else BitVec.ofNat 64 x' :: incWords c (y :: rest)

/-- Increment by one word `n`: word 0 takes the sum modulo 2^WC, and a carry of one goes into word 1 (spec/41_counter.md R105). -/
def addWords (c : Config) (n : Nat) : List Word → List Word
  | [] => []
  | x :: rest =>
    BitVec.ofNat 64 ((x.toNat + n) % 2 ^ c.wc) ::
      (if x.toNat + n < 2 ^ c.wc then rest else incWords c rest)

/-- Multiplication in GF(2^8) modulo 0x11B (spec/42_engine.md R142), from the bits of `b` from bit `i` on. -/
def gfMulFrom : (count : Nat) → (i : Nat) → (a b : Byte) → Byte
  | 0, _, _, _ => 0
  | count + 1, i, a, b => (if b.getLsbD i then a else 0) ^^^ gfMulFrom count (i + 1) (Aes.xtime a) b

/-- Multiplication in GF(2^8) (spec/42_engine.md R142). -/
def gfMul (a b : Byte) : Byte := gfMulFrom 8 0 a b

/-- The affine map `A(b)` of the S-box (spec/42_engine.md R143). -/
def sboxAffine (b : Byte) : Byte :=
  b ^^^ b.rotateLeft 1 ^^^ b.rotateLeft 2 ^^^ b.rotateLeft 3 ^^^ b.rotateLeft 4 ^^^ 0x63

/-- A number of units of 2^-1074 that has at most 53 significant bits (spec/00_scope.md R11). -/
def RepresentableUnits (x : Nat) : Prop := ∃ m e : Nat, m ≤ 2 ^ 53 ∧ x = m * 2 ^ e

/-- `r` is the result of an operation whose exact result has the given sign and magnitude `num / den` units: the rounded magnitude, or
infinity where that is 2^1024 or more (spec/00_scope.md R11). -/
def RoundsTo (neg : Bool) (num den : Nat) (r : F64) : Prop :=
  (F64.roundUnits num den < 2 ^ 1024 * F64.unit → r = .fin neg (F64.roundUnits num den)) ∧
  (2 ^ 1024 * F64.unit ≤ F64.roundUnits num den → r = .inf neg)

end Sys2Proof.Machine
end

