-- ==== Sys2Proof/Certificates/Slice0/Obligations.lean ====
section
/-! DEFINITION. The statements for the provers. "R<n>" is a rule of spec/; where a statement rests on a choice of the model its
docstring says so and names the log entry. -/

open Sys2Proof Sys2Proof.Machine

/-! ### Encoding (spec/30_encoding.md) -/

/-- Decoding the encoding of a well-formed command gives the command, for every command and every operand value (R71, R74, R80,
R81). -/
def Obligations.DecodeOfEncodeIsTheCommand : Prop :=
  ∀ (c : Config) (i : Instr), i.wf c = true → decode c (encode i) = .ok i

/-- A message that decodes has one meaning: it is the encoding of the command, which is well-formed (R70, R71, R81). -/
def Obligations.EncodeOfDecodeIsTheMessage : Prop :=
  ∀ (c : Config) (msg : List Word) (i : Instr), decode c msg = .ok i → i.wf c = true ∧ encode i = msg

/-- Words written out from R71 and R80 (as spec/95_test_vectors.md section 8 prints them) decode to their commands. -/
def Obligations.WrittenOutWordsDecode : Prop :=
  let c := Config.resetInstance
  decode c [0x0000000100001101] = .ok (.csrRead .slotState 1) ∧
  decode c [0x0000000000000011] = .ok (.ctrInc 0) ∧
  decode c [0x0000000000000020, 0, 0] = .ok (.keyLoad 0 [0, 0]) ∧
  decode c [0x0000000000000331, 1, 2, 3] = .ok (.seedSeq 0 [1, 2, 3]) ∧
  decode c [0x0000000100000039, 7] = .ok (.discard 1 7) ∧
  decode c [0x0000000000000540, 4, 0x1000, 1, 4, 0x2000, 1, 4] =
    .ok (.resampleResidualSystematic ⟨4, 0x1000, 1, 4, 0x2000, 1, 4⟩)

/-- The decoding checks of R81 in their order, each clause under the checks before it, and the empty message (R70). The model's choices
in it: a reserved CSR number with SLOT not 0 falls under the third clause, log 17; a length of 2^64 words or more is recorded modulo
2^64, log 21; of several operands that are too wide the lowest index is recorded, log 26. -/
def Obligations.DecodingChecksRunInOrder : Prop :=
  ∀ (c : Config) (cw : Word) (ops : List Word),
    decode c [] = .error ⟨.badLength, 0⟩ ∧
    (Opcode.ofCode (opcOf cw) = none → decode c (cw :: ops) = .error ⟨.illegalOpcode, cw⟩) ∧
    (∀ op, Opcode.ofCode (opcOf cw) = some op →
      (ops.length ≠ operandCount c op (subOf cw) →
        decode c (cw :: ops) = .error ⟨.badLength, BitVec.ofNat 64 (1 + ops.length)⟩) ∧
      (ops.length = operandCount c op (subOf cw) →
        (rsvOf cw ≠ 0 ∨ (subFixed op = true ∧ subOf cw ≠ 0) ∨
            (slotFixed op (subOf cw) = true ∧ slotFieldOf cw ≠ 0) →
          decode c (cw :: ops) = .error ⟨.reservedField, cw⟩) ∧
        (rsvOf cw = 0 → (subFixed op = true → subOf cw = 0) →
            (slotFixed op (subOf cw) = true → slotFieldOf cw = 0) →
          (∀ i, nativeOperands op = true → i < ops.length → 2 ^ c.wc ≤ (ops.getD i 0).toNat →
            (∀ j, j < i → (ops.getD j 0).toNat < 2 ^ c.wc) →
            decode c (cw :: ops) = .error ⟨.reservedField, BitVec.ofNat 64 i⟩) ∧
          (op = .resample → 5 < (subOf cw).toNat →
            decode c (cw :: ops) = .error ⟨.badPolicy, (subOf cw).setWidth 64⟩) ∧
          (op = .seedSeq → subOf cw = 0 → decode c (cw :: ops) = .error ⟨.badLength, 1⟩) ∧
          (op = .csrRead → Csr.ofNumber (subOf cw) = none →
            decode c (cw :: ops) = .error ⟨.badOperand, (subOf cw).setWidth 64⟩) ∧
          (op = .ctrRead → c.m ≤ (subOf cw).toNat →
            decode c (cw :: ops) = .error ⟨.badOperand, (subOf cw).setWidth 64⟩))))

/-! ### Steps (spec/60_exceptions.md) -/

/-- The completion step of a message that decodes is the meaning of the command, on the state that serves the requester (R252). -/
def Obligations.StepPerformsTheDecodedCommand : Prop :=
  ∀ (s : State) (q : Nat) (c : InFlight) (rest : List Event) (i : Instr),
    s.inputs = .complete q :: rest → s.inFlight q = some c → decode s.cfg c.msg = .ok i →
    step s = exec i (serve q (s.withInputs rest))

/-- The completion step of a message that fails a decoding check raises its cause, precisely (R81, R241); in the fault state it is
refused unless its OPC is CSR_READ's, and then the cause is reported and not recorded (R243, R244). -/
def Obligations.StepRaisesWhatDecodingRejects : Prop :=
  ∀ (s : State) (q : Nat) (c : InFlight) (rest : List Event) (r : Raise),
    s.inputs = .complete q :: rest → s.inFlight q = some c → decode s.cfg c.msg = .error r →
    ∃ t, step s = .next t ∧ t.inflight = s.inflight.set q none ∧ t.slots = s.slots ∧ t.mem = s.mem ∧
      t.inputs = rest ∧
      (s.statusFault = false →
        Faulted (msgOpc c.msg) (msgSlot c.msg) r (serve q (s.withInputs rest)) t) ∧
      (s.statusFault = true →
        t.statusFault = true ∧ t.statusCause = s.statusCause ∧ t.faultInfo = s.faultInfo ∧
        t.faultLoc = s.faultLoc ∧
        t.outputs = .response q [responseWord
          (if msgOpc c.msg = 0x01 then r.cause.code else 0x12) (msgOpc c.msg)] :: s.outputs)

/-- With no move pending, a step is the completion step of the lowest requester with a command in flight, the same as if that move
were pending; with nothing in flight it changes nothing; and as many steps as there are commands in flight leave none, each of their
requesters having received a response and no other message being delivered (R252, R253). That the lowest requester comes first is
the model's choice, log 11. -/
def Obligations.IdleUnitCompletesEverything : Prop :=
  ∀ s : State, s.inputs = [] →
    (∀ q c, s.inFlight q = some c → (∀ q', q' < q → s.inFlight q' = none) →
      step s = completeStep q s ∧ step s = step (s.withInputs [.complete q])) ∧
    ((∀ q, s.inFlight q = none) → step s = .next s) ∧
    ∃ (t : State) (new : List Output),
      Sys2Proof.core.run (s.inflight.countP Option.isSome) s = .next t ∧
      t.inputs = [] ∧ (∀ q, t.inFlight q = none) ∧ t.inflight.length = s.inflight.length ∧
      t.outputs = new ++ s.outputs ∧ new.length = s.inflight.countP Option.isSome ∧
      ∀ q, (s.inFlight q).isSome = true → ∃ words, Output.response q words ∈ new

/-- The issue step with no shared slot puts the command in flight with its held slots and footprints, and reads and changes nothing
else; in the fault state no race is looked for (R251). The held slots are those of R182: none for an illegal opcode and for CSR_READ,
every slot for SEED_ALL, those below N that exist (slot 0 in SEQUENTIAL mode) for a RESAMPLE of 0 < N < 2^32, else the slot that SLOT
names. A RESAMPLE's footprints are recorded exactly when its operand checks would pass and its addresses fit, and are the bytes of
its elements (R55, R251). The model's choices: a RESAMPLE without OP[0] holds none, log 15; only messages of eight words have
footprints, log 16. -/
def Obligations.IssuePutsTheCommandInFlight : Prop :=
  (∀ (s : State) (q : Nat) (msg : List Word) (rest : List Event),
    s.inputs = .issue q msg :: rest → q < s.inflight.length → s.inFlight q = none →
    (s.statusFault = true ∨
      ∀ q' c, q' ≠ q → s.inFlight q' = some c → (heldOf s.cfg msg).shared c.held = none) →
    step s = .next { s with
      inputs := rest
      inflight := s.inflight.set q (some ⟨msg, heldOf s.cfg msg, footOf msg⟩) }) ∧
  (∀ (c : Config) (cw : Word) (ops : List Word) (k : Nat),
    let h := heldOf c (cw :: ops)
    let N := (ops.getD 0 0).toNat
    ¬ (heldOf c []).Has k ∧
    (Opcode.ofCode (opcOf cw) = none ∨ Opcode.ofCode (opcOf cw) = some .csrRead → ¬ h.Has k) ∧
    (Opcode.ofCode (opcOf cw) = some .seedAll → (h.Has k ↔ k < c.nstreams)) ∧
    (Opcode.ofCode (opcOf cw) = some .resample →
      (ops = [] ∨ N = 0 ∨ 2 ^ 32 ≤ N → ¬ h.Has k) ∧
      (0 < N → N < 2 ^ 32 →
        (c.mode = .sequential → (h.Has k ↔ k = 0)) ∧
        (c.mode = .parallel → (h.Has k ↔ k < min N c.nstreams)))) ∧
    (∀ op, Opcode.ofCode (opcOf cw) = some op → op ≠ .csrRead → op ≠ .seedAll → op ≠ .resample →
      (slotIndex c (slotFieldOf cw) = none → ¬ h.Has k) ∧
      (∀ j, slotIndex c (slotFieldOf cw) = some j → (h.Has k ↔ k = j)))) ∧
  (∀ (cw : Word) (o : ResampleOps), Opcode.ofCode (opcOf cw) = some .resample → FootprintsComputable o →
    ∃ f, footOf (cw :: o.words) = some f ∧ ∀ a,
      (f.weights.contains a = true ↔ InElements o.wbase.toNat o.wstride.toNat o.n.toNat a) ∧
      (f.counts.contains a = true ↔ InElements o.rbase.toNat o.rstride.toNat o.n.toNat a)) ∧
  (∀ (msg : List Word) (f : Footprints), footOf msg = some f →
    ∃ cw o, msg = cw :: o.words ∧ Opcode.ofCode (opcOf cw) = some .resample ∧ FootprintsComputable o)

/-- A command that shares a slot with another requester's command in flight faults at its issue with SharedStreamRace of the lowest
shared slot; the other command is not touched (R183). -/
def Obligations.SharedSlotRaceFaultsAtIssue : Prop :=
  ∀ (s : State) (q : Nat) (msg : List Word) (rest : List Event) (k : Nat),
    s.inputs = .issue q msg :: rest → q < s.inflight.length → s.inFlight q = none →
    s.statusFault = false →
    (∃ q' c, q' ≠ q ∧ s.inFlight q' = some c ∧ (heldOf s.cfg msg).lo ≤ k ∧ k < (heldOf s.cfg msg).hi ∧
      c.held.lo ≤ k ∧ k < c.held.hi) →
    (∀ q' c k', q' ≠ q → s.inFlight q' = some c → (heldOf s.cfg msg).lo ≤ k' → k' < (heldOf s.cfg msg).hi →
      c.held.lo ≤ k' → k' < c.held.hi → k ≤ k') →
    ∃ t, step s = .next t ∧
      Faulted (msgOpc msg) (msgSlot msg) ⟨.sharedStreamRace, BitVec.ofNat 64 k⟩
        (serve q (s.withInputs rest)) t ∧
      ∀ q', q' ≠ q → t.inFlight q' = s.inFlight q'

/-- A host access to a byte a RESAMPLE in flight forbids (reads and writes of RFOOT, writes of WFOOT) does nothing but record
MemoryRace of the lowest such byte for that RESAMPLE (R62, R254). No response is delivered, and the lowest byte is reported:
the model's reading, log 18. -/
def Obligations.HostAccessToABufferInFlightRaces : Prop :=
  ∀ (s : State) (q : Nat) (addr : Word) (bytes : List Byte) (len : Nat) (write : Bool) (rest : List Event)
    (a owner : Nat) (c : InFlight) (f : Footprints),
    s.inputs = (if write then .hostWrite q addr bytes else .hostRead q addr len) :: rest →
    (write = true → len = bytes.length) →
    q < s.inflight.length → addr.toNat + len ≤ 2 ^ 64 → s.statusFault = false →
    s.inFlight owner = some c → c.foot = some f →
    addr.toNat ≤ a → a < addr.toNat + len →
    (f.counts.contains a = true ∨ (write = true ∧ f.weights.contains a = true)) →
    (∀ q' c' f' b, s.inFlight q' = some c' → c'.foot = some f' → addr.toNat ≤ b → b < addr.toNat + len →
      f'.forbids write b = true → a ≤ b ∧ (b = a → owner ≤ q')) →
    step s = .next { s with
      inputs := rest
      statusFault := true
      statusCause := 0x0F
      faultInfo := BitVec.ofNat 64 a
      faultLoc := locWord (msgSlot c.msg) owner (msgOpc c.msg) }

/-- A host access to bytes that no RESAMPLE in flight forbids is an ordinary access: a read delivers the bytes, a write sets them
and leaves every other byte (R51, R254). -/
def Obligations.HostAccessesAreOrdinaryOtherwise : Prop :=
  ∀ (s : State) (q : Nat) (addr : Word) (rest : List Event),
    q < s.inflight.length → s.mem.wf = true →
    (∀ len, s.inputs = .hostRead q addr len :: rest → addr.toNat + len ≤ 2 ^ 64 →
      (s.statusFault = true ∨ ∀ q' c f a, s.inFlight q' = some c → c.foot = some f → addr.toNat ≤ a →
        a < addr.toNat + len → f.forbids false a = false) →
      ∃ bytes, step s = .next { s with inputs := rest, outputs := .readData q addr bytes :: s.outputs } ∧
        bytes.length = len ∧ ∀ k, k < len → bytes.getD k 0 = s.readByte (addr + BitVec.ofNat 64 k)) ∧
    (∀ bytes, s.inputs = .hostWrite q addr bytes :: rest → addr.toNat + bytes.length ≤ 2 ^ 64 →
      (s.statusFault = true ∨ ∀ q' c f a, s.inFlight q' = some c → c.foot = some f → addr.toNat ≤ a →
        a < addr.toNat + bytes.length → f.forbids true a = false) →
      ∃ mem, step s = .next { s with inputs := rest, mem := mem } ∧
        (∀ k, k < bytes.length → mem.byteAt (addr + BitVec.ofNat 64 k).toNat = bytes.getD k 0) ∧
        ∀ b : Word, (∀ k, k < bytes.length → b ≠ addr + BitVec.ofNat 64 k) →
          mem.byteAt b.toNat = s.readByte b)

/-- The reset event clears every slot, the fault record and every command in flight, and changes neither host memory nor the
parameters; nothing is delivered (R270). -/
def Obligations.ResetEventClearsTheUnit : Prop :=
  ∀ (s : State) (rest : List Event), s.inputs = .reset :: rest →
    ∃ t, step s = .next t ∧ (∀ k, t.slot k = none) ∧ t.slots.length = s.cfg.nstreams ∧
      t.statusFault = false ∧ t.statusCause = 0 ∧ t.faultInfo = 0 ∧ t.faultLoc = 0 ∧
      (∀ q, t.inFlight q = none) ∧ t.inflight.length = s.cfg.p ∧
      t.mem = s.mem ∧ t.cfg = s.cfg ∧ t.outputs = s.outputs ∧ t.inputs = rest

/-! ### Reset and invariants -/

/-- The state right after reset, of every instance, is CleanLaunch of no slot, and the invariants below hold in it (R30, R46, R272). -/
def Obligations.ResetIsACleanLaunchWithTheInvariants : Prop :=
  ∀ c : Config, CleanLaunch [] (State.resetOf c) ∧ (State.resetOf c).cfg = c ∧
    (State.resetOf c).mem.wf = true ∧ RecordClear (State.resetOf c) ∧ SizesRight (State.resetOf c) ∧
    SlotsShaped (State.resetOf c) ∧ SlotsCoherent (State.resetOf c) ∧ InFlightDisjoint (State.resetOf c)

/-- Every step keeps the canonical form of memory: strictly rising addresses below 2^64, no entry that an unlisted byte reads as. -/
def Obligations.EveryStepKeepsMemoryCanonical : Prop :=
  ∀ s t : State, s.mem.wf = true → step s = .next t → t.mem.wf = true

/-- Every step keeps: while STATUS.FAULT = 0 the record reads 0 (R38, R39, R40). -/
def Obligations.EveryStepKeepsRecordClear : Prop :=
  ∀ s t : State, RecordClear s → step s = .next t → RecordClear t

/-- Every step keeps the number of slots and of requesters, and no step changes a parameter (R21, R23, R45). -/
def Obligations.EveryStepKeepsSizesAndParameters : Prop :=
  ∀ s t : State, SizesRight s → step s = .next t → SizesRight t ∧ t.cfg = s.cfg

/-- Every step keeps every constructed slot's registers in their shape, the cursor at most R (R24-R27, R30 item 1). -/
def Obligations.EveryStepKeepsSlotsShaped : Prop :=
  ∀ s t : State, s.cfg.legal = true → SlotsShaped s → step s = .next t → SlotsShaped t

/-- Every step keeps the block fields, the common arithmetic part and the buffer as the transform of the counter (R30 items 2 and 3),
as long as no fault is recorded: after an aborted policy the slots hold any value (R235). -/
def Obligations.EveryStepKeepsSlotsCoherent : Prop :=
  ∀ s t : State, s.cfg.legal = true → SlotsShaped s → (s.statusFault = false → SlotsCoherent s) →
    step s = .next t → t.statusFault = false → SlotsCoherent t

/-- Every step keeps: records in flight are what the issue step makes of their messages, and while STATUS.FAULT = 0 no two commands in
flight share a slot (R60, R182, R183). -/
def Obligations.EveryStepKeepsInFlightDisjoint : Prop :=
  ∀ s t : State, InFlightDisjoint s → step s = .next t → InFlightDisjoint t

/-- Only reset leaves the fault state: any other step keeps the first fault's record and every slot (R241, R244, R247). -/
def Obligations.OnlyResetLeavesTheFaultState : Prop :=
  ∀ s t : State, s.statusFault = true → (∀ rest, s.inputs ≠ .reset :: rest) → step s = .next t →
    t.statusFault = true ∧ t.statusCause = s.statusCause ∧ t.faultInfo = s.faultInfo ∧
    t.faultLoc = s.faultLoc ∧ t.slots = s.slots

/-! ### Every command -/

/-- Every command is answered: RESULT 0 with the fault record as it was, or a fault's or the refusal's code with no data; its
requester has nothing in flight then, and no other requester's record changes (R76, R241, R252). -/
def Obligations.EveryCommandIsAnswered : Prop :=
  ∀ (i : Instr) (s : State), ∃ t, exec i s = .next t ∧ t.inflight = s.inflight.set s.serving none ∧
    t.cfg = s.cfg ∧ t.inputs = s.inputs ∧ t.serving = s.serving ∧
    ((∃ data, Completed i data s t) ∨
      (s.statusFault = false ∧ t.statusFault = true ∧
        t.outputs = .response s.serving [responseWord t.statusCause i.opcode.code] :: s.outputs ∧
        t.faultLoc = locWord i.slotField s.serving i.opcode.code) ∨
      (s.statusFault = true ∧ Framed s t ∧ ∃ cause : Cause,
        t.outputs = .response s.serving [responseWord cause.code i.opcode.code] :: s.outputs))

/-- In the fault state every command but CSR_READ has no effect and is answered with 0x12 (R244). -/
def Obligations.FaultStateRefusesAllButCsrRead : Prop :=
  ∀ (i : Instr) (s : State), s.statusFault = true → i.opcode ≠ .csrRead →
    exec i s = .next { s with
      outputs := .response s.serving [responseWord 0x12 i.opcode.code] :: s.outputs
      inflight := s.inflight.set s.serving none }

/-- A command's fault other than ProbOutOfRange and SumMismatch is precise: slots and memory keep their values (R235, R241). -/
def Obligations.FaultsArePrecise : Prop :=
  ∀ (i : Instr) (s t : State), exec i s = .next t → s.statusFault = false → t.statusFault = true →
    t.statusCause ≠ Cause.probOutOfRange.code → t.statusCause ≠ Cause.sumMismatch.code →
    t.slots = s.slots ∧ t.mem = s.mem ∧ t.freeCount = s.freeCount

/-- The slot prologue (R180, R242): which slot a SLOT field names in each mode; BadSlot for a slot that does not exist; Uninitialised for
the commands that read a slot with VALID = 0; and CSR_READ of CURSOR and SLOT_STATE in the fault state, whose fault is reported and
not recorded (R241, R247). -/
def Obligations.SlotCommandsCheckTheirSlot : Prop :=
  (∀ (c : Config) (slot : BitVec 32),
    (c.mode = .sequential → slotIndex c slot = some 0) ∧
    (c.mode = .parallel → slot.toNat < c.nstreams → slotIndex c slot = some slot.toNat) ∧
    (c.mode = .parallel → c.nstreams ≤ slot.toNat → slotIndex c slot = none)) ∧
  (∀ (s : State) (slot : BitVec 32) (n value : Word) (ws : List Word) (b : BitVec 8),
    s.statusFault = false → b.toNat < s.cfg.m →
    (slotIndex s.cfg slot = none →
      ∀ i ∈ [Instr.ctrZero slot, .ctrInc slot, .ctrAdd slot n, .ctrLoad slot ws, .ctrRead slot b,
          .keyLoad slot ws, .transform slot ws, .seed slot value, .seedSeq slot ws, .next slot,
          .discard slot n, .csrRead .cursor slot, .csrRead .slotState slot],
        ∃ t, exec i s = .next t ∧
          Faulted i.opcode.code slot ⟨.badSlot, slot.setWidth 64⟩ s t) ∧
    (∀ k, slotIndex s.cfg slot = some k → s.slot k = none →
      ∀ i ∈ [Instr.ctrZero slot, .ctrInc slot, .ctrAdd slot n, .ctrLoad slot ws, .ctrRead slot b,
          .transform slot ws, .next slot, .discard slot n, .csrRead .cursor slot],
        ∃ t, exec i s = .next t ∧
          Faulted i.opcode.code slot ⟨.uninitialised, BitVec.ofNat 64 k⟩ s t)) ∧
  (∀ (s : State) (slot : BitVec 32), s.statusFault = true →
    (slotIndex s.cfg slot = none →
      ∀ i ∈ [Instr.csrRead .cursor slot, .csrRead .slotState slot],
        ∃ t, exec i s = .next t ∧ ReportedOnly 0x01 .badSlot s t) ∧
    (∀ k, slotIndex s.cfg slot = some k → s.slot k = none →
      ∃ t, exec (.csrRead .cursor slot) s = .next t ∧ ReportedOnly 0x01 .uninitialised s t))

/-- The response and the slot of a slot command depend on the parameters, the requester and that slot's registers alone (R47,
R185): two states that agree on these, whatever other slots, memory and commands in flight hold. -/
def Obligations.SlotCommandsDependOnTheirSlotOnly : Prop :=
  ∀ (i : Instr) (s s' t t' : State) (k : Nat),
    i.opcode ≠ .csrRead → i.opcode ≠ .seedAll → i.opcode ≠ .resample →
    s.cfg.legal = true → SizesRight s → SizesRight s' → s'.cfg = s.cfg → s'.serving = s.serving →
    s.statusFault = false → s'.statusFault = false →
    slotIndex s.cfg i.slotField = some k → s'.slot k = s.slot k →
    exec i s = .next t → exec i s' = .next t' →
    t'.slot k = t.slot k ∧ t'.outputs.head? = t.outputs.head? ∧ t'.statusFault = t.statusFault ∧
      (∀ j, j ≠ k → t.slot j = s.slot j) ∧ t.mem = s.mem

/-- Commands of different requesters in flight on disjoint slots, whose records are what the issue step makes of them: if both orders of
completion end with no fault, they end with the same slots and the same memory (R60). -/
def Obligations.DisjointCommandsCommute : Prop :=
  ∀ (s t1 t12 t2 t21 : State) (q1 q2 : Nat) (c1 c2 : InFlight),
    s.cfg.legal = true → SizesRight s → q1 ≠ q2 →
    s.inFlight q1 = some c1 → s.inFlight q2 = some c2 →
    c1 = inFlightOf s.cfg c1.msg → c2 = inFlightOf s.cfg c2.msg → c1.held.shared c2.held = none →
    completeStep q1 s = .next t1 → completeStep q2 t1 = .next t12 →
    completeStep q2 s = .next t2 → completeStep q1 t2 = .next t21 →
    t12.statusFault = false → t21.statusFault = false →
    t12.slots = t21.slots ∧ t12.mem = t21.mem

/-! ### CSR_READ (spec/10_state.md R33-R44, spec/30_encoding.md R90) -/

/-- CSR_READ of CONFIG0 and CONFIG1 answers the parameters in their fields, reserved bits 0 (R34, R35, R44). -/
def Obligations.ConfigRegistersShowTheParameters : Prop :=
  ∀ (s : State) (slot : BitVec 32), s.cfg.legal = true →
    (∃ t v, exec (.csrRead .config0 slot) s = .next t ∧ Completed (.csrRead .config0 slot) [v] s t ∧
      SlotsSame s t ∧ MemorySame s t ∧
      v.extractLsb' 0 8 = s.cfg.engine.code ∧ (v.extractLsb' 8 8).toNat = s.cfg.w ∧
      (v.extractLsb' 16 8).toNat = s.cfg.wc ∧ (v.extractLsb' 24 8).toNat = s.cfg.wrBits ∧
      (v.extractLsb' 32 9).toNat = s.cfg.m ∧ v.extractLsb' 41 7 = 0 ∧
      (v.extractLsb' 48 8).toNat = s.cfg.rounds ∧
      (v.getLsbD 56 = true ↔ s.cfg.mode = .parallel) ∧ v.getLsbD 57 = s.cfg.part ∧
      v.extractLsb' 58 6 = 0) ∧
    (∃ t v, exec (.csrRead .config1 slot) s = .next t ∧ Completed (.csrRead .config1 slot) [v] s t ∧
      SlotsSame s t ∧ MemorySame s t ∧
      (v.extractLsb' 0 32).toNat = s.cfg.nstreams ∧ (v.extractLsb' 32 16).toNat = s.cfg.bufLen ∧
      (v.extractLsb' 48 16).toNat = s.cfg.p - 1)

/-- MIN reads 0, MAX reads 2^WR - 1 and PROB_TOL reads 0x3EB0C6F7A0B5ED8D, in every state (R36, R37, R41). -/
def Obligations.MinMaxAndToleranceRead : Prop :=
  ∀ (s : State) (slot : BitVec 32),
    (∃ t, exec (.csrRead .min slot) s = .next t ∧ Completed (.csrRead .min slot) [0] s t ∧
      SlotsSame s t ∧ MemorySame s t) ∧
    (∃ t, exec (.csrRead .max slot) s = .next t ∧
      Completed (.csrRead .max slot) [BitVec.ofNat 64 (2 ^ s.cfg.wrBits - 1)] s t ∧
      SlotsSame s t ∧ MemorySame s t) ∧
    (∃ t, exec (.csrRead .probTol slot) s = .next t ∧
      Completed (.csrRead .probTol slot) [0x3EB0C6F7A0B5ED8D] s t ∧ SlotsSame s t ∧ MemorySame s t)

/-- STATUS, FAULT_INFO and FAULT_LOC read, in the fault state too: STATUS bit by bit, BUSY for the reader, ADVISORY 0; and FAULT_LOC's
record has its fields (R38, R39, R40, R44). -/
def Obligations.StatusAndFaultRegistersRead : Prop :=
  (∀ (s : State) (slot : BitVec 32),
    (∃ t v, exec (.csrRead .status slot) s = .next t ∧ Completed (.csrRead .status slot) [v] s t ∧
      SlotsSame s t ∧ MemorySame s t ∧
      v.getLsbD 0 = s.statusFault ∧ v.getLsbD 1 = false ∧
      (v.getLsbD 2 = true ↔ ∃ q, q ≠ s.serving ∧ (s.inFlight q).isSome = true) ∧
      v.extractLsb' 3 5 = 0 ∧ v.extractLsb' 8 8 = s.statusCause ∧ v.extractLsb' 16 48 = 0) ∧
    (∃ t, exec (.csrRead .faultInfo slot) s = .next t ∧
      Completed (.csrRead .faultInfo slot) [s.faultInfo] s t ∧ SlotsSame s t ∧ MemorySame s t) ∧
    (∃ t, exec (.csrRead .faultLoc slot) s = .next t ∧
      Completed (.csrRead .faultLoc slot) [s.faultLoc] s t ∧ SlotsSame s t ∧ MemorySame s t)) ∧
  (∀ (slot : BitVec 32) (q : Nat) (opc : BitVec 8), q < 2 ^ 16 →
    (locWord slot q opc).extractLsb' 0 32 = slot ∧
    ((locWord slot q opc).extractLsb' 32 16).toNat = q ∧
    (locWord slot q opc).extractLsb' 48 8 = opc ∧ (locWord slot q opc).extractLsb' 56 8 = 0)

/-- CURSOR reads the cursor of a valid slot, SLOT_STATE the VALID bit of any slot, in the fault state too (R42, R43, R90). -/
def Obligations.CursorAndSlotStateRead : Prop :=
  ∀ (s : State) (slot : BitVec 32) (k : Nat), s.cfg.legal = true → slotIndex s.cfg slot = some k →
    (∀ sl, s.slot k = some sl → sl.cur ≤ s.cfg.bufLen →
      ∃ t, exec (.csrRead .cursor slot) s = .next t ∧
        Completed (.csrRead .cursor slot) [BitVec.ofNat 64 sl.cur] s t ∧ SlotsSame s t ∧
        MemorySame s t) ∧
    (∃ t, exec (.csrRead .slotState slot) s = .next t ∧
      Completed (.csrRead .slotState slot) [if (s.slot k).isSome then 1 else 0] s t ∧ SlotsSame s t ∧
      MemorySame s t)

/-! ### Counters (spec/41_counter.md) -/

/-- CTR_ZERO sets the counter to Blocks(0) and the cursor to R, and changes no other register, slot or byte (R110). -/
def Obligations.CtrZeroZeroesTheCounter : Prop :=
  ∀ (s : State) (slot : BitVec 32) (k : Nat) (sl : Slot), s.statusFault = false →
    slotIndex s.cfg slot = some k → s.slot k = some sl →
    ∃ t, exec (.ctrZero slot) s = .next t ∧ Completed (.ctrZero slot) [] s t ∧ MemorySame s t ∧
      SlotWritten k { sl with ctr := s.cfg.blocks 0, cur := s.cfg.bufLen } s t

/-- CTR_INC adds 1 and CTR_ADD adds n to the counter, modulo 2^A, in every block, and set the cursor to R; no other register, slot or
byte changes (R103, R111, R112). -/
def Obligations.CtrIncAndCtrAddAddToTheCounter : Prop :=
  ∀ (s : State) (slot : BitVec 32) (n : Word) (k : Nat) (sl : Slot), s.statusFault = false →
    slotIndex s.cfg slot = some k → s.slot k = some sl →
    (∃ t, exec (.ctrInc slot) s = .next t ∧ Completed (.ctrInc slot) [] s t ∧ MemorySame s t ∧
      SlotWritten k { sl with
        ctr := s.cfg.blocks ((s.cfg.arith (sl.ctr.getD 0 []) + 1) % 2 ^ s.cfg.arithBits)
        cur := s.cfg.bufLen } s t) ∧
    (∃ t, exec (.ctrAdd slot n) s = .next t ∧ Completed (.ctrAdd slot n) [] s t ∧ MemorySame s t ∧
      SlotWritten k { sl with
        ctr := s.cfg.blocks ((s.cfg.arith (sl.ctr.getD 0 []) + n.toNat) % 2 ^ s.cfg.arithBits)
        cur := s.cfg.bufLen } s t)

/-- CTR_LOAD sets the counter to Blocks(v), v the value of the operand words, and the cursor to R; where a block field is reserved and
v has bits there, it raises BadOperand of those bits (R113). -/
def Obligations.CtrLoadSetsTheCounter : Prop :=
  ∀ (s : State) (slot : BitVec 32) (words : List Word) (k : Nat) (sl : Slot), s.statusFault = false →
    slotIndex s.cfg slot = some k → s.slot k = some sl →
    (¬ (s.cfg.part = true ∧ 2 ^ s.cfg.arithBits ≤ s.cfg.ctrVal words) →
      ∃ t, exec (.ctrLoad slot words) s = .next t ∧ Completed (.ctrLoad slot words) [] s t ∧
        MemorySame s t ∧
        SlotWritten k { sl with ctr := s.cfg.blocks (s.cfg.ctrVal words), cur := s.cfg.bufLen } s t) ∧
    (s.cfg.part = true → 2 ^ s.cfg.arithBits ≤ s.cfg.ctrVal words →
      ∃ t, exec (.ctrLoad slot words) s = .next t ∧
        Faulted 0x13 slot ⟨.badOperand, BitVec.ofNat 64 (s.cfg.ctrVal words / 2 ^ s.cfg.arithBits)⟩ s t)

/-- CTR_READ answers the words of block b and changes nothing; b >= M raises BadOperand (R114). -/
def Obligations.CtrReadAnswersTheBlock : Prop :=
  ∀ (s : State) (slot : BitVec 32) (b : BitVec 8), s.statusFault = false →
    (∀ k sl, b.toNat < s.cfg.m → slotIndex s.cfg slot = some k → s.slot k = some sl →
      ∃ t, exec (.ctrRead slot b) s = .next t ∧
        Completed (.ctrRead slot b) (sl.ctr.getD b.toNat []) s t ∧ SlotsSame s t ∧ MemorySame s t) ∧
    (s.cfg.m ≤ b.toNat →
      ∃ t, exec (.ctrRead slot b) s = .next t ∧ Faulted 0x14 slot ⟨.badOperand, b.setWidth 64⟩ s t)

/-- Blocks(a) of a legal instance: M blocks of W native words, each with arithmetic part a, block b with field b, and no two equal
(R101, R102, R106). -/
def Obligations.BlocksShareTheArithmeticPartAndDiffer : Prop :=
  ∀ (c : Config) (a : Nat), c.legal = true → a < 2 ^ c.arithBits →
    (c.blocks a).length = c.m ∧
    ∀ b, b < c.m →
      ((c.blocks a).getD b []).length = c.w ∧
      (∀ v ∈ (c.blocks a).getD b [], v.toNat < 2 ^ c.wc) ∧
      c.arith ((c.blocks a).getD b []) = a ∧
      (c.part = true → c.field ((c.blocks a).getD b []) = b) ∧
      ∀ b', b' < c.m → b' ≠ b → (c.blocks a).getD b' [] ≠ (c.blocks a).getD b []

/-- The increment of R104 word by word, in every block, is CounterAdd of 1, and that of R105 by one word n, word 0 first and a carry of
one into word 1, is CounterAdd of n (R103, R104, R105). -/
def Obligations.WordByWordIncrementsAreCounterAdd : Prop :=
  ∀ (c : Config) (a : Nat), c.legal = true → a < 2 ^ c.arithBits →
    (c.blocks a).map (incWords c) = c.blocks (c.counterAdd a 1) ∧
    ∀ n, n < 2 ^ c.wc → (c.blocks a).map (addWords c n) = c.blocks (c.counterAdd a n)

/-! ### Streams (spec/43_stream.md) and the engine (spec/42_engine.md) -/

/-- KEY_LOAD, SEED and SEEDSEQ construct the slot: the key given or derived, the counter Blocks(0), the cursor R, VALID 1, whether or
not it was valid before; no other slot and no byte changes (R170-R173). -/
def Obligations.ConstructingCommandsConstructTheSlot : Prop :=
  ∀ (s : State) (slot : BitVec 32) (key values : List Word) (value : Word) (k : Nat),
    s.statusFault = false → slotIndex s.cfg slot = some k → k < s.slots.length →
    ∀ x ∈ [(Instr.keyLoad slot key, key), (.seed slot value, s.cfg.keyFromSeed value),
        (.seedSeq slot values, s.cfg.keyFromSeedSeq values)],
      ∃ t sl, exec x.1 s = .next t ∧ Completed x.1 [] s t ∧ MemorySame s t ∧ SlotWritten k sl s t ∧
        sl.key = x.2 ∧ sl.ctr = s.cfg.blocks 0 ∧ sl.cur = s.cfg.bufLen

/-- SEED_ALL constructs every slot at once: in SEQUENTIAL mode slot 0 from the seed, in PARALLEL mode slot k from SeedOfStream(v, k)
(R170, R181). -/
def Obligations.SeedAllConstructsEverySlot : Prop :=
  ∀ (s : State) (value : Word), s.statusFault = false → s.cfg.legal = true → SizesRight s →
    ∃ t, exec (.seedAll value) s = .next t ∧ Completed (.seedAll value) [] s t ∧ MemorySame s t ∧
      t.slots.length = s.cfg.nstreams ∧
      ∀ k, k < s.cfg.nstreams → ∃ sl, t.slot k = some sl ∧ sl.ctr = s.cfg.blocks 0 ∧
        sl.cur = s.cfg.bufLen ∧
        (s.cfg.mode = .sequential → sl.key = s.cfg.keyFromSeed value) ∧
        (s.cfg.mode = .parallel → sl.key = s.cfg.keyFromSeed (s.cfg.seedOfStream value k))

/-- TRANSFORM answers the words of E(KEY, X) and changes nothing (R131). -/
def Obligations.TransformAnswersTheEngine : Prop :=
  ∀ (s : State) (slot : BitVec 32) (block : List Word) (k : Nat) (sl : Slot), s.statusFault = false →
    slotIndex s.cfg slot = some k → s.slot k = some sl →
    ∃ t, exec (.transform slot block) s = .next t ∧
      Completed (.transform slot block) (engineWords s.cfg sl.key block) s t ∧ SlotsSame s t ∧
      MemorySame s t

/-- The engine maps a key and a block of the instance's sizes to an image of BLOCK_BITS bits, and the AES schedule has 4*(Nr+1) words
(R7, R130, R140). -/
def Obligations.EngineImageHasTheBlockSize : Prop :=
  ∀ (c : Config) (key block : List Word), key.length = c.kw → block.length = c.w →
    (engineImage c key block).length * 8 = c.blockBits ∧
    (c.engine = .aes128 ∨ c.engine = .aes192 ∨ c.engine = .aes256 →
      (Aes.schedule c key).length = 4 * (c.rounds + 1))

/-- The S-box table is the affine map of the inverse in GF(2^8), with 0 for the inverse of 0 (R142, R143). -/
def Obligations.SboxIsAffineOfInverse : Prop :=
  ∀ a : Byte, ∃ b : Byte, (a = 0 → b = 0) ∧ (a ≠ 0 → gfMul a b = 1) ∧ Aes.sbox a = sboxAffine b

/-- NEXT answers the word at the cursor and advances it; an exhausted buffer is first refilled from the incremented counter, and then
word 0 is answered; no other slot and no byte changes (R174, R175). -/
def Obligations.NextAnswersTheNextWord : Prop :=
  ∀ (s : State) (slot : BitVec 32) (k : Nat) (sl : Slot), s.statusFault = false →
    slotIndex s.cfg slot = some k → s.slot k = some sl →
    (sl.cur < s.cfg.bufLen →
      ∃ t, exec (.next slot) s = .next t ∧ Completed (.next slot) [sl.buf.getD sl.cur 0] s t ∧
        MemorySame s t ∧ SlotWritten k { sl with cur := sl.cur + 1 } s t) ∧
    (sl.cur = s.cfg.bufLen →
      ∃ t, ∃ ctr buf, exec (.next slot) s = .next t ∧ Completed (.next slot) [buf.getD 0 0] s t ∧
        MemorySame s t ∧
        ctr = s.cfg.blocks ((s.cfg.arith (sl.ctr.getD 0 []) + 1) % 2 ^ s.cfg.arithBits) ∧
        buf = fill s.cfg sl.key ctr ∧
        SlotWritten k { sl with ctr := ctr, buf := buf, cur := 1 } s t)

/-- The word NEXT answers lies in [MIN, MAX] (R174, R186). -/
def Obligations.NextWordIsAtMostMax : Prop :=
  ∀ (s : State) (slot : BitVec 32) (k : Nat) (sl : Slot), s.statusFault = false →
    slotIndex s.cfg slot = some k → s.slot k = some sl → SlotShaped s.cfg sl →
    ∃ t v, exec (.next slot) s = .next t ∧ Completed (.next slot) [v] s t ∧
      v.toNat ≤ 2 ^ s.cfg.wrBits - 1

/-- The closed form of R177 gives what the loop of n NEXTs gives, for every n, across any number of refills, and DISCARD n leaves the slot
so and answers no data (R176, R177). -/
def Obligations.DiscardIsTheLoopOfNexts : Prop :=
  (∀ (c : Config) (sl : Slot) (n : Nat), c.legal = true → sl.cur ≤ c.bufLen →
    discardSlot c n sl = nextTimes c n sl) ∧
  ∀ (s : State) (slot : BitVec 32) (n : Word) (k : Nat) (sl : Slot), s.statusFault = false →
    s.cfg.legal = true → slotIndex s.cfg slot = some k → s.slot k = some sl → sl.cur ≤ s.cfg.bufLen →
    ∃ t, exec (.discard slot n) s = .next t ∧ Completed (.discard slot n) [] s t ∧ MemorySame s t ∧
      SlotWritten k (nextTimes s.cfg n.toNat sl) s t

/-- From every state with nothing in flight: the run of DISCARD n and then NEXT, and the run of n + 1 NEXTs, end with the same slots
and memory, and their last responses are the same word (R178). -/
def Obligations.DiscardThenNextIsOneMoreNext : Prop :=
  ∀ (s : State) (q : Nat) (slot : BitVec 32) (n : Word) (k : Nat) (sl : Slot), s.statusFault = false →
    s.cfg.legal = true → q < s.inflight.length → (∀ q', s.inFlight q' = none) →
    slotIndex s.cfg slot = some k → s.slot k = some sl → sl.cur ≤ s.cfg.bufLen →
    ∃ (t u : State) (w : Word) (before before' : List Output),
      Sys2Proof.core.run 4 (s.withInputs [.issue q (encode (.discard slot n)), .complete q,
        .issue q (encode (.next slot)), .complete q]) = .next t ∧
      Sys2Proof.core.run (2 * (n.toNat + 1)) (s.withInputs
        (List.replicate (n.toNat + 1) [Event.issue q (encode (.next slot)), .complete q]).flatten) =
        .next u ∧
      t.slots = u.slots ∧ t.mem = u.mem ∧
      t.outputs = .response q [responseWord 0 0x38, w] :: before ∧
      u.outputs = .response q [responseWord 0 0x38, w] :: before'

/-! ### RESAMPLE (spec/44_resample.md) -/

/-- A RESAMPLE whose checks pass and whose policy answers completes with the policy's counts stored element by element, the policy's
slots, and every byte outside RFOOT as before, the weights among them (R63, R200). -/
def ResampleStoresTheCounts (mk : ResampleOps → Instr) (policy : Policy) : Prop :=
  ∀ (o : ResampleOps) (s : State) (rep : List Nat) (slots : List (Option Slot)), s.statusFault = false →
    s.mem.wf = true → ResampleRunnable o s → policyOn policy o s = .ok (rep, slots) →
    ∃ t, exec (mk o) s = .next t ∧ Completed (mk o) [] s t ∧ t.slots = slots ∧
      rep.length = o.n.toNat ∧
      (∀ i, i < o.n.toNat → storedCount o t i = rep.getD i 0) ∧
      (∀ a : Word, (countFoot o).contains a.toNat = false → t.readByte a = s.readByte a) ∧
      (∀ i, i < o.n.toNat → storedWeight o t i = storedWeight o s i)

/-- MULTINOMIAL and RESIDUAL, whose policy may raise ProbOutOfRange or SumMismatch (R200, R215, R218). -/
def Obligations.PrimitivePoliciesStoreTheirCounts : Prop :=
  ResampleStoresTheCounts .resampleMultinomial policyMultinomial ∧
  ResampleStoresTheCounts .resampleResidual policyResidual

/-- STRATIFIED and SYSTEMATIC, whose policy always answers, so that they complete whenever the checks pass (R200, R222, R223). -/
def Obligations.ScanPoliciesAlwaysComplete : Prop :=
  ResampleStoresTheCounts .resampleStratified policyStratified ∧
  ResampleStoresTheCounts .resampleSystematic policySystematic ∧
  ∀ (o : ResampleOps) (s : State), (∃ rep slots, policyOn policyStratified o s = .ok (rep, slots)) ∧
    ∃ rep slots, policyOn policySystematic o s = .ok (rep, slots)

/-- RESIDUAL_STRATIFIED and RESIDUAL_SYSTEMATIC, whose policy may raise SumMismatch (R200, R224, R225). -/
def Obligations.ResidualScanPoliciesStoreTheirCounts : Prop :=
  ResampleStoresTheCounts .resampleResidualStratified policyResidualStratified ∧
  ResampleStoresTheCounts .resampleResidualSystematic policyResidualSystematic

/-- The operand checks of RESAMPLE in their order, before anything is read; a RESAMPLE of N = 0 that passes them completes and touches
no slot and no byte, whatever its bases (R201). -/
def Obligations.ResampleOperandChecks : Prop :=
  ∀ x ∈ resamplePolicies, ∀ (o : ResampleOps) (s : State), s.statusFault = false →
    let faults := fun r : Raise => ∃ t, exec (x.1 o) s = .next t ∧ Faulted 0x40 0 r s t
    (o.wstride.toInt ≤ 0 → faults ⟨.badStride, o.wstride⟩) ∧
    (0 < o.wstride.toInt → o.rstride.toInt ≤ 0 → faults ⟨.badStride, o.rstride⟩) ∧
    (0 < o.wstride.toInt → 0 < o.rstride.toInt →
      (o.nw ≠ o.n → faults ⟨.sizeMismatch, o.nw⟩) ∧
      (o.nw = o.n → o.nrl ≠ o.n → faults ⟨.sizeMismatch, o.nrl⟩) ∧
      (o.nw = o.n → o.nrl = o.n → 2 ^ 32 ≤ o.n.toNat → faults ⟨.badOperand, o.n⟩) ∧
      (o.nw = o.n → o.nrl = o.n → o.n = 0 →
        ∃ t, exec (x.1 o) s = .next t ∧ Completed (x.1 o) [] s t ∧ SlotsSame s t ∧ MemorySame s t))

/-- The slot, memory and weight checks of RESAMPLE in their order, each with its information value, before anything is written (R51, R54,
R55, R63, R200, R202, R205). -/
def Obligations.ResampleSlotMemoryAndWeightChecks : Prop :=
  ∀ x ∈ resamplePolicies, ∀ (o : ResampleOps) (s : State), s.statusFault = false → OperandsOk o →
    let faults := fun r : Raise => ∃ t, exec (x.1 o) s = .next t ∧ Faulted 0x40 0 r s t
    (s.cfg.mode = .parallel → s.cfg.nstreams < o.n.toNat →
      faults ⟨.badSlot, BitVec.ofNat 64 s.cfg.nstreams⟩) ∧
    ((s.cfg.mode = .parallel → o.n.toNat ≤ s.cfg.nstreams) →
      ∀ k, k < usedSlots s.cfg o.n.toNat → s.slot k = none → (∀ j, j < k → (s.slot j).isSome = true) →
        faults ⟨.uninitialised, BitVec.ofNat 64 k⟩) ∧
    (StreamsOk o s →
      (o.wbase.toNat % 8 ≠ 0 → faults ⟨.misaligned, o.wbase⟩) ∧
      (o.wbase.toNat % 8 = 0 → o.rbase.toNat % 8 ≠ 0 → faults ⟨.misaligned, o.rbase⟩) ∧
      (o.wbase.toNat % 8 = 0 → o.rbase.toNat % 8 = 0 →
        (∀ i, i < o.n.toNat → reachable s.cfg ((weightFoot o).elem i) = false →
          (∀ j, j < i → reachable s.cfg ((weightFoot o).elem j) = true) →
          faults ⟨.busError, BitVec.ofNat 64 ((weightFoot o).elem i)⟩) ∧
        (Reachable s.cfg (weightFoot o) →
          ∀ i, i < o.n.toNat → reachable s.cfg ((countFoot o).elem i) = false →
          (∀ j, j < i → reachable s.cfg ((countFoot o).elem j) = true) →
          faults ⟨.busError, BitVec.ofNat 64 ((countFoot o).elem i)⟩) ∧
        (Reachable s.cfg (weightFoot o) → Reachable s.cfg (countFoot o) →
          ∀ a, (weightFoot o).contains a = true → (countFoot o).contains a = true →
          (∀ b, b < a → ¬ ((weightFoot o).contains b = true ∧ (countFoot o).contains b = true)) →
          faults ⟨.bufferOverlap, BitVec.ofNat 64 a⟩)) ∧
      (BuffersOk o s → ∀ i, i < o.n.toNat → weightBad (storedWeight o s i) = true →
        (∀ j, j < i → weightBad (storedWeight o s j) = false) →
        faults ⟨.badWeight, BitVec.ofNat 64 i⟩))

/-- A policy that raises a cause ends the command in its fault; if no draw had been made the fault is precise (R235, R241). That slots and
memory are those of abortedState when a draw had been made (free values, VALID stays 1) is the model's choice, log 6. A sum that does
not fit FAULT_INFO is left open here: log 7. -/
def Obligations.PolicyFaultsEndTheCommand : Prop :=
  ∀ x ∈ resamplePolicies, ∀ (o : ResampleOps) (s : State) (f : PolicyFault), s.statusFault = false →
    ResampleRunnable o s → policyOn x.2 o s = .error f →
    ∃ t, exec (x.1 o) s = .next t ∧ t.statusFault = true ∧ t.statusCause = f.cause.code ∧
      (f.info < 2 ^ 64 → t.faultInfo = BitVec.ofNat 64 f.info) ∧
      t.outputs = .response s.serving [responseWord f.cause.code 0x40] :: s.outputs ∧
      t.slots = (abortedState o f s).slots ∧ t.mem = (abortedState o f s).mem ∧
      (f.drawn = false → t.slots = s.slots ∧ t.mem = s.mem)

/-- After a policy aborts with a draw made, only the used slots and RFOOT are open: the used slots stay constructed and in shape, every
other slot and every byte outside RFOOT is as before (R235). That VALID stays 1 is the model's reading, log 6. -/
def Obligations.AbortLeavesOnlyUsedSlotsAndCountsOpen : Prop :=
  ∀ (o : ResampleOps) (s : State) (f : PolicyFault), s.cfg.legal = true → ResampleRunnable o s →
    f.drawn = true →
    (∀ k, usedSlots s.cfg o.n.toNat ≤ k → (abortedState o f s).slot k = s.slot k) ∧
    (∀ k, k < usedSlots s.cfg o.n.toNat →
      ∃ sl, (abortedState o f s).slot k = some sl ∧ SlotShaped s.cfg sl) ∧
    (∀ a : Word, (countFoot o).contains a.toNat = false →
      (abortedState o f s).readByte a = s.readByte a)

/-- A RESAMPLE that completes without a fault stored counts that sum to N, for all six policies (R230). -/
def Obligations.CompletedResampleSumsToN : Prop :=
  ∀ x ∈ resamplePolicies, ∀ (o : ResampleOps) (s t : State), s.statusFault = false → s.mem.wf = true →
    exec (x.1 o) s = .next t → t.statusFault = false →
    ((List.range o.n.toNat).map (storedCount o t)).sum = o.n.toNat

/-- Zero weights: under MULTINOMIAL and RESIDUAL every particle of weight 0 gets count 0; under the four scan policies every one but the
last does (R231). -/
def Obligations.ZeroWeightsGetNoCopies : Prop :=
  ∀ x ∈ resamplePolicies, ∀ (o : ResampleOps) (s t : State) (i : Nat), s.statusFault = false →
    s.mem.wf = true → exec (x.1 o) s = .next t → t.statusFault = false → i < o.n.toNat →
    (storedWeight o s i).isZero = true →
    (x.1 o = .resampleMultinomial o ∨ x.1 o = .resampleResidual o ∨ i + 1 < o.n.toNat) →
    storedCount o t i = 0

/-- The residual floor: under the three residual policies particle i gets at least the exact floor of N times its weight (R232). -/
def Obligations.ResidualPoliciesGiveTheFloor : Prop :=
  ∀ mk ∈ [Instr.resampleResidual, .resampleResidualStratified, .resampleResidualSystematic],
    ∀ (o : ResampleOps) (s t : State) (i : Nat) (neg : Bool) (mag : Nat), s.statusFault = false →
    s.mem.wf = true → exec (mk o) s = .next t → t.statusFault = false → i < o.n.toNat →
    storedWeight o s i = .fin neg mag →
    o.n.toNat * mag / 2 ^ 1074 ≤ storedCount o t i

/-- A completed RESAMPLE changes slots only as NEXTs do, and only the used ones: in PARALLEL mode slots 0 to N - 1, in SEQUENTIAL mode slot
0 (R202, R203, R204, R234). -/
def Obligations.ResampleAdvancesOnlyItsStreams : Prop :=
  ∀ x ∈ resamplePolicies, ∀ (o : ResampleOps) (s t : State), s.statusFault = false →
    exec (x.1 o) s = .next t → t.statusFault = false →
    (∀ k, ∃ m, t.slot k = (s.slot k).map (nextTimes s.cfg m)) ∧
    (∀ k, usedSlots s.cfg o.n.toNat ≤ k → t.slot k = s.slot k)

/-- U01Draw(s) gives some u with 0 <= u < 1 and changes slot s as some m >= 1 NEXTs do, both fixed by the slot's registers, and no other
slot; BinomDraw(s, n, p) some count at most n, 0 for p = 0 and n for p = 1, and some m >= 0, fixed by the registers, n and p
(R203, R204). -/
def Obligations.DrawsObeyTheirLaws : Prop :=
  ∀ (c : Config) (sl : Slot),
    (∃ (u : F64) (m : Nat), F64.le F64.zero u = true ∧ F64.lt u F64.one = true ∧ 1 ≤ m ∧
      ∀ (k : Nat) (slots : List (Option Slot)), slots.getD k none = some sl →
        u01Draw c (Draws.ofInstance c) k slots = (u, slots.set k (some (nextTimes c m sl)))) ∧
    ∀ (n : Nat) (p : F64), ∃ v m : Nat, v ≤ n ∧ (p.isZero = true → v = 0) ∧ (p = F64.one → v = n) ∧
      ∀ (k : Nat) (slots : List (Option Slot)), slots.getD k none = some sl →
        binomDraw c (Draws.ofInstance c) k n p slots = (v, slots.set k (some (nextTimes c m sl)))

/-- The scan of the model is the loop of R221, and it places every position (R221). -/
def Obligations.ScanIsTheLoopOfTheRule : Prop :=
  ∀ v pos : List F64, v ≠ [] →
    scan v pos = scanLoop v.length pos.length v pos (v.length + pos.length + 1) 0 0 (v.getD 0 F64.zero)
      (List.replicate v.length 0) ∧
    (scan v pos).sum = pos.length

/-! ### Binary64 (spec/00_scope.md R11) -/

/-- Rounding gives a value of 53 significant bits, none is nearer to the exact one, and in a tie the significand is even; the four
operations on finite operands give the rounded exact result with its sign, infinity where it rounds to 2^1024 or more, and the signed
zeros, infinities and NaNs of IEEE 754; integers up to 2^53 convert exactly (R11). -/
def Obligations.OperationsRoundToNearestEven : Prop :=
  (∀ num den : Nat, 0 < den →
    RepresentableUnits (F64.roundUnits num den) ∧
    (∀ x, RepresentableUnits x →
      |(num : Int) - (F64.roundUnits num den : Int) * den| ≤ |(num : Int) - (x : Int) * den|) ∧
    (∀ x, RepresentableUnits x → x ≠ F64.roundUnits num den →
      |(num : Int) - (F64.roundUnits num den : Int) * den| = |(num : Int) - (x : Int) * den| →
      ∃ m e : Nat, F64.roundUnits num den = m * 2 ^ e ∧ m % 2 = 0 ∧ m ≤ 2 ^ 53 ∧
        (e = 0 ∨ 2 ^ 52 ≤ m))) ∧
  (∀ (a b : Bool) (x y : Nat),
    let u := F64.fin a x
    let v := F64.fin b y
    let sum := F64.signed a x + F64.signed b y
    let diff := F64.signed a x - F64.signed b y
    (sum ≠ 0 → RoundsTo (decide (sum < 0)) sum.natAbs 1 (F64.add u v)) ∧
    (sum = 0 → F64.add u v = .fin (a && b) 0) ∧
    (diff ≠ 0 → RoundsTo (decide (diff < 0)) diff.natAbs 1 (F64.sub u v)) ∧
    (diff = 0 → F64.sub u v = .fin (a && !b) 0) ∧
    RoundsTo (a != b) (x * y) F64.unit (F64.mul u v) ∧
    (y ≠ 0 → RoundsTo (a != b) (x * F64.unit) y (F64.div u v)) ∧
    (y = 0 → F64.div u v = if x = 0 then .nan else .inf (a != b)) ∧
    F64.add u (.inf b) = .inf b ∧ F64.add (.inf a) v = .inf a ∧
    F64.sub u (.inf b) = .inf (!b) ∧ F64.sub (.inf a) v = .inf a ∧
    F64.mul u (.inf b) = (if x = 0 then .nan else .inf (a != b)) ∧
    F64.mul (.inf a) v = (if y = 0 then .nan else .inf (a != b)) ∧
    F64.div u (.inf b) = .fin (a != b) 0 ∧ F64.div (.inf a) v = .inf (a != b) ∧
    F64.add (.inf a) (.inf b) = (if a = b then .inf a else .nan) ∧
    F64.sub (.inf a) (.inf b) = (if a = b then .nan else .inf a) ∧
    F64.mul (.inf a) (.inf b) = .inf (a != b) ∧ F64.div (.inf a) (.inf b) = .nan) ∧
  (∀ op ∈ [F64.add, F64.sub, F64.mul, F64.div], ∀ x, op .nan x = .nan ∧ op x .nan = .nan) ∧
  (∀ n : Nat, n ≤ 2 ^ 53 → F64.ofNat n = .fin false (n * 2 ^ 1074))

/-! ### The policies and the pseudocode (spec/44_resample.md R210-R225) -/

/-- The six policies are the loops of the rules: Primitive and its sum check (R210, R212), Clamp with its inclusive bounds (R211), the
positions drawn in order (R220) and the scan (R221), Split and Normalise (R216, R217), put together as R215, R218 and R222 to R225
say. A product of N and a weight that overflows ends in SumMismatch: the model's reading, log 8. -/
def Obligations.PoliciesAreTheLoopsOfTheRules : Prop :=
  (∀ (c : Config) (d : Draws) (w : List F64) (slots : List (Option Slot)),
    policyMultinomial c d w slots = primitiveRule c d w.length w slots ∧
    policyResidual c d w slots = residualPolicy (primitiveRule c d) w slots ∧
    (w ≠ [] →
      policyStratified c d w slots = scanRule w.length (stratLoop c d w.length slots) w ∧
      policySystematic c d w slots = scanRule w.length (sysLoop c d w.length slots) w ∧
      policyResidualStratified c d w slots =
        residualPolicy (fun S rw sl => scanRule S (stratLoop c d S sl) rw) w slots ∧
      policyResidualSystematic c d w slots =
        residualPolicy (fun S rw sl => scanRule S (sysLoop c d S sl) rw) w slots)) ∧
  (∀ tol, tol = F64.ofBits 0x3EB0C6F7A0B5ED8D →
    F64.add F64.one tol = F64.ofBits 0x3FF000010C6F7A0B ∧
    clamp tol.negate = some F64.zero ∧ clamp (F64.ofBits 0x3FF000010C6F7A0B) = some F64.one ∧
    ∀ p,
      (clamp p = none ↔
        p = .nan ∨ F64.lt p tol.negate = true ∨ F64.lt (F64.add F64.one tol) p = true) ∧
      ∀ q, clamp p = some q →
        (F64.lt p F64.zero = true → q = F64.zero) ∧ (F64.lt F64.one p = true → q = F64.one) ∧
        (F64.lt p F64.zero = false → F64.lt F64.one p = false → q = p)) ∧
  (∀ (inner : Nat → List F64 → List (Option Slot) → PolicyResult) (w : List F64)
      (slots : List (Option Slot)),
    (∀ g r, SplitInto w g r →
      let G := g.sum
      let tot := r.foldl F64.add F64.zero
      (w.length < G → residualPolicy inner w slots = .error ⟨.sumMismatch, G, false⟩) ∧
      (G = w.length → residualPolicy inner w slots = .ok (g, slots)) ∧
      (G < w.length → tot.isZero = true →
        residualPolicy inner w slots = .error ⟨.sumMismatch, G, false⟩) ∧
      (G < w.length → tot.isZero = false →
        (∀ rp slots', inner (w.length - G) (r.map fun x => F64.div x tot) slots = .ok (rp, slots') →
          residualPolicy inner w slots = .ok (List.zipWith (· + ·) g rp, slots')) ∧
        (∀ f, inner (w.length - G) (r.map fun x => F64.div x tot) slots = .error f →
          residualPolicy inner w slots = .error f))) ∧
    (w.length < 2 ^ 32 → (∀ x ∈ w, weightBad x = false) →
      (∃ x ∈ w, F64.mul (F64.ofNat w.length) x = .inf false) →
      ∃ G, w.length < G ∧ residualPolicy inner w slots = .error ⟨.sumMismatch, G, false⟩))
end

