-- ==== Sys2Proof/Laws/Encoding.lean ====
section
/-! SUPPORT. The fields of a command word that was put together from them (spec/30_encoding.md R71), and the opcode map read both
ways (R80). -/

namespace Sys2Proof

variable (opc sub : BitVec 8) (slot : BitVec 32)

theorem getLsbD_makeCw (i : Nat) : (makeCw opc sub slot).getLsbD i =
    if i < 8 then opc.getLsbD i else if i < 16 then sub.getLsbD (i - 8)
    else if i < 32 then false else slot.getLsbD (i - 32) := by
  unfold makeCw
  simp only [BitVec.getLsbD_append]
  split_ifs <;> simp_all <;> omega

@[simp] theorem opcOf_makeCw : opcOf (makeCw opc sub slot) = opc := by
  apply BitVec.eq_of_getLsbD_eq
  intro i hi
  simp [opcOf, getLsbD_makeCw, hi]

@[simp] theorem subOf_makeCw : subOf (makeCw opc sub slot) = sub := by
  apply BitVec.eq_of_getLsbD_eq
  intro i hi
  have h1 : ¬ 8 + i < 8 := by omega
  have h2 : 8 + i < 16 := by omega
  simp [subOf, getLsbD_makeCw, hi, h2]

@[simp] theorem rsvOf_makeCw : rsvOf (makeCw opc sub slot) = 0 := by
  apply BitVec.eq_of_getLsbD_eq
  intro i hi
  have h1 : ¬ 16 + i < 8 := by omega
  have h2 : ¬ 16 + i < 16 := by omega
  have h3 : 16 + i < 32 := by omega
  simp [rsvOf, getLsbD_makeCw, h1, h3]

@[simp] theorem slotFieldOf_makeCw : slotFieldOf (makeCw opc sub slot) = slot := by
  apply BitVec.eq_of_getLsbD_eq
  intro i hi
  have h1 : ¬ 32 + i < 8 := by omega
  have h2 : ¬ 32 + i < 16 := by omega
  simp [slotFieldOf, getLsbD_makeCw, hi, h1, h2]

/-- A command word with RSV 0 is put together from its fields. -/
theorem makeCw_fields (cw : Word) (h : rsvOf cw = 0) : makeCw (opcOf cw) (subOf cw) (slotFieldOf cw) = cw := by
  apply BitVec.eq_of_getLsbD_eq
  intro i hi
  rw [getLsbD_makeCw]
  split_ifs with h1 h2 h3
  · simp [opcOf, h1]
  · rw [subOf, BitVec.getLsbD_extractLsb', show 8 + (i - 8) = i by omega]
    simp [show i - 8 < 8 by omega]
  · have h4 := congrArg (fun v => v.getLsbD (i - 16)) h
    simp only [rsvOf, BitVec.getLsbD_extractLsb', show 16 + (i - 16) = i by omega,
      show i - 16 < 16 by omega] at h4
    simpa using h4.symm
  · rw [slotFieldOf, BitVec.getLsbD_extractLsb', show 32 + (i - 32) = i by omega]
    simp [show i - 32 < 32 by omega]

@[simp] theorem ofCode_code (op : Opcode) : Opcode.ofCode op.code = some op := by
  cases op <;> rfl

/-- The map names an opcode only by its own code. -/
theorem code_of_ofCode {v : BitVec 8} {op : Opcode} (h : Opcode.ofCode v = some op) : op.code = v := by
  revert op
  revert v
  decide +kernel

@[simp] theorem ofNumber_number (csr : Csr) : Csr.ofNumber csr.number = some csr := by
  cases csr <;> rfl

/-- The map names a CSR only by its own number. -/
theorem number_of_ofNumber {v : BitVec 8} {csr : Csr} (h : Csr.ofNumber v = some csr) : csr.number = v := by
  revert csr
  revert v
  decide +kernel

end Sys2Proof
end

