-- ==== Sys2Proof/Laws/Memory.lean ====
section
/-! SUPPORT. Host memory: reading after writing, and every memory operation keeps the canonical form (spec/20_memory.md R50-R53). -/

namespace Sys2Proof.Machine

theorem wfFrom_mono {m : Memory} {lo lo' : Nat} (hle : lo' ≤ lo) (h : m.wfFrom lo = true) :
    m.wfFrom lo' = true := by
  cases m with
  | nil => rfl
  | cons c rest =>
    obtain ⟨k, v⟩ := c
    simp only [Memory.wfFrom, Bool.and_eq_true, decide_eq_true_eq] at h ⊢
    exact ⟨⟨⟨by omega, h.1.1.2⟩, h.1.2⟩, h.2⟩

/-- An address below every listed one is not listed. -/
theorem byteAt_below {m : Memory} {lo a : Nat} (h : m.wfFrom lo = true) (ha : a < lo) :
    m.byteAt a = unlistedByte := by
  induction m generalizing lo with
  | nil => rfl
  | cons c rest ih =>
    obtain ⟨k, v⟩ := c
    simp only [Memory.wfFrom, Bool.and_eq_true, decide_eq_true_eq] at h
    rw [Memory.byteAt, if_neg (by omega)]
    exact ih h.2 (by omega)

theorem byteAt_set_ne (m : Memory) {a b : Nat} (v : Byte) (hab : b ≠ a) :
    (m.set a v).byteAt b = m.byteAt b := by
  induction m with
  | nil => simp only [Memory.set]; split <;> simp [Memory.byteAt, Ne.symm hab]
  | cons c rest ih =>
    obtain ⟨k, x⟩ := c
    have hb : a ≠ b := Ne.symm hab
    simp only [Memory.set]
    split_ifs with h1 h2 h3 h4
    · rfl
    · simp [Memory.byteAt, hb]
    · simp [Memory.byteAt, ← h3, hb]
    · simp [Memory.byteAt, ← h3, hb]
    · simp only [Memory.byteAt, ih]

theorem byteAt_set_same {m : Memory} {lo : Nat} (h : m.wfFrom lo = true) (a : Nat) (v : Byte) :
    (m.set a v).byteAt a = v := by
  induction m generalizing lo with
  | nil => simp only [Memory.set]; split <;> simp_all [Memory.byteAt]
  | cons c rest ih =>
    obtain ⟨k, x⟩ := c
    simp only [Memory.wfFrom, Bool.and_eq_true, decide_eq_true_eq] at h
    simp only [Memory.set]
    split_ifs with h1 h2 h3 h4
    · subst h2
      rw [Memory.byteAt, if_neg (by omega)]
      exact byteAt_below h.2 (by omega)
    · simp [Memory.byteAt]
    · subst h3
      subst h4
      exact byteAt_below h.2 (by omega)
    · simp [Memory.byteAt]
    · rw [Memory.byteAt, if_neg (by omega)]
      exact ih h.2

theorem wfFrom_set {m : Memory} {lo a : Nat} (h : m.wfFrom lo = true) (hlo : lo ≤ a)
    (ha : a < 2 ^ 64) (v : Byte) : (m.set a v).wfFrom lo = true := by
  induction m generalizing lo with
  | nil =>
    simp only [Memory.set]
    split
    · rfl
    · simp_all [Memory.wfFrom]
  | cons c rest ih =>
    obtain ⟨k, x⟩ := c
    have h' := h
    simp only [Memory.wfFrom, Bool.and_eq_true, decide_eq_true_eq] at h
    simp only [Memory.set]
    split_ifs with h1 h2 h3 h4
    · exact h'
    · simp only [Memory.wfFrom, Bool.and_eq_true, decide_eq_true_eq]
      exact ⟨⟨⟨hlo, ha⟩, h2⟩, ⟨⟨⟨by omega, h.1.1.2⟩, h.1.2⟩, h.2⟩⟩
    · exact wfFrom_mono (by omega) h.2
    · simp only [Memory.wfFrom, Bool.and_eq_true, decide_eq_true_eq]
      exact ⟨⟨⟨hlo, ha⟩, h4⟩, wfFrom_mono (by omega) h.2⟩
    · simp only [Memory.wfFrom, Bool.and_eq_true, decide_eq_true_eq]
      exact ⟨⟨⟨h.1.1.1, h.1.1.2⟩, h.1.2⟩, ih h.2 (by omega)⟩

/-- Writing one byte keeps the canonical form. -/
theorem wf_set {m : Memory} (h : m.wf = true) (a : Word) (v : Byte) : (m.set a.toNat v).wf = true :=
  wfFrom_set h (Nat.zero_le _) a.isLt v

/-- Writing bytes keeps the canonical form. -/
theorem wf_write {m : Memory} (h : m.wf = true) (a : Word) (bs : List Byte) : (m.write a bs).wf = true := by
  induction bs generalizing m a with
  | nil => exact h
  | cons b bs ih => exact ih (wf_set h a b) (a + 1)

/-- Writing a word keeps the canonical form. -/
theorem wf_writeWord {m : Memory} (h : m.wf = true) (a : Word) (v : Nat) : (m.writeWord a v).wf = true :=
  wf_write h a _

/-- A byte outside the written ones reads as before. -/
theorem byteAt_write_outside (m : Memory) (a b : Word) (bs : List Byte)
    (h : ∀ k, k < bs.length → b ≠ a + BitVec.ofNat 64 k) :
    (m.write a bs).byteAt b.toNat = m.byteAt b.toNat := by
  induction bs generalizing m a with
  | nil => rfl
  | cons x bs ih =>
    rw [Memory.write, ih]
    · refine byteAt_set_ne m x fun hab => ?_
      have h0 := h 0 (by simp)
      simp only [BitVec.add_zero] at h0
      exact h0 (BitVec.eq_of_toNat_eq hab)
    · intro k hk hb
      refine h (k + 1) (by simpa using hk) ?_
      rw [hb, BitVec.add_assoc, BitVec.ofNat_add k 1, BitVec.add_comm (BitVec.ofNat 64 k)]
      rfl

@[simp] theorem read_length (m : Memory) (n : Nat) (a : Word) : (m.read n a).length = n := by
  induction n generalizing a with
  | zero => rfl
  | succ n ih => simp [Memory.read, ih]

/-- The bytes of a read. -/
theorem read_getD (m : Memory) (n : Nat) (a : Word) (k : Nat) (hk : k < n) :
    (m.read n a).getD k 0 = m.byteAt (a + BitVec.ofNat 64 k).toNat := by
  induction n generalizing a k with
  | zero => omega
  | succ n ih =>
    match k with
    | 0 => simp [Memory.read]
    | k + 1 =>
      rw [Memory.read, List.getD_cons_succ, ih (a + 1) k (by omega), BitVec.add_assoc,
        BitVec.ofNat_add k 1, BitVec.add_comm (BitVec.ofNat 64 k)]
      rfl

/-- Two offsets below 2^64 from one address are equal only if they are the same. -/
theorem offset_inj {a : Word} {j k : Nat} (hj : j < 2 ^ 64) (hk : k < 2 ^ 64)
    (h : a + BitVec.ofNat 64 j = a + BitVec.ofNat 64 k) : j = k := by
  have h1 := congrArg (fun x => (x - a).toNat) h
  simp only [BitVec.add_comm a, BitVec.add_sub_cancel, BitVec.toNat_ofNat] at h1
  rwa [Nat.mod_eq_of_lt hj, Nat.mod_eq_of_lt hk] at h1

/-- A written byte reads as it was written. -/
theorem byteAt_write_inside {m : Memory} (h : m.wf = true) (a : Word) (bs : List Byte) (k : Nat)
    (hk : k < bs.length) (hlen : bs.length ≤ 2 ^ 64) :
    (m.write a bs).byteAt (a + BitVec.ofNat 64 k).toNat = bs.getD k 0 := by
  induction bs generalizing m a k with
  | nil => simp at hk
  | cons b bs ih =>
    simp only [List.length_cons] at hk hlen
    match k with
    | 0 =>
      rw [Memory.write, byteAt_write_outside]
      · simpa using byteAt_set_same h a.toNat b
      · intro j hj hc
        have h1 : a + BitVec.ofNat 64 0 = a + BitVec.ofNat 64 (j + 1) := by
          rw [hc, BitVec.add_assoc, BitVec.ofNat_add j 1, BitVec.add_comm (BitVec.ofNat 64 j)]
          rfl
        exact absurd (offset_inj (by omega) (by omega) h1) (by omega)
    | k + 1 =>
      have h1 : a + BitVec.ofNat 64 (k + 1) = a + 1 + BitVec.ofNat 64 k := by
        rw [BitVec.add_assoc, BitVec.ofNat_add k 1, BitVec.add_comm (BitVec.ofNat 64 k)]
        rfl
      rw [Memory.write, List.getD_cons_succ, h1]
      exact ih (wf_set h a b) (a + 1) k (by omega) (by omega)

/-- What was written is read back. -/
theorem read_write_same {m : Memory} (h : m.wf = true) (a : Word) (bs : List Byte) (hlen : bs.length ≤ 2 ^ 64) :
    (m.write a bs).read bs.length a = bs := by
  apply List.ext_getElem (by simp)
  intro k h1 h2
  have h3 := read_getD (m.write a bs) bs.length a k h2
  rw [byteAt_write_inside h a bs k h2 hlen] at h3
  simpa [h1, h2] using h3

/-- A read of bytes that were not written reads as before. -/
theorem read_write_outside (m : Memory) (a b : Word) (bs : List Byte) (n : Nat)
    (h : ∀ j k, j < n → k < bs.length → b + BitVec.ofNat 64 j ≠ a + BitVec.ofNat 64 k) :
    (m.write a bs).read n b = m.read n b := by
  apply List.ext_getElem (by simp)
  intro j h1 h2
  have hj : j < n := by simpa using h1
  have h3 := read_getD (m.write a bs) n b j hj
  rw [byteAt_write_outside m a _ bs fun k hk => h j k hj hk, ← read_getD m n b j hj] at h3
  simpa [h1, h2, hj] using h3

@[simp] theorem leBytes_length (n v : Nat) : (leBytes n v).length = n := by
  induction n generalizing v with
  | zero => rfl
  | succ n ih => simp [leBytes, ih]

/-- Little-endian bytes and their value (R52). -/
theorem leNat_leBytes (n v : Nat) : leNat (leBytes n v) = v % 256 ^ n := by
  induction n generalizing v with
  | zero => simp [leBytes, leNat, Nat.mod_one]
  | succ n ih =>
    rw [show 256 ^ (n + 1) = 256 * 256 ^ n by ring, Nat.mod_mul]
    simp [leBytes, leNat, ih]

/-- A written word is read back (R52, R53). -/
theorem readWord_writeWord_same {m : Memory} (h : m.wf = true) (a : Word) (v : Nat) :
    (m.writeWord a v).readWord a = BitVec.ofNat 64 v := by
  have h1 := read_write_same h a (leBytes 8 v) (by simp)
  rw [leBytes_length] at h1
  rw [Memory.readWord, Memory.writeWord, h1, leNat_leBytes]
  apply BitVec.eq_of_toNat_eq
  simp

/-- A word at least 8 bytes from a written one reads as before. -/
theorem readWord_writeWord_far (m : Memory) (a b : Word) (v : Nat)
    (h : ∀ j k, j < 8 → k < 8 → b + BitVec.ofNat 64 j ≠ a + BitVec.ofNat 64 k) :
    (m.writeWord a v).readWord b = m.readWord b := by
  rw [Memory.readWord, Memory.writeWord, read_write_outside m a b _ 8 (by simpa using h)]
  rfl

end Sys2Proof.Machine
end

