-- ==== Sys2Proof/Laws/State.lean ====
section
/-! SUPPORT. One lemma per field per named update of the state, so that no later proof unfolds a record update. -/

namespace Sys2Proof.Machine

variable (s : State)

/-! ### setSlot -/

@[simp] theorem setSlot_cfg (k : Nat) (sl : Slot) : (s.setSlot k sl).cfg = s.cfg := rfl
@[simp] theorem setSlot_slots (k : Nat) (sl : Slot) : (s.setSlot k sl).slots = s.slots.set k (some sl) := rfl
@[simp] theorem setSlot_statusFault (k : Nat) (sl : Slot) : (s.setSlot k sl).statusFault = s.statusFault := rfl
@[simp] theorem setSlot_statusCause (k : Nat) (sl : Slot) : (s.setSlot k sl).statusCause = s.statusCause := rfl
@[simp] theorem setSlot_faultInfo (k : Nat) (sl : Slot) : (s.setSlot k sl).faultInfo = s.faultInfo := rfl
@[simp] theorem setSlot_faultLoc (k : Nat) (sl : Slot) : (s.setSlot k sl).faultLoc = s.faultLoc := rfl
@[simp] theorem setSlot_inflight (k : Nat) (sl : Slot) : (s.setSlot k sl).inflight = s.inflight := rfl
@[simp] theorem setSlot_mem (k : Nat) (sl : Slot) : (s.setSlot k sl).mem = s.mem := rfl
@[simp] theorem setSlot_inputs (k : Nat) (sl : Slot) : (s.setSlot k sl).inputs = s.inputs := rfl
@[simp] theorem setSlot_outputs (k : Nat) (sl : Slot) : (s.setSlot k sl).outputs = s.outputs := rfl
@[simp] theorem setSlot_serving (k : Nat) (sl : Slot) : (s.setSlot k sl).serving = s.serving := rfl
@[simp] theorem setSlot_freeCount (k : Nat) (sl : Slot) : (s.setSlot k sl).freeCount = s.freeCount := rfl

/-! ### withInputs -/

@[simp] theorem withInputs_cfg (rest : List Event) : (s.withInputs rest).cfg = s.cfg := rfl
@[simp] theorem withInputs_slots (rest : List Event) : (s.withInputs rest).slots = s.slots := rfl
@[simp] theorem withInputs_statusFault (rest : List Event) : (s.withInputs rest).statusFault = s.statusFault := rfl
@[simp] theorem withInputs_statusCause (rest : List Event) : (s.withInputs rest).statusCause = s.statusCause := rfl
@[simp] theorem withInputs_faultInfo (rest : List Event) : (s.withInputs rest).faultInfo = s.faultInfo := rfl
@[simp] theorem withInputs_faultLoc (rest : List Event) : (s.withInputs rest).faultLoc = s.faultLoc := rfl
@[simp] theorem withInputs_inflight (rest : List Event) : (s.withInputs rest).inflight = s.inflight := rfl
@[simp] theorem withInputs_mem (rest : List Event) : (s.withInputs rest).mem = s.mem := rfl
@[simp] theorem withInputs_inputs (rest : List Event) : (s.withInputs rest).inputs = rest := rfl
@[simp] theorem withInputs_outputs (rest : List Event) : (s.withInputs rest).outputs = s.outputs := rfl
@[simp] theorem withInputs_serving (rest : List Event) : (s.withInputs rest).serving = s.serving := rfl
@[simp] theorem withInputs_freeCount (rest : List Event) : (s.withInputs rest).freeCount = s.freeCount := rfl

/-! ### serve -/

@[simp] theorem serve_cfg (q : Nat) : (serve q s).cfg = s.cfg := rfl
@[simp] theorem serve_slots (q : Nat) : (serve q s).slots = s.slots := rfl
@[simp] theorem serve_statusFault (q : Nat) : (serve q s).statusFault = s.statusFault := rfl
@[simp] theorem serve_statusCause (q : Nat) : (serve q s).statusCause = s.statusCause := rfl
@[simp] theorem serve_faultInfo (q : Nat) : (serve q s).faultInfo = s.faultInfo := rfl
@[simp] theorem serve_faultLoc (q : Nat) : (serve q s).faultLoc = s.faultLoc := rfl
@[simp] theorem serve_inflight (q : Nat) : (serve q s).inflight = s.inflight := rfl
@[simp] theorem serve_mem (q : Nat) : (serve q s).mem = s.mem := rfl
@[simp] theorem serve_inputs (q : Nat) : (serve q s).inputs = s.inputs := rfl
@[simp] theorem serve_outputs (q : Nat) : (serve q s).outputs = s.outputs := rfl
@[simp] theorem serve_serving (q : Nat) : (serve q s).serving = q := rfl
@[simp] theorem serve_freeCount (q : Nat) : (serve q s).freeCount = s.freeCount := rfl

/-! ### respond -/

@[simp] theorem respond_cfg (result opc : BitVec 8) (data : List Word) : (respond result opc data s).cfg = s.cfg := rfl
@[simp] theorem respond_slots (result opc : BitVec 8) (data : List Word) : (respond result opc data s).slots = s.slots := rfl
@[simp] theorem respond_statusFault (result opc : BitVec 8) (data : List Word) : (respond result opc data s).statusFault = s.statusFault := rfl
@[simp] theorem respond_statusCause (result opc : BitVec 8) (data : List Word) : (respond result opc data s).statusCause = s.statusCause := rfl
@[simp] theorem respond_faultInfo (result opc : BitVec 8) (data : List Word) : (respond result opc data s).faultInfo = s.faultInfo := rfl
@[simp] theorem respond_faultLoc (result opc : BitVec 8) (data : List Word) : (respond result opc data s).faultLoc = s.faultLoc := rfl
@[simp] theorem respond_inflight (result opc : BitVec 8) (data : List Word) : (respond result opc data s).inflight = s.inflight.set s.serving none := rfl
@[simp] theorem respond_mem (result opc : BitVec 8) (data : List Word) : (respond result opc data s).mem = s.mem := rfl
@[simp] theorem respond_inputs (result opc : BitVec 8) (data : List Word) : (respond result opc data s).inputs = s.inputs := rfl
@[simp] theorem respond_outputs (result opc : BitVec 8) (data : List Word) : (respond result opc data s).outputs = .response s.serving (responseWord result opc :: data) :: s.outputs := rfl
@[simp] theorem respond_serving (result opc : BitVec 8) (data : List Word) : (respond result opc data s).serving = s.serving := rfl
@[simp] theorem respond_freeCount (result opc : BitVec 8) (data : List Word) : (respond result opc data s).freeCount = s.freeCount := rfl

/-! ### refuse -/

@[simp] theorem refuse_cfg (opc : BitVec 8) : (refuse opc s).cfg = s.cfg := rfl
@[simp] theorem refuse_slots (opc : BitVec 8) : (refuse opc s).slots = s.slots := rfl
@[simp] theorem refuse_statusFault (opc : BitVec 8) : (refuse opc s).statusFault = s.statusFault := rfl
@[simp] theorem refuse_statusCause (opc : BitVec 8) : (refuse opc s).statusCause = s.statusCause := rfl
@[simp] theorem refuse_faultInfo (opc : BitVec 8) : (refuse opc s).faultInfo = s.faultInfo := rfl
@[simp] theorem refuse_faultLoc (opc : BitVec 8) : (refuse opc s).faultLoc = s.faultLoc := rfl
@[simp] theorem refuse_inflight (opc : BitVec 8) : (refuse opc s).inflight = s.inflight.set s.serving none := rfl
@[simp] theorem refuse_mem (opc : BitVec 8) : (refuse opc s).mem = s.mem := rfl
@[simp] theorem refuse_inputs (opc : BitVec 8) : (refuse opc s).inputs = s.inputs := rfl
@[simp] theorem refuse_outputs (opc : BitVec 8) : (refuse opc s).outputs = .response s.serving [responseWord Cause.refused.code opc] :: s.outputs := rfl
@[simp] theorem refuse_serving (opc : BitVec 8) : (refuse opc s).serving = s.serving := rfl
@[simp] theorem refuse_freeCount (opc : BitVec 8) : (refuse opc s).freeCount = s.freeCount := rfl

/-! ### resetUnit -/

@[simp] theorem resetUnit_cfg : (resetUnit s).cfg = s.cfg := rfl
@[simp] theorem resetUnit_slots : (resetUnit s).slots = List.replicate s.cfg.nstreams none := rfl
@[simp] theorem resetUnit_statusFault : (resetUnit s).statusFault = false := rfl
@[simp] theorem resetUnit_statusCause : (resetUnit s).statusCause = 0 := rfl
@[simp] theorem resetUnit_faultInfo : (resetUnit s).faultInfo = 0 := rfl
@[simp] theorem resetUnit_faultLoc : (resetUnit s).faultLoc = 0 := rfl
@[simp] theorem resetUnit_inflight : (resetUnit s).inflight = List.replicate s.cfg.p none := rfl
@[simp] theorem resetUnit_mem : (resetUnit s).mem = s.mem := rfl
@[simp] theorem resetUnit_inputs : (resetUnit s).inputs = s.inputs := rfl
@[simp] theorem resetUnit_outputs : (resetUnit s).outputs = s.outputs := rfl
@[simp] theorem resetUnit_serving : (resetUnit s).serving = s.serving := rfl
@[simp] theorem resetUnit_freeCount : (resetUnit s).freeCount = s.freeCount := rfl

/-! ### withFetchWord -/

@[simp] theorem withFetchWord_cfg (nbits w : Nat) : (s.withFetchWord nbits w).cfg = s.cfg := rfl
@[simp] theorem withFetchWord_slots (nbits w : Nat) : (s.withFetchWord nbits w).slots = s.slots := rfl
@[simp] theorem withFetchWord_statusFault (nbits w : Nat) : (s.withFetchWord nbits w).statusFault = s.statusFault := rfl
@[simp] theorem withFetchWord_statusCause (nbits w : Nat) : (s.withFetchWord nbits w).statusCause = s.statusCause := rfl
@[simp] theorem withFetchWord_faultInfo (nbits w : Nat) : (s.withFetchWord nbits w).faultInfo = s.faultInfo := rfl
@[simp] theorem withFetchWord_faultLoc (nbits w : Nat) : (s.withFetchWord nbits w).faultLoc = s.faultLoc := rfl
@[simp] theorem withFetchWord_inflight (nbits w : Nat) : (s.withFetchWord nbits w).inflight = s.inflight.set 0 (some (inFlightOf s.cfg (tableMessage s.cfg nbits w))) := rfl
@[simp] theorem withFetchWord_mem (nbits w : Nat) : (s.withFetchWord nbits w).mem = s.mem := rfl
@[simp] theorem withFetchWord_inputs (nbits w : Nat) : (s.withFetchWord nbits w).inputs = .complete 0 :: s.inputs := rfl
@[simp] theorem withFetchWord_outputs (nbits w : Nat) : (s.withFetchWord nbits w).outputs = s.outputs := rfl
@[simp] theorem withFetchWord_serving (nbits w : Nat) : (s.withFetchWord nbits w).serving = s.serving := rfl
@[simp] theorem withFetchWord_freeCount (nbits w : Nat) : (s.withFetchWord nbits w).freeCount = s.freeCount := rfl

/-! ### recordFault -/

@[simp] theorem recordFault_cfg (q : Nat) (opc : BitVec 8) (slot : BitVec 32) (r : Raise) :
    (recordFault q opc slot r s).cfg = s.cfg := by
  unfold recordFault; split <;> simp_all
@[simp] theorem recordFault_slots (q : Nat) (opc : BitVec 8) (slot : BitVec 32) (r : Raise) :
    (recordFault q opc slot r s).slots = s.slots := by
  unfold recordFault; split <;> simp_all
@[simp] theorem recordFault_statusFault (q : Nat) (opc : BitVec 8) (slot : BitVec 32) (r : Raise) :
    (recordFault q opc slot r s).statusFault = true := by
  unfold recordFault; split <;> simp_all
@[simp] theorem recordFault_statusCause (q : Nat) (opc : BitVec 8) (slot : BitVec 32) (r : Raise) :
    (recordFault q opc slot r s).statusCause = if s.statusFault then s.statusCause else r.cause.code := by
  unfold recordFault; split <;> simp_all
@[simp] theorem recordFault_faultInfo (q : Nat) (opc : BitVec 8) (slot : BitVec 32) (r : Raise) :
    (recordFault q opc slot r s).faultInfo = if s.statusFault then s.faultInfo else r.info := by
  unfold recordFault; split <;> simp_all
@[simp] theorem recordFault_faultLoc (q : Nat) (opc : BitVec 8) (slot : BitVec 32) (r : Raise) :
    (recordFault q opc slot r s).faultLoc = if s.statusFault then s.faultLoc else locWord slot q opc := by
  unfold recordFault; split <;> simp_all
@[simp] theorem recordFault_inflight (q : Nat) (opc : BitVec 8) (slot : BitVec 32) (r : Raise) :
    (recordFault q opc slot r s).inflight = s.inflight := by
  unfold recordFault; split <;> simp_all
@[simp] theorem recordFault_mem (q : Nat) (opc : BitVec 8) (slot : BitVec 32) (r : Raise) :
    (recordFault q opc slot r s).mem = s.mem := by
  unfold recordFault; split <;> simp_all
@[simp] theorem recordFault_inputs (q : Nat) (opc : BitVec 8) (slot : BitVec 32) (r : Raise) :
    (recordFault q opc slot r s).inputs = s.inputs := by
  unfold recordFault; split <;> simp_all
@[simp] theorem recordFault_outputs (q : Nat) (opc : BitVec 8) (slot : BitVec 32) (r : Raise) :
    (recordFault q opc slot r s).outputs = s.outputs := by
  unfold recordFault; split <;> simp_all
@[simp] theorem recordFault_serving (q : Nat) (opc : BitVec 8) (slot : BitVec 32) (r : Raise) :
    (recordFault q opc slot r s).serving = s.serving := by
  unfold recordFault; split <;> simp_all
@[simp] theorem recordFault_freeCount (q : Nat) (opc : BitVec 8) (slot : BitVec 32) (r : Raise) :
    (recordFault q opc slot r s).freeCount = s.freeCount := by
  unfold recordFault; split <;> simp_all

/-! ### takeFault -/

@[simp] theorem takeFault_cfg (opc : BitVec 8) (slot : BitVec 32) (r : Raise) :
    (takeFault opc slot r s).cfg = s.cfg := by
  simp [takeFault]
@[simp] theorem takeFault_slots (opc : BitVec 8) (slot : BitVec 32) (r : Raise) :
    (takeFault opc slot r s).slots = s.slots := by
  simp [takeFault]
@[simp] theorem takeFault_statusFault (opc : BitVec 8) (slot : BitVec 32) (r : Raise) :
    (takeFault opc slot r s).statusFault = true := by
  simp [takeFault]
@[simp] theorem takeFault_statusCause (opc : BitVec 8) (slot : BitVec 32) (r : Raise) :
    (takeFault opc slot r s).statusCause = if s.statusFault then s.statusCause else r.cause.code := by
  simp [takeFault]
@[simp] theorem takeFault_faultInfo (opc : BitVec 8) (slot : BitVec 32) (r : Raise) :
    (takeFault opc slot r s).faultInfo = if s.statusFault then s.faultInfo else r.info := by
  simp [takeFault]
@[simp] theorem takeFault_faultLoc (opc : BitVec 8) (slot : BitVec 32) (r : Raise) :
    (takeFault opc slot r s).faultLoc = if s.statusFault then s.faultLoc else locWord slot s.serving opc := by
  simp [takeFault]
@[simp] theorem takeFault_inflight (opc : BitVec 8) (slot : BitVec 32) (r : Raise) :
    (takeFault opc slot r s).inflight = s.inflight.set s.serving none := by
  simp [takeFault]
@[simp] theorem takeFault_mem (opc : BitVec 8) (slot : BitVec 32) (r : Raise) :
    (takeFault opc slot r s).mem = s.mem := by
  simp [takeFault]
@[simp] theorem takeFault_inputs (opc : BitVec 8) (slot : BitVec 32) (r : Raise) :
    (takeFault opc slot r s).inputs = s.inputs := by
  simp [takeFault]
@[simp] theorem takeFault_outputs (opc : BitVec 8) (slot : BitVec 32) (r : Raise) :
    (takeFault opc slot r s).outputs = .response s.serving [responseWord r.cause.code opc] :: s.outputs := by
  simp [takeFault]
@[simp] theorem takeFault_serving (opc : BitVec 8) (slot : BitVec 32) (r : Raise) :
    (takeFault opc slot r s).serving = s.serving := by
  simp [takeFault]
@[simp] theorem takeFault_freeCount (opc : BitVec 8) (slot : BitVec 32) (r : Raise) :
    (takeFault opc slot r s).freeCount = s.freeCount := by
  simp [takeFault]

/-! ### Reading a slot and an in-flight record -/

theorem slot_setSlot_same (k : Nat) (sl : Slot) (h : k < s.slots.length) :
    (s.setSlot k sl).slot k = some sl := by
  simp [State.slot, h]

theorem slot_setSlot_ne (k j : Nat) (sl : Slot) (h : j ≠ k) : (s.setSlot k sl).slot j = s.slot j := by
  simp [State.slot, Ne.symm h]

/-- A constructed slot is one of the slots. -/
theorem slot_lt {k : Nat} {sl : Slot} (h : s.slot k = some sl) : k < s.slots.length := by
  by_contra hk
  simp [State.slot, List.getElem?_eq_none (Nat.le_of_not_lt hk)] at h

theorem inFlight_respond_same (result opc : BitVec 8) (data : List Word) :
    (respond result opc data s).inFlight s.serving = none := by
  by_cases h : s.serving < s.inflight.length <;> simp [State.inFlight, h]

theorem inFlight_respond_ne (result opc : BitVec 8) (data : List Word) (q : Nat) (h : q ≠ s.serving) :
    (respond result opc data s).inFlight q = s.inFlight q := by
  simp [State.inFlight, Ne.symm h]

end Sys2Proof.Machine
end

