-- ==== Sys2Proof/Laws/Ops.lean ====
section
/-! SUPPORT. One lemma for each shared operation that says once everything it can do; the provers cite these instead of
unfolding the operations. -/

namespace Sys2Proof.Machine

/-! ### The end of a command -/

/-- A completion step is refused, or it is the command's own end (R244, R252). -/
theorem perform_eq (i : Instr) (body : State → CmdResult) (s : State) :
    perform i body s =
      .next (if s.statusFault = true ∧ i.opcode ≠ .csrRead then refuse i.opcode.code s
        else (body s).finish i) := by
  unfold perform; split <;> simp_all

/-- While STATUS.FAULT = 0 every command is performed. -/
theorem perform_running {i : Instr} {body : State → CmdResult} {s : State} (h : s.statusFault = false) :
    perform i body s = .next ((body s).finish i) := by
  simp [perform, h]

/-- In the fault state every command but CSR_READ is refused. -/
theorem perform_refused {i : Instr} {body : State → CmdResult} {s : State} (h : s.statusFault = true)
    (hi : i.opcode ≠ .csrRead) : perform i body s = .next (refuse i.opcode.code s) := by
  simp [perform, h, hi]

@[simp] theorem finish_done (i : Instr) (s : State) (data : List Word) :
    (CmdResult.done s data).finish i = respond 0x00 i.opcode.code data s := rfl

@[simp] theorem finish_raised (i : Instr) (r : Raise) (s : State) :
    (CmdResult.raised r s).finish i = takeFault i.opcode.code i.slotField r s := rfl

/-- A command that is done on a state with the frame of the state before it is Completed. -/
theorem completed_respond (i : Instr) (data : List Word) {s s' : State} (ho : s'.outputs = s.outputs)
    (hi : s'.inflight = s.inflight) (hf : Framed s s') :
    Completed i data s (respond 0 i.opcode.code data s') where
  response := by simp [ho, hf.serving]
  inflight := by simp [hi, hf.serving]
  frame := ⟨hf.cfg, hf.inputs, hf.serving, hf.freeCount, hf.statusFault, hf.statusCause, hf.faultInfo,
    hf.faultLoc⟩

/-- The first fault has every part of Faulted. -/
theorem faulted_takeFault (opc : BitVec 8) (slot : BitVec 32) (r : Raise) {s : State}
    (h : s.statusFault = false) : Faulted opc slot r s (takeFault opc slot r s) := by
  constructor <;> simp [h]

/-! ### The slot prologue -/

/-- What the slot prologue comes to (R180). -/
theorem onSlot_cases (slot : BitVec 32) (s : State) (f : Nat → CmdResult) :
    (slotIndex s.cfg slot = none ∧ onSlot slot s f = .raised ⟨.badSlot, slot.setWidth 64⟩ s) ∨
    (∃ k, slotIndex s.cfg slot = some k ∧ onSlot slot s f = f k) := by
  unfold onSlot
  cases h : slotIndex s.cfg slot <;> simp

/-- What the slot prologue with the check of VALID comes to (R180, R242). -/
theorem onValidSlot_cases (slot : BitVec 32) (s : State) (f : Nat → Slot → CmdResult) :
    (slotIndex s.cfg slot = none ∧ onValidSlot slot s f = .raised ⟨.badSlot, slot.setWidth 64⟩ s) ∨
    (∃ k, slotIndex s.cfg slot = some k ∧ s.slot k = none ∧
      onValidSlot slot s f = .raised ⟨.uninitialised, BitVec.ofNat 64 k⟩ s) ∨
    (∃ k sl, slotIndex s.cfg slot = some k ∧ s.slot k = some sl ∧ onValidSlot slot s f = f k sl) := by
  unfold onValidSlot onSlot
  cases h : slotIndex s.cfg slot with
  | none => exact .inl ⟨rfl, rfl⟩
  | some k => cases h' : s.slot k <;> simp [h']

/-- The slot a SLOT field names is one of the NSTREAMS slots of a legal instance (R180). -/
theorem slotIndex_lt {c : Config} (hc : c.legal = true) {slot : BitVec 32} {k : Nat}
    (h : slotIndex c slot = some k) : k < c.nstreams := by
  simp only [Config.legal, Bool.and_eq_true, decide_eq_true_eq] at hc
  unfold slotIndex at h
  split at h
  · cases h; omega
  · split at h <;> simp_all

/-! ### The search of the checks -/

/-- The search answers nothing exactly when nothing in its range does. -/
theorem firstFrom_none {α : Type} (count i : Nat) (f : Nat → Option α) :
    firstFrom count i f = none ↔ ∀ j, i ≤ j → j < i + count → f j = none := by
  induction count generalizing i with
  | zero => simp [firstFrom]; omega
  | succ n ih =>
    unfold firstFrom
    cases hi : f i with
    | some x =>
      simp only [reduceCtorEq, false_iff, not_forall]
      exact ⟨i, le_refl _, by omega, by simp [hi]⟩
    | none =>
      rw [ih]
      constructor
      · intro h j h1 h2
        rcases Nat.eq_or_lt_of_le h1 with rfl | h1
        · exact hi
        · exact h j h1 (by omega)
      · intro h j h1 h2
        exact h j (by omega) (by omega)

/-- The search answers what the first place in its range answers. -/
theorem firstFrom_some {α : Type} {count i : Nat} {f : Nat → Option α} {x : α}
    (h : firstFrom count i f = some x) :
    ∃ j, i ≤ j ∧ j < i + count ∧ f j = some x ∧ ∀ k, i ≤ k → k < j → f k = none := by
  induction count generalizing i with
  | zero => simp [firstFrom] at h
  | succ n ih =>
    unfold firstFrom at h
    cases hi : f i with
    | some y =>
      rw [hi] at h
      exact ⟨i, le_refl _, by omega, by rw [hi]; exact h, fun k h1 h2 => absurd h2 (by omega)⟩
    | none =>
      rw [hi] at h
      obtain ⟨j, h1, h2, h3, h4⟩ := ih h
      refine ⟨j, by omega, by omega, h3, fun k h5 h6 => ?_⟩
      rcases Nat.eq_or_lt_of_le h5 with rfl | h5
      · exact hi
      · exact h4 k h5 h6

end Sys2Proof.Machine
end

