-- ==== Sys2Proof/Laws/PerInstr.lean ====
section
/-! SUPPORT. Statements made per instruction: the fields of every command's encoding (spec/30_encoding.md R71, R80). -/

namespace Sys2Proof.Laws.EncodedFields

/-- The command word of the encoding has the instruction's OPC, SUB and SLOT, and RSV 0, and the operand words follow it. -/
def Statement (i : Instr) : Prop :=
  ∃ cw, encode i = cw :: i.operands ∧ opcOf cw = i.opcode.code ∧ subOf cw = i.sub ∧ rsvOf cw = 0 ∧
    slotFieldOf cw = i.slotField

theorem of_makeCw (i : Instr) : Statement i := ⟨_, rfl, by simp, by simp, by simp, by simp⟩

theorem csrRead (csr : Csr) (slot : BitVec 32) : Statement (.csrRead csr slot) := of_makeCw _
theorem ctrZero (slot : BitVec 32) : Statement (.ctrZero slot) := of_makeCw _
theorem ctrInc (slot : BitVec 32) : Statement (.ctrInc slot) := of_makeCw _
theorem ctrAdd (slot : BitVec 32) (n : Word) : Statement (.ctrAdd slot n) := of_makeCw _
theorem ctrLoad (slot : BitVec 32) (words : List Word) : Statement (.ctrLoad slot words) := of_makeCw _
theorem ctrRead (slot : BitVec 32) (block : BitVec 8) : Statement (.ctrRead slot block) := of_makeCw _
theorem keyLoad (slot : BitVec 32) (key : List Word) : Statement (.keyLoad slot key) := of_makeCw _
theorem transform (slot : BitVec 32) (block : List Word) : Statement (.transform slot block) := of_makeCw _
theorem seed (slot : BitVec 32) (value : Word) : Statement (.seed slot value) := of_makeCw _
theorem seedSeq (slot : BitVec 32) (values : List Word) : Statement (.seedSeq slot values) := of_makeCw _
theorem seedAll (value : Word) : Statement (.seedAll value) := of_makeCw _
theorem next (slot : BitVec 32) : Statement (.next slot) := of_makeCw _
theorem discard (slot : BitVec 32) (n : Word) : Statement (.discard slot n) := of_makeCw _
theorem resampleMultinomial (o : ResampleOps) : Statement (.resampleMultinomial o) := of_makeCw _
theorem resampleResidual (o : ResampleOps) : Statement (.resampleResidual o) := of_makeCw _
theorem resampleStratified (o : ResampleOps) : Statement (.resampleStratified o) := of_makeCw _
theorem resampleSystematic (o : ResampleOps) : Statement (.resampleSystematic o) := of_makeCw _
theorem resampleResidualStratified (o : ResampleOps) : Statement (.resampleResidualStratified o) :=
  of_makeCw _
theorem resampleResidualSystematic (o : ResampleOps) : Statement (.resampleResidualSystematic o) :=
  of_makeCw _

end Sys2Proof.Laws.EncodedFields
end

