-- ==== Sys2Proof/Laws/Resample.lean ====
section
/-! SUPPORT. What RESAMPLE can do, said once: its checks, the end of its body, its writes, and the shapes of what its policies answer. -/

namespace Sys2Proof.Machine

/-- The body of RESAMPLE ends in one of five ways (R200). -/
theorem resampleBody_cases (policy : Policy) (o : ResampleOps) (s : State) :
    (∃ r, operandCheck o = some r ∧ resampleBody policy o s = .raised r s) ∨
    (operandCheck o = none ∧ o.n = 0 ∧ resampleBody policy o s = .done s []) ∨
    (∃ r, operandCheck o = none ∧ o.n ≠ 0 ∧ resampleCheck o s = some r ∧
      resampleBody policy o s = .raised r s) ∨
    (∃ f, operandCheck o = none ∧ o.n ≠ 0 ∧ resampleCheck o s = none ∧ policyOn policy o s = .error f ∧
      resampleBody policy o s = abort o f s) ∨
    (∃ rep slots, operandCheck o = none ∧ o.n ≠ 0 ∧ resampleCheck o s = none ∧
      policyOn policy o s = .ok (rep, slots) ∧
      resampleBody policy o s =
        .done { s with slots := slots, mem := writeCounts (countFoot o) 0 rep s.mem } []) := by
  unfold resampleBody
  cases h1 : operandCheck o with
  | some r => exact .inl ⟨r, rfl, rfl⟩
  | none =>
    by_cases h2 : o.n = 0
    · exact .inr (.inl ⟨rfl, h2, by simp [h2]⟩)
    · cases h3 : resampleCheck o s with
      | some r => exact .inr (.inr (.inl ⟨r, rfl, h2, rfl, if_neg h2⟩))
      | none =>
        cases h4 : policyOn policy o s with
        | error f => exact .inr (.inr (.inr (.inl ⟨f, rfl, h2, rfl, rfl, if_neg h2⟩)))
        | ok x =>
          exact .inr (.inr (.inr (.inr ⟨x.1, x.2, rfl, h2, rfl, rfl, if_neg h2⟩)))

/-- The operand checks pass exactly under the conditions of R201. -/
theorem operandCheck_none (o : ResampleOps) :
    operandCheck o = none ↔
      0 < o.wstride.toInt ∧ 0 < o.rstride.toInt ∧ o.nw = o.n ∧ o.nrl = o.n ∧ o.n.toNat < 2 ^ 32 := by
  unfold operandCheck stridePositive
  split_ifs <;> simp_all

/-- The slot, memory and weight checks pass exactly when each of them does (R200). -/
theorem resampleCheck_none (o : ResampleOps) (s : State) :
    resampleCheck o s = none ↔
      slotCheck s o.n.toNat = none ∧ memoryCheck s.cfg o = none ∧
        weightCheckFrom 0 (readWeights s.mem (weightFoot o)) = none := by
  unfold resampleCheck
  cases slotCheck s o.n.toNat <;> cases memoryCheck s.cfg o <;> simp

/-- The slot checks pass exactly when every used slot exists and is constructed (R202). -/
theorem slotCheck_none (s : State) (N : Nat) :
    slotCheck s N = none ↔
      (s.cfg.mode = .parallel → N ≤ s.cfg.nstreams) ∧ ∀ k, k < usedSlots s.cfg N → (s.slot k).isSome = true := by
  unfold slotCheck
  split
  · next h => simp only [reduceCtorEq, false_iff]; rintro ⟨h1, -⟩; exact absurd (h1 h.1) (by omega)
  · next h =>
    rw [firstFrom_none]
    constructor
    · intro h1
      refine ⟨fun hm => by by_contra hn; exact h ⟨hm, by omega⟩, fun k hk => ?_⟩
      have h2 := h1 k (Nat.zero_le _) (by omega)
      cases hs : s.slot k with
      | none => simp [hs] at h2
      | some sl => rfl
    · rintro ⟨-, h1⟩ j - hj
      have h2 := h1 j (by omega)
      cases hs : s.slot j with
      | none => simp [hs] at h2
      | some sl => rfl

/-- The bus check passes exactly when every element is reachable (R51, R55). -/
theorem busCheck_none (c : Config) (f : Footprint) :
    busCheck c f = none ↔ ∀ i, i < f.n → reachable c (f.elem i) = true := by
  unfold busCheck
  rw [firstFrom_none]
  constructor
  · intro h i hi
    have h1 := h i (Nat.zero_le _) (by omega)
    by_contra hn
    simp [hn] at h1
  · intro h j _ hj
    simp [h j (by omega)]

/-- The weight check passes exactly when no weight is bad (R205). -/
theorem weightCheckFrom_none (i : Nat) (ws : List F64) :
    weightCheckFrom i ws = none ↔ ∀ w ∈ ws, weightBad w = false := by
  induction ws generalizing i with
  | nil => simp [weightCheckFrom]
  | cons w ws ih =>
    unfold weightCheckFrom
    cases h : weightBad w <;> simp [h, ih]

/-- The weight check answers the first bad weight (R205). -/
theorem weightCheckFrom_some {i : Nat} {ws : List F64} {r : Raise} (h : weightCheckFrom i ws = some r) :
    ∃ j, j < ws.length ∧ r = ⟨.badWeight, BitVec.ofNat 64 (i + j)⟩ ∧ weightBad (ws.getD j .zero) = true ∧
      ∀ k, k < j → weightBad (ws.getD k .zero) = false := by
  induction ws generalizing i with
  | nil => simp [weightCheckFrom] at h
  | cons w ws ih =>
    unfold weightCheckFrom at h
    cases hw : weightBad w
    · simp only [hw, Bool.false_eq_true, if_false] at h
      obtain ⟨j, h1, h2, h3, h4⟩ := ih h
      refine ⟨j + 1, by simpa using h1, by rw [h2, Nat.add_right_comm, Nat.add_assoc], by simpa using h3,
        fun k hk => ?_⟩
      match k with
      | 0 => simpa using hw
      | k + 1 => simpa using h4 k (by omega)
    · simp only [hw, if_true, Option.some.injEq] at h
      exact ⟨0, by simp, h.symm, by simpa using hw, fun k hk => absurd hk (by omega)⟩

@[simp] theorem readWeights_length (m : Memory) (f : Footprint) : (readWeights m f).length = f.n := by
  simp [readWeights]

theorem readWeights_getD (m : Memory) (f : Footprint) (i : Nat) (hi : i < f.n) :
    (readWeights m f).getD i .zero = F64.ofBits (m.readWord (BitVec.ofNat 64 (f.elem i))) := by
  simp [readWeights, hi]

/-- A byte is in a footprint of positive stride exactly when it is one of the 8 bytes of an element (R55). -/
theorem contains_iff (f : Footprint) (hs : 0 < f.stride) (a : Nat) :
    f.contains a = true ↔ ∃ i, i < f.n ∧ f.elem i ≤ a ∧ a < f.elem i + 8 := by
  unfold Footprint.contains Footprint.elem
  simp only [Bool.and_eq_true, decide_eq_true_eq]
  have h8 : 0 < 8 * f.stride := by omega
  constructor
  · rintro ⟨⟨h1, h2⟩, h3⟩
    refine ⟨(a - f.base) / (8 * f.stride), h2, ?_⟩
    have h4 := Nat.div_add_mod (a - f.base) (8 * f.stride)
    have h5 : 8 * ((a - f.base) / (8 * f.stride)) * f.stride = 8 * f.stride * ((a - f.base) / (8 * f.stride)) := by
      ring
    omega
  · rintro ⟨i, hi, h1, h2⟩
    have h5 : 8 * i * f.stride = 8 * f.stride * i := by ring
    have h6 : a - f.base = 8 * f.stride * i + (a - f.base - 8 * f.stride * i) := by omega
    have h7 : a - f.base - 8 * f.stride * i < 8 := by omega
    refine ⟨⟨by omega, ?_⟩, ?_⟩
    · rw [h6, Nat.mul_add_div h8, Nat.div_eq_of_lt (by omega)]
      omega
    · rw [h6, Nat.mul_add_mod, Nat.mod_eq_of_lt (by omega)]
      exact h7

/-- Writing the counts keeps the canonical form of memory. -/
theorem wf_writeCounts {m : Memory} (h : m.wf = true) (f : Footprint) (i : Nat) (ks : List Nat) :
    (writeCounts f i ks m).wf = true := by
  induction ks generalizing i m with
  | nil => exact h
  | cons k ks ih => exact ih (wf_writeWord h _ k) (i + 1)

/-- Freeing the bytes of elements keeps the canonical form of memory. -/
theorem wf_freeElems {m : Memory} (h : m.wf = true) (c : Config) (use : Nat) (f : Footprint) (count : Nat) :
    (freeElems c use f count m).wf = true := by
  induction count with
  | zero => exact h
  | succ n ih => exact wf_write ih _ _

/-- What an aborted policy leaves unchanged. -/
theorem abortedState_frame (o : ResampleOps) (f : PolicyFault) (s : State) :
    (abortedState o f s).cfg = s.cfg ∧ (abortedState o f s).statusFault = s.statusFault ∧
      (abortedState o f s).statusCause = s.statusCause ∧ (abortedState o f s).faultInfo = s.faultInfo ∧
      (abortedState o f s).faultLoc = s.faultLoc ∧ (abortedState o f s).inflight = s.inflight ∧
      (abortedState o f s).inputs = s.inputs ∧ (abortedState o f s).outputs = s.outputs ∧
      (abortedState o f s).serving = s.serving := by
  unfold abortedState
  split <;> simp

@[simp] theorem freeSlots_length (c : Config) (use count : Nat) (slots : List (Option Slot)) :
    (freeSlots c use count slots).length = slots.length := by
  induction count with
  | zero => rfl
  | succ n ih => simp [freeSlots, ih]

/-! ### What the policies answer -/

/-- Adding a count in front. -/
theorem push_ok {k : Nat} {r : PolicyResult} {rep : List Nat} {slots : List (Option Slot)}
    (h : r.push k = .ok (rep, slots)) : ∃ rest, r = .ok (rest, slots) ∧ rep = k :: rest := by
  cases r with
  | ok x =>
    obtain ⟨rest, sl⟩ := x
    simp only [PolicyResult.push, Except.ok.injEq, Prod.mk.injEq] at h
    exact ⟨rest, by rw [h.2], h.1.symm⟩
  | error f => simp [PolicyResult.push] at h

@[simp] theorem scanFrom_length (cw : F64) (vs pos : List F64) : (scanFrom cw vs pos).length = vs.length + 1 := by
  induction vs generalizing cw pos with
  | nil => rfl
  | cons v vs ih => simp [scanFrom, ih]

/-- The step of the primitive's loop that draws, or does not (R210). -/
theorem primitiveFrom_cons (c : Config) (d : Draws) (S : Nat) (v : F64) (vs : List F64) (i : Nat) (accW : F64)
    (accS : Nat) (drawn : Bool) (slots : List (Option Slot)) :
    (¬ (accS < S ∧ F64.lt F64.zero v = true) ∧
      primitiveFrom c d S (v :: vs) i accW accS drawn slots =
        (primitiveFrom c d S vs (i + 1) (F64.add accW v) accS drawn slots).push 0) ∨
    ((accS < S ∧ F64.lt F64.zero v = true) ∧ clamp (F64.div v (F64.sub F64.one accW)) = none ∧
      primitiveFrom c d S (v :: vs) i accW accS drawn slots = .error ⟨.probOutOfRange, i, drawn⟩) ∨
    (∃ p k slots', (accS < S ∧ F64.lt F64.zero v = true) ∧
      clamp (F64.div v (F64.sub F64.one accW)) = some p ∧
      binomDraw c d (streamOf c i) (S - accS) p slots = (k, slots') ∧
      primitiveFrom c d S (v :: vs) i accW accS drawn slots =
        (primitiveFrom c d S vs (i + 1) (F64.add accW v) (accS + k) true slots').push k) := by
  rw [primitiveFrom]
  by_cases h : accS < S ∧ F64.lt F64.zero v = true
  · rw [if_pos h]
    cases hc : clamp (F64.div v (F64.sub F64.one accW)) with
    | none => exact .inr (.inl ⟨h, rfl, rfl⟩)
    | some p =>
      exact .inr (.inr ⟨p, (binomDraw c d (streamOf c i) (S - accS) p slots).1,
        (binomDraw c d (streamOf c i) (S - accS) p slots).2, h, rfl, rfl, rfl⟩)
  · rw [if_neg h]
    exact .inl ⟨h, rfl⟩

/-- A residual policy that answers split the weights, and its inner policy answered if copies were left (R218, R224, R225). -/
theorem residualPolicy_ok {inner : (S : Nat) → List F64 → List (Option Slot) → PolicyResult} {w : List F64}
    {slots slots' : List (Option Slot)} {rep : List Nat}
    (h : residualPolicy inner w slots = .ok (rep, slots')) :
    (w.map (guaranteed w.length)).sum ≤ w.length ∧
      (((w.map (guaranteed w.length)).sum = w.length ∧ rep = w.map (guaranteed w.length) ∧ slots' = slots) ∨
       ((w.map (guaranteed w.length)).sum < w.length ∧ (total (w.map (residue w.length))).isZero = false ∧
        ∃ rp, inner (w.length - (w.map (guaranteed w.length)).sum)
            ((w.map (residue w.length)).map fun x => F64.div x (total (w.map (residue w.length)))) slots =
              .ok (rp, slots') ∧
          rep = List.zipWith (· + ·) (w.map (guaranteed w.length)) rp)) := by
  unfold residualPolicy at h
  simp only at h
  split_ifs at h with h1 h2 h3
  · cases h
    exact ⟨by omega, .inl ⟨by omega, rfl, rfl⟩⟩
  · refine ⟨by omega, .inr ⟨by omega, by simpa using h3, ?_⟩⟩
    split at h
    · next rp sl hr =>
      cases h
      exact ⟨rp, hr, rfl⟩
    · cases h

/-- NEXTs one after another (R176). -/
theorem nextTimes_add (c : Config) (m n : Nat) (sl : Slot) :
    nextTimes c (m + n) sl = nextTimes c n (nextTimes c m sl) := by
  induction m generalizing sl with
  | zero => rw [Nat.zero_add]; rfl
  | succ m ih => rw [Nat.succ_add, nextTimes, nextTimes, ih]

end Sys2Proof.Machine
end

