-- ==== Sys2Proof/Laws/Step.lean ====
section
/-! SUPPORT. What the moves can do, each said once: the completion step, the issue step, the host accesses and the step itself. -/

namespace Sys2Proof.Machine

/-- Every command is performed by its own body. -/
theorem exec_perform (i : Instr) : ∃ body, ∀ s, exec i s = perform i body s := by
  cases i <;> exact ⟨_, fun _ => rfl⟩

/-- Every command ends in a next state. -/
theorem exec_next (i : Instr) (s : State) : ∃ t, exec i s = .next t := by
  obtain ⟨body, h⟩ := exec_perform i
  exact ⟨_, (h s).trans (perform_eq i body s)⟩

theorem inFlight_eq_some {s : State} {q : Nat} {c : InFlight} :
    s.inFlight q = some c ↔ s.inflight[q]? = some (some c) := by
  simp only [State.inFlight, List.getD_eq_getElem?_getD]
  cases s.inflight[q]? <;> simp

/-- There is a requester `q` without a command in flight. -/
theorem inFlight_eq_none {s : State} {q : Nat} (h : q < s.inflight.length) :
    s.inFlight q = none ↔ s.inflight[q]? = some none := by
  simp only [State.inFlight, List.getD_eq_getElem?_getD]
  rw [List.getElem?_eq_getElem h]
  simp

/-- The completion of a message that fails a decoding check (R243, R244). -/
theorem rejectMessage_cases (msg : List Word) (r : Raise) (s : State) :
    (s.statusFault = true ∧ msgOpc msg ≠ Opcode.csrRead.code ∧ rejectMessage msg r s = refuse (msgOpc msg) s) ∨
    ((s.statusFault = false ∨ msgOpc msg = Opcode.csrRead.code) ∧
      rejectMessage msg r s = takeFault (msgOpc msg) (msgSlot msg) r s) := by
  unfold rejectMessage
  split
  · next h => exact .inl ⟨h.1, h.2, rfl⟩
  · next h =>
    refine .inr ⟨?_, rfl⟩
    by_contra hc
    simp only [not_or, Bool.not_eq_false] at hc
    exact h hc

/-- A completion step that answers a next state performs the decoded command or rejects the message (R252). -/
theorem completeStep_cases {q : Nat} {s t : State} (h : completeStep q s = .next t) :
    ∃ c, s.inFlight q = some c ∧
      ((∃ i, decode s.cfg c.msg = .ok i ∧ exec i (serve q s) = .next t) ∨
       (∃ r, decode s.cfg c.msg = .error r ∧ t = rejectMessage c.msg r (serve q s))) := by
  unfold completeStep at h
  split at h
  · cases h
  · cases h
  · next c hc =>
    refine ⟨c, inFlight_eq_some.2 hc, ?_⟩
    cases hd : decode s.cfg c.msg with
    | ok i => rw [hd] at h; exact .inl ⟨i, rfl, h⟩
    | error r => rw [hd] at h; cases h; exact .inr ⟨r, rfl, rfl⟩

/-- The completion step of a command in flight, forwards. -/
theorem completeStep_of_inFlight {q : Nat} {s : State} {c : InFlight} (h : s.inFlight q = some c) :
    completeStep q s =
      match decode s.cfg c.msg with
      | .ok i => exec i (serve q s)
      | .error r => .next (rejectMessage c.msg r (serve q s)) := by
  cases hd : decode s.cfg c.msg <;> simp [completeStep, inFlight_eq_some.1 h, hd]

/-- An issue step that answers a next state faults at once or puts the command in flight (R251). -/
theorem issueStep_cases {q : Nat} {msg : List Word} {s t : State} (h : issueStep q msg s = .next t) :
    q < s.inflight.length ∧ s.inFlight q = none ∧
      ((∃ k, s.statusFault = false ∧ raceFrom q (heldOf s.cfg msg) 0 s.inflight = some k ∧
          t = takeFault (msgOpc msg) (msgSlot msg) ⟨.sharedStreamRace, BitVec.ofNat 64 k⟩ (serve q s)) ∨
       ((s.statusFault = true ∨ raceFrom q (heldOf s.cfg msg) 0 s.inflight = none) ∧
          t = { s with inflight := s.inflight.set q (some (inFlightOf s.cfg msg)) })) := by
  unfold issueStep at h
  split at h
  · cases h
  · cases h
  · next hq =>
    have hlt : q < s.inflight.length := by
      by_contra hn
      rw [List.getElem?_eq_none (Nat.le_of_not_lt hn)] at hq
      cases hq
    refine ⟨hlt, (inFlight_eq_none hlt).2 hq, ?_⟩
    cases hf : s.statusFault
    · simp only [hf, Bool.false_eq_true, if_false] at h
      cases hr : raceFrom q (heldOf s.cfg msg) 0 s.inflight with
      | some k => rw [hr] at h; cases h; exact .inl ⟨k, rfl, rfl, rfl⟩
      | none => rw [hr] at h; cases h; exact .inr ⟨.inr rfl, rfl⟩
    · simp only [hf, if_true] at h
      cases h
      exact .inr ⟨.inl rfl, rfl⟩

/-- A host access that answers a next state races or is the access itself (R254). -/
theorem hostAccess_cases {q len : Nat} {write : Bool} {addr : Word} {access : State → State} {s t : State}
    (h : hostAccess q write addr len access s = .next t) :
    q < s.inflight.length ∧ addr.toNat + len ≤ 2 ^ 64 ∧
      ((∃ a owner msg, s.statusFault = false ∧ memoryRace s write addr len = some (a, owner, msg) ∧
          t = recordFault owner (msgOpc msg) (msgSlot msg) ⟨.memoryRace, BitVec.ofNat 64 a⟩ s) ∨
       ((s.statusFault = true ∨ memoryRace s write addr len = none) ∧ t = access s)) := by
  unfold hostAccess at h
  split_ifs at h with h1 h2 h3
  · refine ⟨by omega, by omega, .inr ⟨.inl h3, ?_⟩⟩
    simpa using h.symm
  · refine ⟨by omega, by omega, ?_⟩
    have hf : s.statusFault = false := by simpa using h3
    cases hr : memoryRace s write addr len with
    | some x =>
      obtain ⟨a, owner, msg⟩ := x
      rw [hr] at h
      exact .inl ⟨a, owner, msg, hf, rfl, by simpa using h.symm⟩
    | none =>
      rw [hr] at h
      exact .inr ⟨.inr rfl, by simpa using h.symm⟩

/-- A step that answers a next state is one of the moves, the first of the list, or with an empty list the completion of a command in
flight or the holding of an idle unit. -/
theorem step_cases {s t : State} (h : step s = .next t) :
    (∃ q msg rest, s.inputs = .issue q msg :: rest ∧ issueStep q msg (s.withInputs rest) = .next t) ∨
    (∃ q rest, s.inputs = .complete q :: rest ∧ completeStep q (s.withInputs rest) = .next t) ∨
    (∃ q addr len rest, s.inputs = .hostRead q addr len :: rest ∧
      hostReadStep q addr len (s.withInputs rest) = .next t) ∨
    (∃ q addr bytes rest, s.inputs = .hostWrite q addr bytes :: rest ∧
      hostWriteStep q addr bytes (s.withInputs rest) = .next t) ∨
    (∃ rest, s.inputs = .reset :: rest ∧ t = resetUnit (s.withInputs rest)) ∨
    (s.inputs = [] ∧ ∃ q, firstInFlight s = some q ∧ completeStep q s = .next t) ∨
    (s.inputs = [] ∧ firstInFlight s = none ∧ t = s) := by
  unfold step at h
  split at h
  · next q msg rest hi => exact .inl ⟨q, msg, rest, hi, h⟩
  · next q rest hi => exact .inr (.inl ⟨q, rest, hi, h⟩)
  · next q addr len rest hi => exact .inr (.inr (.inl ⟨q, addr, len, rest, hi, h⟩))
  · next q addr bytes rest hi => exact .inr (.inr (.inr (.inl ⟨q, addr, bytes, rest, hi, h⟩)))
  · next rest hi =>
    cases h
    exact .inr (.inr (.inr (.inr (.inl ⟨rest, hi, rfl⟩))))
  · next hi =>
    cases hf : firstInFlight s with
    | some q => rw [hf] at h; exact .inr (.inr (.inr (.inr (.inr (.inl ⟨hi, q, rfl, h⟩)))))
    | none =>
      rw [hf] at h
      cases h
      exact .inr (.inr (.inr (.inr (.inr (.inr ⟨hi, rfl, rfl⟩)))))

/-! ### Races -/

/-- The issue step's search finds no race exactly when no other requester's command shares a slot (R183). -/
theorem raceFrom_none (q : Nat) (h : Held) (i : Nat) (l : List (Option InFlight)) :
    raceFrom q h i l = none ↔
      ∀ j c, i + j ≠ q → l.getD j none = some c → h.shared c.held = none := by
  induction l generalizing i with
  | nil => simp [raceFrom]
  | cons r rs ih =>
    have hmin : ∀ a b : Option Nat, minOption a b = none ↔ a = none ∧ b = none := by
      intro a b; cases a <;> cases b <;> simp [minOption]
    simp only [raceFrom, hmin, ih]
    constructor
    · rintro ⟨h0, h1⟩ j c hj hc
      match j with
      | 0 =>
        simp only [List.getD_cons_zero] at hc
        subst hc
        simpa [show i ≠ q by omega] using h0
      | j + 1 => exact h1 j c (by omega) (by simpa using hc)
    · intro hall
      refine ⟨?_, fun j c hj hc => hall (j + 1) c (by omega) (by simpa using hc)⟩
      cases r with
      | none => rfl
      | some c =>
        by_cases hi : i = q
        · simp [hi]
        · simpa [hi] using hall 0 c (by simpa using hi) rfl

/-- The lowest slot two held sets share (R183). -/
theorem shared_eq_some {a b : Held} {k : Nat} (h : a.shared b = some k) :
    a.lo ≤ k ∧ k < a.hi ∧ b.lo ≤ k ∧ k < b.hi ∧
      ∀ j, a.lo ≤ j → b.lo ≤ j → k ≤ j := by
  unfold Held.shared at h
  split at h
  · cases h
    refine ⟨by omega, by omega, by omega, by omega, fun j _ _ => by omega⟩
  · cases h

end Sys2Proof.Machine
end

