-- ==== Sys2Proof/Tests/Slice0.lean ====
section
/-! SUPPORT. Tests on fixed values, each one step, their expected results from spec/95_test_vectors.md (the vector is named) or by
hand from the rule named; and, for every statement with hypotheses, a witness that meets them. -/

namespace Sys2Proof.Tests

-- The theorems are checked one after another: each waiting thread would hold its own stack.
set_option Elab.async false

open Sys2Proof Sys2Proof.Machine

/-! ### Helpers -/

/-- The next state of an outcome. -/
def after : Host.Outcome State Fault Refusal → State
  | .next t => t
  | _ => State.reset

/-- The instance of spec/95_test_vectors.md section 6. -/
def cfg : Config := Config.resetInstance

/-- `cfg` with another engine, M and WR. -/
def cfgOf (engine : Engine) (nr m : Nat) (wr : ResultWidth) : Config :=
  { cfg with engine := engine, nr := nr, m := m, wr := wr }

/-- The reset state of an instance with slot 0 as given. -/
def with0 (c : Config) (sl : Slot) : State :=
  { State.resetOf c with slots := (State.resetOf c).slots.set 0 (some sl) }

/-- The state with a message of requester 0 in flight and its completion the next move. -/
def sent (msg : List Word) (s : State) : State :=
  { s with inflight := s.inflight.set 0 (some (inFlightOf s.cfg msg)), inputs := [.complete 0] }

/-- The state after that completion step. -/
def done (msg : List Word) (s : State) : State := after (step (sent msg s))

/-- The words of the newest response. -/
def answer (s : State) : List Word :=
  match s.outputs with
  | .response _ words :: _ => words
  | _ => []

/-- STATUS without BUSY, FAULT_INFO and FAULT_LOC. -/
def record (s : State) : Word × Word × Word :=
  (statusWord { s with inflight := [] } 0, s.faultInfo, s.faultLoc)

/-- A slot just constructed with a zero key of `cfg`. -/
def fresh : Slot := constructed cfg [0, 0]

/-- `cfg` with slot 0 just constructed and slot 1 not. -/
def live : State := with0 cfg fresh

/-- A counter block 0 in slot 0 of an instance, key 0. -/
def counterAt (c : Config) (block : List Word) : State :=
  with0 c ⟨List.replicate c.kw 0, c.blocks (c.arith block), [], 0⟩

/-- The counter blocks of slot 0. -/
def counters (s : State) : List (List Word) := ((s.slot 0).map Slot.ctr).getD []

/-- The operands of a RESAMPLE of `n` particles, weights at 0x1000, counts at 0x2000. -/
def opsOf (n : Word) : ResampleOps := ⟨n, 0x1000, 1, n, 0x2000, 1, n⟩

/-- `live` with 64-bit weights at 0x1000. -/
def weighted (w : List Word) : State :=
  { live with
    slots := [some fresh, some fresh]
    mem := ((List.range w.length).zip w).foldl
      (fun m x => m.writeWord (BitVec.ofNat 64 (0x1000 + 8 * x.1)) x.2.toNat) [] }

/-- The record of a fault. -/
def faulted : State := { live with statusFault := true, statusCause := 0x05, faultInfo := 8 }

/-! ### WellFormed: an ill-formed term for each check -/

theorem test_wf_csr_slot : (Instr.csrRead .config0 1).wf cfg = false ∧ (Instr.csrRead .cursor 1).wf cfg = true := by decide
theorem test_wf_ctrAdd_wide : (Instr.ctrAdd 0 0x100000000).wf cfg = false := by decide
theorem test_wf_ctrLoad_count : (Instr.ctrLoad 0 [0, 0, 0]).wf cfg = false := by decide
theorem test_wf_ctrLoad_wide : (Instr.ctrLoad 0 [0, 0, 0, 0x100000000]).wf cfg = false := by decide
theorem test_wf_ctrRead_block : (Instr.ctrRead 0 1).wf cfg = false := by decide
theorem test_wf_keyLoad_count : (Instr.keyLoad 0 [0]).wf cfg = false := by decide
theorem test_wf_keyLoad_wide : (Instr.keyLoad 0 [0, 0x100000000]).wf cfg = false := by decide
theorem test_wf_transform_count : (Instr.transform 0 [0, 0]).wf cfg = false := by decide
theorem test_wf_transform_wide : (Instr.transform 0 [0, 0, 0x100000000, 0]).wf cfg = false := by decide
theorem test_wf_seedSeq_empty : (Instr.seedSeq 0 []).wf cfg = false := by decide
theorem test_wf_seedSeq_long : (Instr.seedSeq 0 (List.replicate 256 0)).wf cfg = false := by decide +kernel
theorem test_legal_rounds : ({ cfg with nr := 0 } : Config).legal = false ∧ ({ cfg with nr := 256 } : Config).legal = false := by decide
theorem test_legal_m : ({ cfg with m := 0 } : Config).legal = false ∧ ({ cfg with m := 257 } : Config).legal = false := by decide
theorem test_legal_slots : ({ cfg with nstreams := 0 } : Config).legal = false ∧ ({ cfg with nstreams := 2 ^ 32 } : Config).legal = false := by decide
theorem test_legal_requesters : ({ cfg with p := 0 } : Config).legal = false ∧ ({ cfg with p := 2 ^ 16 + 1 } : Config).legal = false := by decide
theorem test_legal_sequential : ({ cfg with mode := .sequential } : Config).legal = false ∧ cfg.legal = true := by decide

/-! ### Decoding: words written out from spec/30_encoding.md R71 and R80 (OPC 7:0, SUB 15:8, SLOT 63:32) -/

theorem test_decode_csrRead : decode cfg [0x0000000100001101] = .ok (.csrRead .slotState 1) := by rfl
theorem test_decode_ctrZero : decode cfg [0x0000000200000010] = .ok (.ctrZero 2) := by rfl
theorem test_decode_ctrInc : decode cfg [0x0000000000000011] = .ok (.ctrInc 0) := by rfl
theorem test_decode_ctrAdd : decode cfg [0x8000000000000012, 5] = .ok (.ctrAdd 0x80000000 5) := by rfl
theorem test_decode_ctrLoad : decode cfg [0x0000000000000013, 1, 2, 3, 4] = .ok (.ctrLoad 0 [1, 2, 3, 4]) := by rfl
theorem test_decode_ctrRead : decode (cfgOf .philox2x64 10 2 .w64) [0x0000000000000114] = .ok (.ctrRead 0 1) := by rfl
theorem test_decode_keyLoad : decode cfg [0x0000000000000020, 7, 8] = .ok (.keyLoad 0 [7, 8]) := by rfl
theorem test_decode_transform : decode cfg [0x0000000100000021, 1, 2, 3, 4] = .ok (.transform 1 [1, 2, 3, 4]) := by rfl
theorem test_decode_seed : decode cfg [0x0000000000000030, 0x2A] = .ok (.seed 0 42) := by rfl
theorem test_decode_seedSeq : decode cfg [0x0000000000000331, 1, 2, 3] = .ok (.seedSeq 0 [1, 2, 3]) := by rfl
theorem test_decode_seedAll : decode cfg [0x0000000000000032, 7] = .ok (.seedAll 7) := by rfl
theorem test_decode_next : decode cfg [0x0000000100000038] = .ok (.next 1) := by rfl
theorem test_decode_discard : decode cfg [0x0000000000000039, 6] = .ok (.discard 0 6) := by rfl
theorem test_decode_resampleMultinomial : decode cfg [0x0000000000000040, 1, 0x1000, 2, 3, 0x2000, 4, 5] = .ok (.resampleMultinomial ⟨1, 0x1000, 2, 3, 0x2000, 4, 5⟩) := by rfl
theorem test_decode_resampleResidual : decode cfg [0x0000000000000140, 1, 2, 3, 4, 5, 6, 7] = .ok (.resampleResidual ⟨1, 2, 3, 4, 5, 6, 7⟩) := by rfl
theorem test_decode_resampleStratified : decode cfg [0x0000000000000240, 1, 2, 3, 4, 5, 6, 7] = .ok (.resampleStratified ⟨1, 2, 3, 4, 5, 6, 7⟩) := by rfl
theorem test_decode_resampleSystematic : decode cfg [0x0000000000000340, 1, 2, 3, 4, 5, 6, 7] = .ok (.resampleSystematic ⟨1, 2, 3, 4, 5, 6, 7⟩) := by rfl
theorem test_decode_resampleResidualStratified : decode cfg [0x0000000000000440, 1, 2, 3, 4, 5, 6, 7] = .ok (.resampleResidualStratified ⟨1, 2, 3, 4, 5, 6, 7⟩) := by rfl
theorem test_decode_resampleResidualSystematic : decode cfg [0x0000000000000540, 1, 2, 3, 4, 5, 6, 7] = .ok (.resampleResidualSystematic ⟨1, 2, 3, 4, 5, 6, 7⟩) := by rfl

/-- One message for each failing check of R81: FT-1, FT-3, FT-4, FT-5, FT-6, FT-7, FT-8, FT-9, FT-10, FT-11, CT-19. -/
theorem test_decode_rejects :
    decode cfg [0] = .error ⟨.illegalOpcode, 0⟩ ∧ decode cfg [] = .error ⟨.badLength, 0⟩ ∧
    decode cfg [0x38, 5] = .error ⟨.badLength, 2⟩ ∧
    decode cfg [0x10038] = .error ⟨.reservedField, 0x10038⟩ ∧
    decode cfg [0x138] = .error ⟨.reservedField, 0x138⟩ ∧
    decode cfg [0x100000032, 7] = .error ⟨.reservedField, 0x100000032⟩ ∧
    decode cfg [0x20, 0x100000000, 0] = .error ⟨.reservedField, 0⟩ ∧
    decode cfg [0x640, 1, 0x1000, 1, 1, 0x2000, 1, 1] = .error ⟨.badPolicy, 6⟩ ∧
    decode cfg [0x31] = .error ⟨.badLength, 1⟩ ∧
    decode cfg [0x801] = .error ⟨.badOperand, 8⟩ ∧
    decode (cfgOf .philox2x64 10 2 .w64) [0x214] = .error ⟨.badOperand, 2⟩ :=
  ⟨rfl, rfl, rfl, rfl, rfl, rfl, rfl, rfl, rfl, rfl, rfl⟩

theorem test_encode_discard : encode (.discard 1 7) = [0x0000000100000039, 7] := by decide
theorem test_encode_resample : encode (.resampleResidualSystematic (opsOf 4)) = [0x540, 4, 0x1000, 1, 4, 0x2000, 1, 4] := by decide
theorem test_tableWord_next : decodeTableWord 64 0x38 = some (.next 0) := by decide +kernel
theorem test_tableWord_keyLoad : decodeTableWord 64 0x20 = some (.keyLoad 0 [0, 0]) := by decide +kernel
theorem test_fetchWord : answer (after (step (State.reset.withFetchWord 64 0x0000000100001101))) = [0x100, 0] := by decide +kernel

/-! ### The engines (spec/95_test_vectors.md sections 1.2, 2.1 and 2.2) -/

theorem test_aes128 : engineWords (cfgOf .aes128 10 1 .w64) [0xA6D2AE2816157E2B, 0x3C4FCF098815F7AB] [0x9199452AE1BCC06B, 0x25199E7F1A7434E1] = [0x46B21981ACAB4976, 0x7D19E9129B8EE9CE] := by decide +kernel
theorem test_aes192 : engineWords (cfgOf .aes192 10 1 .w64) [0x52640EDAF7B0738E, 0xE57990802BF310C8, 0x7B6B2C52D2EAF862] [0x9199452AE1BCC06B, 0x25199E7F1A7434E1] = [0x3D63BC43B21D024F, 0xE871A09F3A187871] := by decide +kernel
theorem test_aes256 : engineWords (cfgOf .aes256 10 1 .w64) [0xBE71CA1510EB3D60, 0x81777D85F0AE732B, 0xD708613B072C351F, 0xF4DF1409A310982D] [0x9199452AE1BCC06B, 0x25199E7F1A7434E1] = [0xBAF1E5D6044C8CF5, 0xD6FB7B5FFBAB9E77] := by decide +kernel
theorem test_philox2x32 : engineWords (cfgOf .philox2x32 10 1 .w32) [0x13198A2E] [0x243F6A88, 0x85A308D3] = [0xDD7CE038, 0xF62A4C12] := by decide +kernel
theorem test_philox4x32 : engineWords (cfgOf .philox4x32 10 1 .w32) [0xA4093822, 0x299F31D0] [0x243F6A88, 0x85A308D3, 0x13198A2E, 0x03707344] = [0xD16CFE09, 0x94FDCCEB, 0x5001E420, 0x24126EA1] := by decide +kernel
theorem test_philox2x64 : engineWords (cfgOf .philox2x64 10 1 .w64) [0xA4093822299F31D0] [0x243F6A8885A308D3, 0x13198A2E03707344] = [0x0A5E742C2997341C, 0xB0F883D38000DE5D] := by decide +kernel
theorem test_philox4x64 : engineWords (cfgOf .philox4x64 10 1 .w64) [0x452821E638D01377, 0xBE5466CF34E90C6C] [0x243F6A8885A308D3, 0x13198A2E03707344, 0xA4093822299F31D0, 0x082EFA98EC4E6C89] = [0xA528F45403E61D95, 0x38C72DBD566E9788, 0xA5A1610E72FD18B5, 0x57BD43B5E52B7FE6] := by decide +kernel
theorem test_threefry2x32 : engineWords (cfgOf .threefry2x32 20 1 .w32) [0x13198A2E, 0x03707344] [0x243F6A88, 0x85A308D3] = [0xC4923A9C, 0x483DF7A0] := by decide +kernel
theorem test_threefry4x32 : engineWords (cfgOf .threefry4x32 20 1 .w32) [0xA4093822, 0x299F31D0, 0x082EFA98, 0xEC4E6C89] [0x243F6A88, 0x85A308D3, 0x13198A2E, 0x03707344] = [0x59CD1DBB, 0xB8879579, 0x86B5D00C, 0xAC8B6D84] := by decide +kernel
theorem test_threefry2x64 : engineWords (cfgOf .threefry2x64 20 1 .w64) [0xA4093822299F31D0, 0x082EFA98EC4E6C89] [0x243F6A8885A308D3, 0x13198A2E03707344] = [0x263C7D30BB0F0AF1, 0x56BE8361D3311526] := by decide +kernel
theorem test_threefry4x64 : engineWords (cfgOf .threefry4x64 20 1 .w64) [0x452821E638D01377, 0xBE5466CF34E90C6C, 0xC0AC29B7C97C50DD, 0x3F84D5B5B5470917] [0x243F6A8885A308D3, 0x13198A2E03707344, 0xA4093822299F31D0, 0x082EFA98EC4E6C89] = [0xBB893FD42EAC50EB, 0x7CA8B22905F3443A, 0xE204B8DCB4DAACE7, 0x3E1070A2327BFC09] := by decide +kernel
/-- EN-2: 13 rounds end without an injection. -/
theorem test_threefry_rounds : engineWords (cfgOf .threefry4x64 13 1 .w64) [0, 0, 0, 0] [0, 0, 0, 0] = [0x4071FABEE1DC8E05, 0x02ED3113695C9C62, 0x397311B5B89F9D49, 0xE21292C3258024BC] := by decide +kernel

/-! ### Counter commands (spec/95_test_vectors.md section 3) -/

/-- CT-21. -/
theorem test_ctrZero_fields : counters (done [0x10] (counterAt (cfgOf .philox2x64 10 2 .w64) [5, 7])) = [[0, 0], [0, 0x0100000000000000]] := by decide +kernel
/-- CT-4: the carry stops below the block field. -/
theorem test_ctrInc_wraps_below_field : counters (done [0x11] (counterAt (cfgOf .philox2x64 10 2 .w64) [0xFFFFFFFFFFFFFFFF, 0x00FFFFFFFFFFFFFF])) = [[0, 0], [0, 0x0100000000000000]] := by decide +kernel
/-- CT-5. -/
theorem test_ctrInc_carries : counters (done [0x11] (counterAt cfg [0xFFFFFFFF, 0xFFFFFFFF, 0xFFFFFFFF, 0])) = [[0, 0, 0, 1]] := by decide +kernel
/-- CT-8. -/
theorem test_ctrAdd_wraps : counters (done [0x12, 0xFFFFFFFF] (counterAt (cfgOf .philox2x32 10 2 .w32) [1, 0x00FFFFFF])) = [[0, 0], [0, 0x01000000]] := by decide +kernel
/-- CT-9 and the rule of R112: adding 0 still exhausts the buffer. -/
theorem test_ctrAdd_zero : (done [0x12, 0] (counterAt (cfgOf .philox2x32 10 1 .w32) [0x7B, 0])).slot 0 = some ⟨[0], [[0x7B, 0]], [], 2⟩ := by decide +kernel
/-- CT-15. -/
theorem test_ctrLoad_blocks : (counters (done [0x13, 0xFFFFFFFF, 0xFFFFFFFF, 0xFFFFFFFF, 0x00FFFFFF] (counterAt (cfgOf .philox4x32 10 3 .w32) [0, 0, 0, 0]))).getD 2 [] = [0xFFFFFFFF, 0xFFFFFFFF, 0xFFFFFFFF, 0x02FFFFFF] := by decide +kernel
/-- CT-16. -/
theorem test_ctrLoad_field : answer (done [0x13, 0, 0, 0, 0x01000000] (counterAt (cfgOf .philox4x32 10 3 .w32) [0, 0, 0, 0])) = [0x1305] ∧ (done [0x13, 0, 0, 0, 0x01000000] (counterAt (cfgOf .philox4x32 10 3 .w32) [0, 0, 0, 0])).faultInfo = 1 := by decide +kernel
/-- Program P2, step 6. -/
theorem test_ctrRead_block : answer (done [0x114] (counterAt (cfgOf .philox2x64 10 2 .w64) [1, 0])) = [0x1400, 1, 0x0100000000000000] := by decide +kernel

/-! ### Streams (spec/95_test_vectors.md section 4) -/

/-- R170: a constructed slot has counter 0 and cursor R. -/
theorem test_keyLoad : (done [0x100000020, 7, 8] live).slot 1 = some ⟨[7, 8], [[0, 0, 0, 0]], [], 4⟩ := by decide +kernel
/-- Section 1.1: the source's AES vector as a command. -/
theorem test_transform : answer (done [0x21, 0x9199452AE1BCC06B, 0x25199E7F1A7434E1] (with0 (cfgOf .aes128 10 1 .w64) ⟨[0xA6D2AE2816157E2B, 0x3C4FCF098815F7AB], [[0, 0]], [], 2⟩)) = [0x2100, 0x46B21981ACAB4976, 0x7D19E9129B8EE9CE] := by decide +kernel
/-- ST-16: the counter of a seeded slot. -/
theorem test_seed : counters (done [0x30, 0x2A] (State.resetOf (cfgOf .philox2x64 10 2 .w64))) = [[0, 0], [0, 0x0100000000000000]] := by decide +kernel
/-- ST-17. -/
theorem test_seedSeq : answer (done [0x331, 1, 2, 3] live) = [0x3100] ∧ ((done [0x331, 1, 2, 3] live).slot 0).isSome = true := by decide +kernel
/-- ST-18. -/
theorem test_seedAll : ((done [0x32, 7] State.reset).slots.map fun sl => (sl.map Slot.cur)) = [some 4, some 4] := by decide +kernel
/-- ST-1, the first word. -/
theorem test_next_refills : answer (done [0x38] live) = [0x3800, 0xF8E4CCA4] := by decide +kernel
/-- ST-6, the third word: M = 2 and the block field in the AES image. -/
theorem test_next_aes : (nextTimes (cfgOf .aes128 10 2 .w64) 3 (constructed (cfgOf .aes128 10 2 .w64) [0xA6D2AE2816157E2B, 0x3C4FCF098815F7AB])).buf = [0x9D9633529B37597E, 0x3ECB35E32CADA525, 0x8AAE48C705159C44, 0x02C70D546ED37F4E] := by decide +kernel
/-- ST-11: the carry crosses into word 1. -/
theorem test_discard_carries : counters (done [0x39, 0x200000001] (with0 (cfgOf .philox2x32 10 1 .w32) (constructed (cfgOf .philox2x32 10 1 .w32) [0x12345678]))) = [[1, 1]] := by decide +kernel
/-- ST-9: exactly one buffer consumed, no second refill. -/
theorem test_discard_boundary : ((done [0x39, 4] live).slot 0).map Slot.cur = some 4 ∧ counters (done [0x39, 4] live) = [[1, 0, 0, 0]] := by decide +kernel

/-! ### CSR_READ (spec/95_test_vectors.md sections 6 and 7) -/

theorem test_config0 : answer (done [0x1] State.reset) = [0x100, 0x010A000120200411] := by decide +kernel
/-- FT-20: BUSY of the other requester's command. -/
theorem test_status_busy : answer (done [0x401] { live with inflight := [none, some (inFlightOf cfg [0x38])] }) = [0x100, 4] := by decide +kernel

/-! ### Faults and moves (spec/95_test_vectors.md section 6) -/

/-- FT-13. -/
theorem test_next_uninitialised : answer (done [0x100000038] live) = [0x3804] ∧ record (done [0x100000038] live) = (0x401, 1, 0x0038000000000001) := by decide +kernel
/-- FT-16 and FT-18: refused, and a second fault reported and not recorded. -/
theorem test_fault_state : answer (done [0x38] faulted) = [0x3812] ∧ answer (done [0x901] faulted) = [0x105] ∧ (done [0x901] faulted).faultInfo = 8 := by decide +kernel
/-- FT-21: the issue step of requester 1 races with requester 0's command. -/
theorem test_shared_stream_race : record (after (step { live with cfg := { cfg with mode := .sequential, nstreams := 1 }, inflight := [some (inFlightOf { cfg with mode := .sequential, nstreams := 1 } [0x38]), none], inputs := [.issue 1 [0x500000038]] })) = (0x601, 0, 0x0038000100000005) := by decide +kernel
/-- FT-22: a host read of a replication byte in flight. -/
theorem test_memory_race : record (after (step { sent [0x340, 4, 0x1000, 1, 4, 0x2000, 1, 4] live with inputs := [.hostRead 1 0x2008 1] })) = (0xF01, 0x2008, 0x0040000000000000) := by decide +kernel
theorem test_host_write : (after (step { live with inputs := [.hostWrite 1 0x3000 [1, 0, 2]] })).mem = [(0x3000, 1), (0x3002, 2)] := by decide +kernel
theorem test_reset_event : after (step { faulted with inputs := [.reset] }) = State.reset := by decide +kernel

/-! ### RESAMPLE (spec/95_test_vectors.md sections 5 and 6; draws as the vector gives them) -/

/-- Draws that give the listed results for slots 0, 1, .. whose key's first word is the slot's number. -/
def drawing (us : List Word) (ks : List Nat) : Draws where
  u01 sl := (us.getD (sl.key.headD 0).toNat 0, 1)
  binom sl _ _ := (ks.getD (sl.key.headD 0).toNat 0, 1)

/-- Four numbered slots. -/
def numbered : List (Option Slot) := (List.range 4).map fun k => some ⟨[BitVec.ofNat 64 k], [[0, 0, 0, 0]], [], 4⟩

/-- The counts or the cause and its information value. -/
def countsOf : PolicyResult → Except (Cause × Nat) (List Nat)
  | .ok (rep, _) => .ok rep
  | .error f => .error (f.cause, f.info)

/-- The weight 0.5 and others, by bit pattern. -/
def w05 : F64 := F64.ofBits 0x3FE0000000000000

/-- RS-7. -/
theorem test_multinomial : countsOf (policyMultinomial cfg (drawing [] [3, 1]) [w05, w05, .zero, .zero] numbered) = .ok [3, 1, 0, 0] := by decide +kernel
/-- RS-18 and RS-22. -/
theorem test_residual_faults : countsOf (policyResidual cfg (drawing [] []) [.zero, .zero] numbered) = .error (.sumMismatch, 0) ∧ countsOf (policyResidual cfg (drawing [] []) [.one, F64.ofBits 0x3FE3333333333333] numbered) = .error (.sumMismatch, 3) := by decide +kernel
/-- RS-8: w = [0.5, 0.3, 0.2, 0]. -/
theorem test_residual : countsOf (policyResidual cfg (drawing [] [9, 0, 1]) [w05, F64.ofBits 0x3FD3333333333333, F64.ofBits 0x3FC999999999999A, .zero] numbered) = .ok [2, 1, 1, 0] := by decide +kernel
/-- RS-13: draws 0.2, 0.2, 1 - 2^-53. -/
theorem test_stratified : countsOf (policyStratified cfg (drawing [0x3FC999999999999A, 0x3FC999999999999A, 0x3FEFFFFFFFFFFFFF] []) [w05, w05, .zero] numbered) = .ok [2, 0, 1] := by decide +kernel
/-- RS-12. -/
theorem test_systematic : countsOf (policySystematic cfg (drawing [0x3FEFFFFFFFFFFFFF] []) [w05, w05, .zero] numbered) = .ok [1, 1, 1] := by decide +kernel
/-- RS-11: w = [0.45, 0.35, 0.2, 0, 0], draw 0.5. -/
theorem test_residualStratified : countsOf (policyResidualStratified cfg (drawing [0x3FE0000000000000] []) [F64.ofBits 0x3FDCCCCCCCCCCCCD, F64.ofBits 0x3FD6666666666666, F64.ofBits 0x3FC999999999999A, .zero, .zero] numbered) = .ok [2, 2, 1, 0, 0] := by decide +kernel
/-- RS-10: w = [0.5, 0.3, 0.2, 0], draw 0.1. -/
theorem test_residualSystematic : countsOf (policyResidualSystematic cfg (drawing [0x3FB999999999999A] []) [w05, F64.ofBits 0x3FD3333333333333, F64.ofBits 0x3FC999999999999A, .zero] numbered) = .ok [2, 2, 0, 0] := by decide +kernel
/-- FT-39: the count is stored, whatever the draw. -/
theorem test_resample_stores : (done [0x340, 1, 0x1000, 1, 1, 0x2000, 1, 1] (weighted [0x3FE0000000000000])).mem.readWord 0x2000 = 1 := by decide +kernel
/-- FT-32, FT-33, FT-35, FT-37 and FT-38. -/
theorem test_resample_checks :
    answer (done [0x340, 2, 0x1000, 1, 2, 0x2000, 1, 2] live) = [0x4004] ∧
    answer (done [0x340, 1, 0x1004, 1, 1, 0x2001, 1, 1] live) = [0x400C] ∧
    answer (done [0x340, 1, 0x10000, 1, 1, 0x2000, 1, 1] live) = [0x400D] ∧
    answer (done [0x340, 1, 0x1000, 1, 1, 0x1000, 1, 1] live) = [0x400E] ∧
    answer (done [0x340, 1, 0x1000, 1, 1, 0x2000, 1, 1] (weighted [0xFFF0000000000000])) = [0x400A] := by decide +kernel
/-- FT-24, FT-27, FT-28, FT-29 and FT-31. -/
theorem test_resample_operands :
    answer (done [0x340, 1, 0x1000, 0, 1, 0x2000, 1, 1] live) = [0x4007] ∧
    answer (done [0x340, 2, 0x1000, 1, 3, 0x2000, 1, 2] live) = [0x4008] ∧
    answer (done [0x340, 0x100000000, 0x1000, 1, 0x100000000, 0x2000, 1, 0x100000000] live) = [0x4005] ∧
    answer (done [0x340, 0, 7, 1, 0, 7, 1, 0] live) = [0x4000] ∧
    answer (done [0x340, 3, 0x1000, 1, 3, 0x2000, 1, 3] live) = [0x4003] := by decide +kernel

/-! ### Witnesses: one for every statement of Certificates/Slice0/Obligations.lean that has hypotheses, under the statement's name -/

/-- Whether an outcome is a next state. -/
def isNext : Host.Outcome State Fault Refusal → Bool
  | .next _ => true
  | _ => false

theorem next_after (o : Host.Outcome State Fault Refusal) (h : isNext o = true) : o = .next (after o) := by
  cases o <;> simp_all [isNext, after]

/-- `cfg` with M = 2. -/
def cfg2 : Config := cfgOf .philox2x64 10 2 .w64

/-- Both slots of `cfg` constructed. -/
def both : State := { live with slots := [some fresh, some fresh] }

/-- `both` with a NEXT of slot 0 and one of slot 1 in flight. -/
def flying : State := { both with inflight := [some (inFlightOf cfg [0x38]), some (inFlightOf cfg [0x100000038])] }

/-- `live` with a RESAMPLE of four particles in flight for requester 0. -/
def resampling : State := { sent [0x340, 4, 0x1000, 1, 4, 0x2000, 1, 4] live with inputs := [] }

theorem fresh_ctr : fresh.ctr = [[0, 0, 0, 0]] := by decide +kernel

theorem zero_native {v : Word} (h : v = 0) : v.toNat < 2 ^ cfg.wc := by
  subst h
  exact Nat.two_pow_pos _

theorem fresh_shaped : SlotShaped cfg fresh where
  keyLength := rfl
  keyNative v hv := zero_native (by simpa [fresh, constructed] using hv)
  ctrLength := by rw [fresh_ctr]; rfl
  ctrBlocks block hb := by
    rw [fresh_ctr, List.mem_singleton] at hb
    subst hb
    exact ⟨rfl, fun v hv => zero_native (by simpa using hv)⟩
  bufLength := .inl rfl
  bufWords v hv := by cases hv
  curBound := Nat.le_refl _

theorem fresh_coherent : SlotCoherent cfg fresh where
  sameArith := by decide +kernel
  fields := by decide +kernel
  filled := by decide +kernel

theorem live_slot {k : Nat} {sl : Slot} (h : live.slot k = some sl) : k = 0 ∧ sl = fresh := by
  match k with
  | 0 => cases h; exact ⟨rfl, rfl⟩
  | 1 => cases h
  | k + 2 => cases h

theorem live_shaped : SlotsShaped live := fun _ _ h => (live_slot h).2 ▸ fresh_shaped
theorem live_coherent : SlotsCoherent live := fun _ _ h => (live_slot h).2 ▸ fresh_coherent
theorem live_sizes : SizesRight live := ⟨by decide, by decide⟩

theorem witness_DecodeOfEncodeIsTheCommand : ∃ c i, Instr.wf c i = true :=
  ⟨cfg, .seedSeq 0 (List.replicate 255 1), by decide +kernel⟩

theorem witness_EncodeOfDecodeIsTheMessage : ∃ c msg i, decode c msg = .ok i := ⟨cfg, [0x38], .next 0, by rfl⟩

/-- One message for each clause: an illegal opcode, a wrong length, RSV, a fixed SUB, a fixed SLOT, a wide operand after a narrow one,
policy 6, SEEDSEQ of no value, CSR 8, block M. -/
theorem witness_DecodingChecksRunInOrder :
    Opcode.ofCode (opcOf 0xFF) = none ∧
    (Opcode.ofCode (opcOf 0x38) = some .next ∧ ([5] : List Word).length ≠ operandCount cfg .next (subOf 0x38)) ∧
    (([] : List Word).length = operandCount cfg .next (subOf 0x10038) ∧ rsvOf 0x10038 ≠ 0) ∧
    (([] : List Word).length = operandCount cfg .next (subOf 0x138) ∧ subFixed .next = true ∧ subOf 0x138 ≠ 0) ∧
    (([7] : List Word).length = operandCount cfg .seedAll (subOf 0x100000032) ∧
      slotFixed .seedAll (subOf 0x100000032) = true ∧ slotFieldOf 0x100000032 ≠ 0) ∧
    (nativeOperands .keyLoad = true ∧ 2 ^ cfg.wc ≤ (([0, 0x100000000] : List Word).getD 1 0).toNat ∧
      ∀ j, j < 1 → (([0, 0x100000000] : List Word).getD j 0).toNat < 2 ^ cfg.wc) ∧
    (Opcode.ofCode (opcOf 0x640) = some .resample ∧ 5 < (subOf 0x640).toNat) ∧
    (Opcode.ofCode (opcOf 0x31) = some .seedSeq ∧ subOf 0x31 = 0) ∧
    (Opcode.ofCode (opcOf 0x801) = some .csrRead ∧ Csr.ofNumber (subOf 0x801) = none) ∧
    (Opcode.ofCode (opcOf 0x114) = some .ctrRead ∧ cfg.m ≤ (subOf 0x114).toNat) := by decide

theorem witness_StepPerformsTheDecodedCommand : ∃ (s : State) (q : Nat) (c : InFlight) (rest : List Event) (i : Instr),
    s.inputs = .complete q :: rest ∧ s.inFlight q = some c ∧ decode s.cfg c.msg = .ok i :=
  ⟨sent [0x38] live, 0, inFlightOf cfg [0x38], [], .next 0, rfl, rfl, rfl⟩

theorem witness_StepRaisesWhatDecodingRejects : ∃ (s s' : State) (q : Nat) (c : InFlight) (rest : List Event) (r : Raise),
    (s.inputs = .complete q :: rest ∧ s.inFlight q = some c ∧ decode s.cfg c.msg = .error r ∧ s.statusFault = false) ∧
    (s'.inputs = .complete q :: rest ∧ s'.inFlight q = some c ∧ decode s'.cfg c.msg = .error r ∧ s'.statusFault = true) :=
  ⟨sent [0x801] live, sent [0x801] faulted, 0, inFlightOf cfg [0x801], [], ⟨.badOperand, 8⟩,
    ⟨rfl, rfl, rfl, rfl⟩, ⟨rfl, rfl, rfl, rfl⟩⟩

/-- A unit with two commands in flight, one whose lowest command in flight is requester 1's, and an idle one. -/
theorem witness_IdleUnitCompletesEverything : ∃ (s s' s0 : State) (c : InFlight),
    (s.inputs = [] ∧ s.inflight.countP Option.isSome = 2) ∧
    (s'.inputs = [] ∧ s'.inFlight 1 = some c ∧ ∀ q', q' < 1 → s'.inFlight q' = none) ∧
    (s0.inputs = [] ∧ ∀ q, s0.inFlight q = none) :=
  ⟨flying, { flying with inflight := [none, some (inFlightOf cfg [0x100000038])] }, live, inFlightOf cfg [0x100000038],
    ⟨rfl, rfl⟩, ⟨rfl, rfl, fun q' h => by
      match q' with
      | 0 => rfl
      | n + 1 => omega⟩, ⟨rfl, fun q => by
      match q with
      | 0 => rfl
      | 1 => rfl
      | n + 2 => rfl⟩⟩

theorem witness_IssuePutsTheCommandInFlight : ∃ (s : State) (q : Nat) (msg : List Word) (rest : List Event),
    s.inputs = .issue q msg :: rest ∧ q < s.inflight.length ∧ s.inFlight q = none ∧ s.statusFault = false ∧
    ∀ q' c, q' ≠ q → s.inFlight q' = some c → (heldOf s.cfg msg).shared c.held = none :=
  ⟨{ flying with inflight := [none, some (inFlightOf cfg [0x100000038])], inputs := [.issue 0 [0x38]] }, 0, [0x38], [],
    rfl, by decide, rfl, rfl, fun q' c _ h => by
      match q' with
      | 0 => cases h
      | 1 => cases h; decide
      | n + 2 => cases h⟩

/-- Its clauses on held slots at the ends of their ranges: an illegal opcode, CSR_READ, SEED_ALL, RESAMPLE of no operand, of N = 0, 1,
2^32 - 1 and 2^32 in both modes, a slot command of an existing and of a missing slot. -/
theorem witness_IssuePutsTheCommandInFlight_held :
    Opcode.ofCode (opcOf 0xFF) = none ∧ Opcode.ofCode (opcOf 0x401) = some .csrRead ∧
    Opcode.ofCode (opcOf 0x32) = some .seedAll ∧ Opcode.ofCode (opcOf 0x340) = some .resample ∧
    (([0] : List Word).getD 0 0).toNat = 0 ∧ 2 ^ 32 ≤ (([0x100000000] : List Word).getD 0 0).toNat ∧
    (0 < (([1] : List Word).getD 0 0).toNat ∧ (([0xFFFFFFFF] : List Word).getD 0 0).toNat < 2 ^ 32) ∧
    (cfg.mode = .parallel ∧ ({ cfg with mode := .sequential } : Config).mode = .sequential) ∧
    (Opcode.ofCode (opcOf 0x100000038) = some .next ∧ slotIndex cfg (slotFieldOf 0x100000038) = some 1 ∧
      slotIndex cfg (slotFieldOf 0x200000038) = none) := by decide

/-- Its clauses on footprints: of two particles; the bases that just fit, for one particle at the top of the space; N = 0 with bases
that do not fit anything. -/
theorem witness_IssuePutsTheCommandInFlight_foot :
    Opcode.ofCode (opcOf 0x340) = some .resample ∧ FootprintsComputable (opsOf 2) ∧
    FootprintsComputable ⟨1, 0xFFFFFFFFFFFFFFF8, 1, 1, 0xFFFFFFFFFFFFFFF8, 1, 1⟩ ∧
    FootprintsComputable ⟨0, 0xFFFFFFFFFFFFFFFF, 1, 0, 0xFFFFFFFFFFFFFFFF, 1, 0⟩ ∧
    footOf (0x340 :: (opsOf 2).words) = some ⟨⟨0x1000, 1, 2⟩, ⟨0x2000, 1, 2⟩⟩ :=
  ⟨by decide, ⟨by decide, by decide, rfl, rfl, by decide, by decide, by decide⟩,
    ⟨by decide, by decide, rfl, rfl, by decide, by decide, by decide⟩,
    ⟨by decide, by decide, rfl, rfl, by decide, by decide, by decide⟩, by decide⟩

theorem witness_SharedSlotRaceFaultsAtIssue : ∃ (s : State) (q : Nat) (msg : List Word) (rest : List Event) (k : Nat),
    s.inputs = .issue q msg :: rest ∧ q < s.inflight.length ∧ s.inFlight q = none ∧ s.statusFault = false ∧
    (∃ q' c, q' ≠ q ∧ s.inFlight q' = some c ∧ (heldOf s.cfg msg).lo ≤ k ∧ k < (heldOf s.cfg msg).hi ∧
      c.held.lo ≤ k ∧ k < c.held.hi) ∧
    (∀ q' c k', q' ≠ q → s.inFlight q' = some c → (heldOf s.cfg msg).lo ≤ k' → k' < (heldOf s.cfg msg).hi →
      c.held.lo ≤ k' → k' < c.held.hi → k ≤ k') :=
  ⟨{ flying with inflight := [none, some (inFlightOf cfg [0x100000038])], inputs := [.issue 0 [0x32, 7]] }, 0,
    [0x32, 7], [], 1, rfl, by decide, rfl, rfl,
    ⟨1, inFlightOf cfg [0x100000038], by decide, rfl, by decide, by decide, by decide, by decide⟩,
    fun q' c k' _ h _ _ h1 _ => by
      match q' with
      | 0 => cases h
      | 1 => cases h; exact h1
      | n + 2 => cases h⟩

/-- A read of the first byte of RFOOT, and a write of the last byte of WFOOT. -/
theorem witness_HostAccessToABufferInFlightRaces : ∀ x ∈ [(false, (0x2000 : Word)), (true, 0x101F)],
    ∃ (s : State) (bytes : List Byte) (len : Nat) (c : InFlight) (f : Footprints),
    s.inputs = [if x.1 then .hostWrite 1 x.2 bytes else .hostRead 1 x.2 len] ∧ (x.1 = true → len = bytes.length) ∧
    1 < s.inflight.length ∧ x.2.toNat + len ≤ 2 ^ 64 ∧ s.statusFault = false ∧
    s.inFlight 0 = some c ∧ c.foot = some f ∧ x.2.toNat < x.2.toNat + len ∧
    (f.counts.contains x.2.toNat = true ∨ (x.1 = true ∧ f.weights.contains x.2.toNat = true)) ∧
    (∀ q' c' f' b, s.inFlight q' = some c' → c'.foot = some f' → x.2.toNat ≤ b → b < x.2.toNat + len →
      f'.forbids x.1 b = true → x.2.toNat ≤ b ∧ (b = x.2.toNat → 0 ≤ q')) := by
  intro x hx
  refine ⟨{ resampling with inputs := [if x.1 then .hostWrite 1 x.2 [0] else .hostRead 1 x.2 1] }, [0], 1,
    inFlightOf cfg [0x340, 4, 0x1000, 1, 4, 0x2000, 1, 4], ⟨⟨0x1000, 1, 4⟩, ⟨0x2000, 1, 4⟩⟩, rfl, fun _ => rfl, ?_, ?_,
    rfl, rfl, by decide, by omega, ?_, fun _ _ _ _ _ _ h _ _ => ⟨h, fun _ => Nat.zero_le _⟩⟩
  · change 1 < 2
    omega
  · exact Nat.succ_le_of_lt x.2.isLt
  · simp only [List.mem_cons, List.not_mem_nil, or_false] at hx
    rcases hx with rfl | rfl
    · exact .inl (by decide)
    · exact .inr ⟨rfl, by decide⟩

theorem witness_HostAccessesAreOrdinaryOtherwise : ∃ (s s' : State) (addr : Word),
    (1 < s.inflight.length ∧ s.mem.wf = true ∧ s.inputs = [.hostRead 1 addr 8] ∧ addr.toNat + 8 ≤ 2 ^ 64 ∧
      ∀ q' c f a, s.inFlight q' = some c → c.foot = some f → addr.toNat ≤ a → a < addr.toNat + 8 →
        f.forbids false a = false) ∧
    (1 < s'.inflight.length ∧ s'.mem.wf = true ∧ s'.inputs = [.hostWrite 1 0xFFFFFFFFFFFFFFFF [7]] ∧
      (0xFFFFFFFFFFFFFFFF : Word).toNat + 1 ≤ 2 ^ 64 ∧ s'.statusFault = true) :=
  ⟨{ resampling with inputs := [.hostRead 1 0x1000 8] }, { faulted with inputs := [.hostWrite 1 0xFFFFFFFFFFFFFFFF [7]] },
    0x1000, ⟨by decide, rfl, rfl, by decide, fun q' c f a h hf h1 h2 => by
      match q' with
      | 0 =>
        cases h
        cases hf
        have h3 : a < 0x1008 := h2
        have h4 : ¬ 0x2000 ≤ a := by omega
        simp [Footprints.forbids, Footprint.contains, countFoot, h4]
      | 1 => cases h
      | n + 2 => cases h⟩, by decide, rfl, rfl, by decide, rfl⟩

theorem witness_ResetEventClearsTheUnit : ∃ (s : State) (rest : List Event), s.inputs = .reset :: rest :=
  ⟨{ faulted with inputs := [.reset, .complete 0] }, [.complete 0], rfl⟩

theorem witness_EveryStepKeepsMemoryCanonical : ∃ s t : State, s.mem.wf = true ∧ step s = .next t ∧ t.mem ≠ s.mem :=
  ⟨{ live with inputs := [.hostWrite 1 0x3000 [1]] }, _, rfl, next_after _ (by decide +kernel), by decide +kernel⟩

theorem witness_EveryStepKeepsRecordClear : ∃ s t : State, RecordClear s ∧ step s = .next t :=
  ⟨sent [0x10] live, _, fun _ => ⟨rfl, rfl, rfl⟩, next_after _ (by decide +kernel)⟩

theorem witness_EveryStepKeepsSizesAndParameters : ∃ s t : State, SizesRight s ∧ step s = .next t :=
  ⟨sent [0x32, 7] live, _, ⟨by decide, by decide⟩, next_after _ (by decide +kernel)⟩

theorem witness_EveryStepKeepsSlotsShaped : ∃ s t : State, s.cfg.legal = true ∧ SlotsShaped s ∧ step s = .next t :=
  ⟨sent [0x38] live, _, by decide, live_shaped, next_after _ (by decide +kernel)⟩

theorem witness_EveryStepKeepsSlotsCoherent : ∃ s t : State, s.cfg.legal = true ∧ SlotsShaped s ∧
    (s.statusFault = false → SlotsCoherent s) ∧ step s = .next t ∧ t.statusFault = false :=
  ⟨sent [0x38] live, _, by decide, live_shaped, fun _ => live_coherent, next_after _ (by decide +kernel),
    by decide +kernel⟩

theorem flying_disjoint : InFlightDisjoint flying where
  recorded q c h := by
    match q with
    | 0 => cases h; rfl
    | 1 => cases h; rfl
    | n + 2 => cases h
  disjoint _ q q' c c' hq h h' := by
    match q with
    | 0 =>
      match q' with
      | 0 => exact absurd rfl hq
      | 1 => cases h; cases h'; decide
      | n + 2 => cases h'
    | 1 =>
      match q' with
      | 0 => cases h; cases h'; decide
      | 1 => exact absurd rfl hq
      | n + 2 => cases h'
    | n + 2 => cases h

theorem witness_EveryStepKeepsInFlightDisjoint : ∃ s t : State, InFlightDisjoint s ∧ step s = .next t ∧
    (s.inFlight 0).isSome = true ∧ (s.inFlight 1).isSome = true :=
  ⟨flying, _, flying_disjoint, next_after _ (by decide +kernel), rfl, rfl⟩

theorem witness_OnlyResetLeavesTheFaultState : ∃ s t : State, s.statusFault = true ∧
    (∀ rest, s.inputs ≠ .reset :: rest) ∧ step s = .next t :=
  ⟨sent [0x38] faulted, _, rfl, fun _ h => (by cases h), next_after _ (by decide +kernel)⟩

theorem witness_FaultStateRefusesAllButCsrRead : ∃ (i : Instr) (s : State), s.statusFault = true ∧ i.opcode ≠ .csrRead :=
  ⟨.next 0, faulted, rfl, by decide⟩

theorem witness_FaultsArePrecise : ∃ (i : Instr) (s t : State), exec i s = .next t ∧ s.statusFault = false ∧
    t.statusFault = true ∧ t.statusCause ≠ Cause.probOutOfRange.code ∧ t.statusCause ≠ Cause.sumMismatch.code :=
  ⟨.next 1, live, _, next_after _ (by decide +kernel), rfl, by decide +kernel, by decide +kernel, by decide +kernel⟩

/-- Slot 2 does not exist and slot 1 is not constructed, in a running unit and in the fault state. -/
theorem witness_SlotCommandsCheckTheirSlot : live.statusFault = false ∧ (0 : BitVec 8).toNat < live.cfg.m ∧
    slotIndex live.cfg 2 = none ∧ slotIndex live.cfg 1 = some 1 ∧ live.slot 1 = none ∧
    slotIndex { cfg with mode := .sequential } 7 = some 0 ∧
    faulted.statusFault = true ∧ slotIndex faulted.cfg 2 = none ∧ slotIndex faulted.cfg 1 = some 1 ∧
    faulted.slot 1 = none := ⟨rfl, by decide, rfl, rfl, rfl, rfl, rfl, rfl, rfl, rfl⟩

theorem witness_SlotCommandsDependOnTheirSlotOnly : ∃ (i : Instr) (s s' t t' : State) (k : Nat),
    i.opcode ≠ .csrRead ∧ i.opcode ≠ .seedAll ∧ i.opcode ≠ .resample ∧ s.cfg.legal = true ∧ SizesRight s ∧
    SizesRight s' ∧ s'.cfg = s.cfg ∧ s'.serving = s.serving ∧ s.statusFault = false ∧ s'.statusFault = false ∧
    slotIndex s.cfg i.slotField = some k ∧ s'.slot k = s.slot k ∧ exec i s = .next t ∧ exec i s' = .next t' ∧
    s'.slot 1 ≠ s.slot 1 :=
  ⟨.next 0, live, flying, _, _, 0, by decide, by decide, by decide, by decide, live_sizes, ⟨by decide, by decide⟩, rfl, rfl,
    rfl, rfl, rfl, rfl, next_after _ (by decide +kernel), next_after _ (by decide +kernel), by decide⟩

theorem witness_DisjointCommandsCommute : ∃ (s t1 t12 t2 t21 : State) (q1 q2 : Nat) (c1 c2 : InFlight),
    s.cfg.legal = true ∧ SizesRight s ∧ q1 ≠ q2 ∧ s.inFlight q1 = some c1 ∧ s.inFlight q2 = some c2 ∧
    c1 = inFlightOf s.cfg c1.msg ∧ c2 = inFlightOf s.cfg c2.msg ∧ c1.held.shared c2.held = none ∧
    completeStep q1 s = .next t1 ∧ completeStep q2 t1 = .next t12 ∧
    completeStep q2 s = .next t2 ∧ completeStep q1 t2 = .next t21 ∧
    t12.statusFault = false ∧ t21.statusFault = false :=
  ⟨flying, _, _, _, _, 0, 1, _, _, by decide, ⟨by decide, by decide⟩, by decide, rfl, rfl, rfl, rfl, by decide,
    next_after _ (by decide +kernel), next_after _ (by decide +kernel), next_after _ (by decide +kernel),
    next_after _ (by decide +kernel), by decide +kernel, by decide +kernel⟩

/-- A legal instance at the ends of the ranges: M = 256, NR = 255, P = 2^16. -/
theorem witness_ConfigRegistersShowTheParameters :
    ∃ s : State, s.cfg.legal = true ∧ s.cfg.m = 256 ∧ s.cfg.nr = 255 ∧ s.cfg.p = 2 ^ 16 :=
  ⟨{ live with cfg := { cfg with m := 256, nr := 255, p := 2 ^ 16 } }, by decide, rfl, rfl, rfl⟩

theorem witness_StatusAndFaultRegistersRead : ∃ q : Nat, q < 2 ^ 16 ∧ q = 65535 := ⟨65535, by decide, rfl⟩

theorem witness_CursorAndSlotStateRead : ∃ (s : State) (slot : BitVec 32) (k : Nat) (sl : Slot), s.cfg.legal = true ∧
    slotIndex s.cfg slot = some k ∧ s.slot k = some sl ∧ sl.cur ≤ s.cfg.bufLen :=
  ⟨live, 0, 0, fresh, by decide, rfl, rfl, by decide⟩

/-- A valid slot of a running unit: the hypotheses of CtrZeroZeroesTheCounter, CtrIncAndCtrAddAddToTheCounter and
TransformAnswersTheEngine. -/
theorem witness_valid_slot : ∃ (s : State) (slot : BitVec 32) (k : Nat) (sl : Slot), s.statusFault = false ∧
    slotIndex s.cfg slot = some k ∧ s.slot k = some sl :=
  ⟨live, 0, 0, fresh, rfl, rfl, rfl⟩

theorem witness_CtrZeroZeroesTheCounter : ∃ (s : State) (slot : BitVec 32) (k : Nat) (sl : Slot), s.statusFault = false ∧
    slotIndex s.cfg slot = some k ∧ s.slot k = some sl := witness_valid_slot

theorem witness_CtrIncAndCtrAddAddToTheCounter : ∃ (s : State) (slot : BitVec 32) (k : Nat) (sl : Slot),
    s.statusFault = false ∧ slotIndex s.cfg slot = some k ∧ s.slot k = some sl := witness_valid_slot

theorem witness_TransformAnswersTheEngine : ∃ (s : State) (slot : BitVec 32) (k : Nat) (sl : Slot),
    s.statusFault = false ∧ slotIndex s.cfg slot = some k ∧ s.slot k = some sl := witness_valid_slot

/-- The largest loadable value of an instance with a block field, and the least one not loadable. -/
theorem witness_CtrLoadSetsTheCounter : ∃ (s : State) (k : Nat) (sl : Slot), s.statusFault = false ∧
    slotIndex s.cfg 0 = some k ∧ s.slot k = some sl ∧ s.cfg.part = true ∧
    ¬ 2 ^ s.cfg.arithBits ≤ s.cfg.ctrVal [0xFFFFFFFFFFFFFFFF, 0x00FFFFFFFFFFFFFF] ∧
    2 ^ s.cfg.arithBits ≤ s.cfg.ctrVal [0, 0x0100000000000000] :=
  ⟨counterAt cfg2 [0, 0], 0, _, rfl, rfl, rfl, by decide, by decide +kernel, by decide +kernel⟩

theorem witness_CtrReadAnswersTheBlock : ∃ (s : State) (k : Nat) (sl : Slot), s.statusFault = false ∧
    (1 : BitVec 8).toNat < s.cfg.m ∧ slotIndex s.cfg 0 = some k ∧ s.slot k = some sl ∧ s.cfg.m ≤ (2 : BitVec 8).toNat :=
  ⟨counterAt cfg2 [0, 0], 0, _, rfl, by decide, rfl, rfl, by decide⟩

theorem witness_BlocksShareTheArithmeticPartAndDiffer : ∃ (c : Config) (a : Nat), c.legal = true ∧ a < 2 ^ c.arithBits ∧
    a = 2 ^ c.arithBits - 1 ∧ 255 < c.m ∧ c.part = true :=
  ⟨{ cfg with m := 256 }, _, by decide, by decide +kernel, rfl, by decide, by decide⟩

theorem witness_WordByWordIncrementsAreCounterAdd : ∃ (c : Config) (a n : Nat), c.legal = true ∧ a < 2 ^ c.arithBits ∧
    a = 2 ^ c.arithBits - 1 ∧ n < 2 ^ c.wc ∧ n = 2 ^ c.wc - 1 :=
  ⟨cfg2, _, _, by decide, by decide +kernel, rfl, by decide +kernel, rfl⟩

theorem witness_ConstructingCommandsConstructTheSlot : ∃ (s : State) (slot : BitVec 32) (k : Nat), s.statusFault = false ∧
    slotIndex s.cfg slot = some k ∧ k < s.slots.length := ⟨live, 1, 1, rfl, rfl, by decide⟩

theorem witness_SeedAllConstructsEverySlot : ∃ s : State, s.statusFault = false ∧ s.cfg.legal = true ∧ SizesRight s :=
  ⟨live, rfl, by decide, live_sizes⟩

theorem witness_EngineImageHasTheBlockSize : ∃ (c : Config) (key block : List Word), key.length = c.kw ∧
    block.length = c.w ∧ c.engine = .aes192 := ⟨cfgOf .aes192 10 1 .w64, [1, 2, 3], [4, 5], rfl, rfl, rfl⟩

/-- The last unread word, and an exhausted buffer. -/
theorem witness_NextAnswersTheNextWord : ∃ (s s' : State) (k : Nat) (sl sl' : Slot),
    (s.statusFault = false ∧ slotIndex s.cfg 0 = some k ∧ s.slot k = some sl ∧ sl.cur < s.cfg.bufLen) ∧
    (s'.statusFault = false ∧ slotIndex s'.cfg 0 = some k ∧ s'.slot k = some sl' ∧ sl'.cur = s'.cfg.bufLen) :=
  ⟨with0 cfg { fresh with buf := [1, 2, 3, 4], cur := 3 }, live, 0, { fresh with buf := [1, 2, 3, 4], cur := 3 }, fresh,
    ⟨rfl, rfl, rfl, by decide⟩, ⟨rfl, rfl, rfl, by decide⟩⟩

theorem witness_NextWordIsAtMostMax : ∃ (s : State) (slot : BitVec 32) (k : Nat) (sl : Slot), s.statusFault = false ∧
    slotIndex s.cfg slot = some k ∧ s.slot k = some sl ∧ SlotShaped s.cfg sl :=
  ⟨live, 0, 0, fresh, rfl, rfl, rfl, fresh_shaped⟩

theorem witness_DiscardIsTheLoopOfNexts : ∃ (s : State) (slot : BitVec 32) (k : Nat) (sl : Slot), s.statusFault = false ∧
    s.cfg.legal = true ∧ slotIndex s.cfg slot = some k ∧ s.slot k = some sl ∧ sl.cur ≤ s.cfg.bufLen :=
  ⟨live, 0, 0, fresh, rfl, by decide, rfl, rfl, by decide⟩

theorem witness_DiscardThenNextIsOneMoreNext : ∃ (s : State) (q : Nat) (slot : BitVec 32) (k : Nat) (sl : Slot),
    s.statusFault = false ∧ s.cfg.legal = true ∧ q < s.inflight.length ∧ (∀ q', s.inFlight q' = none) ∧
    slotIndex s.cfg slot = some k ∧ s.slot k = some sl ∧ sl.cur ≤ s.cfg.bufLen :=
  ⟨live, 1, 0, 0, fresh, rfl, by decide, by decide, fun q' => by
      match q' with
      | 0 => rfl
      | 1 => rfl
      | n + 2 => rfl, rfl, rfl, by decide⟩

/-! RESAMPLE: two particles of weights 1 and 0, then 0 and 1, at 0x1000, their counts at 0x2000. -/

/-- The operand, slot and memory checks of two particles pass. -/
theorem two_runnable (w0 w1 : Word)
    (hw : ∀ i, i < 2 → weightBad (storedWeight (opsOf 2) (weighted [w0, w1]) i) = false) :
    ResampleRunnable (opsOf 2) (weighted [w0, w1]) where
  operands := ⟨by decide, by decide, rfl, rfl, by decide, by decide⟩
  streams := ⟨fun _ => by change 2 ≤ 2; omega, fun k hk => by
    have h2 : k < 2 := hk
    match k with
    | 0 => rfl
    | 1 => rfl
    | n + 2 => omega⟩
  buffers := ⟨by decide, by decide, by unfold Reachable; change ∀ i, i < 2 → reachable cfg _ = true; decide +kernel,
    by unfold Reachable; change ∀ i, i < 2 → reachable cfg _ = true; decide +kernel, by
    intro a h
    rw [show weightFoot (opsOf 2) = ⟨4096, 1, 2⟩ from rfl, show countFoot (opsOf 2) = ⟨8192, 1, 2⟩ from rfl] at h
    simp only [Footprint.contains, Bool.and_eq_true, decide_eq_true_eq] at h
    omega⟩
  weights := hw

theorem first_runnable : ResampleRunnable (opsOf 2) (weighted [0x3FF0000000000000, 0]) :=
  two_runnable _ _ (by decide +kernel)

theorem last_runnable : ResampleRunnable (opsOf 2) (weighted [0, 0x3FF0000000000000]) :=
  two_runnable _ _ (by decide +kernel)

/-- Whether a policy answers. -/
def answers : PolicyResult → Bool
  | .ok _ => true
  | .error _ => false

theorem of_answers {r : PolicyResult} (h : answers r = true) : ∃ rep slots, r = .ok (rep, slots) := by
  cases r with
  | ok x => exact ⟨x.1, x.2, rfl⟩
  | error f => cases h

/-- A weight of 1 draws with p = 1, which gives all copies. -/
theorem witness_PrimitivePoliciesStoreTheirCounts : ∃ (o : ResampleOps) (s : State), s.statusFault = false ∧
    s.mem.wf = true ∧ ResampleRunnable o s ∧
    (∃ rep slots, policyOn policyMultinomial o s = .ok (rep, slots)) ∧
    ∃ rep slots, policyOn policyResidual o s = .ok (rep, slots) :=
  ⟨opsOf 2, weighted [0x3FF0000000000000, 0], rfl, by decide +kernel, first_runnable, of_answers (by decide +kernel),
    of_answers (by decide +kernel)⟩

theorem witness_ScanPoliciesAlwaysComplete : ∃ (o : ResampleOps) (s : State) (rep : List Nat) (slots : List (Option Slot)),
    s.statusFault = false ∧ s.mem.wf = true ∧ ResampleRunnable o s ∧ policyOn policySystematic o s = .ok (rep, slots) :=
  ⟨opsOf 2, weighted [0x3FF0000000000000, 0], _, _, rfl, by decide +kernel, first_runnable, rfl⟩

theorem witness_ResidualScanPoliciesStoreTheirCounts : ∃ (o : ResampleOps) (s : State) (rep : List Nat)
    (slots : List (Option Slot)), s.statusFault = false ∧ s.mem.wf = true ∧ ResampleRunnable o s ∧
    policyOn policyResidualStratified o s = .ok (rep, slots) ∧ policyOn policyResidualSystematic o s = .ok (rep, slots) :=
  ⟨opsOf 2, weighted [0x3FF0000000000000, 0], [2, 0], [some fresh, some fresh], rfl, by decide +kernel, first_runnable,
    by decide +kernel, by decide +kernel⟩

/-- A stride of 0, a stride of the most negative number, a wrong length of each buffer, N = 2^32, and N = 0. -/
theorem witness_ResampleOperandChecks : live.statusFault = false ∧ (0 : Word).toInt ≤ 0 ∧
    (0 < (1 : Word).toInt ∧ (0x8000000000000000 : Word).toInt ≤ 0) ∧
    (0 < (0x7FFFFFFFFFFFFFFF : Word).toInt ∧ (3 : Word) ≠ 2 ∧ 2 ^ 32 ≤ (0x100000000 : Word).toNat ∧
      (⟨0, 7, 1, 0, 7, 1, 0⟩ : ResampleOps).n = 0) := by decide

/-- Each check at a failing value after the ones before it pass: three particles, slot 1 not constructed, bases 0x1004 and 0x2004, an
element past the admitted addresses, equal bases, a weight of minus infinity. -/
theorem witness_ResampleSlotMemoryAndWeightChecks :
    OperandsOk (opsOf 3) ∧ (live.cfg.mode = .parallel ∧ live.cfg.nstreams < (opsOf 3).n.toNat) ∧
    OperandsOk (opsOf 2) ∧ (opsOf 2).n.toNat ≤ live.cfg.nstreams ∧
    (1 < usedSlots live.cfg (opsOf 2).n.toNat ∧ live.slot 1 = none ∧ ∀ j, j < 1 → (live.slot j).isSome = true) ∧
    StreamsOk (opsOf 2) both ∧
    (({ opsOf 2 with wbase := 0x1004 } : ResampleOps).wbase.toNat % 8 ≠ 0) ∧
    (({ opsOf 2 with rbase := 0x2004 } : ResampleOps).rbase.toNat % 8 ≠ 0) ∧
    (reachable cfg ((weightFoot { opsOf 2 with wbase := 0xFFF8 }).elem 1) = false ∧
      reachable cfg ((weightFoot { opsOf 2 with wbase := 0xFFF8 }).elem 0) = true) ∧
    (Reachable cfg (weightFoot (opsOf 2)) ∧ reachable cfg ((countFoot { opsOf 2 with rbase := 0x10000 }).elem 0) = false) ∧
    ((weightFoot { opsOf 2 with rbase := 0x1000 }).contains 0x1000 = true ∧
      (countFoot { opsOf 2 with rbase := 0x1000 }).contains 0x1000 = true) ∧
    (BuffersOk (opsOf 2) (weighted [0, 0xFFF0000000000000]) ∧
      weightBad (storedWeight (opsOf 2) (weighted [0, 0xFFF0000000000000]) 1) = true ∧
      weightBad (storedWeight (opsOf 2) (weighted [0, 0xFFF0000000000000]) 0) = false) :=
  ⟨⟨by decide, by decide, rfl, rfl, by decide, by decide⟩, ⟨rfl, by decide⟩,
    first_runnable.operands, by decide, ⟨by decide, rfl, by decide⟩,
    ⟨first_runnable.streams.1, first_runnable.streams.2⟩, by decide, by decide,
    ⟨by decide +kernel, by decide +kernel⟩, ⟨first_runnable.buffers.wreach, by decide +kernel⟩,
    ⟨by decide, by decide⟩,
    ⟨⟨by decide, by decide, first_runnable.buffers.wreach, first_runnable.buffers.rreach, first_runnable.buffers.disjoint⟩,
      by decide +kernel, by decide +kernel⟩⟩

/-- RESIDUAL with all weights 0: SumMismatch(0) before any draw. -/
theorem witness_PolicyFaultsEndTheCommand : ∃ (o : ResampleOps) (s : State) (f : PolicyFault), s.statusFault = false ∧
    ResampleRunnable o s ∧ policyOn policyResidual o s = .error f ∧ f.info < 2 ^ 64 ∧ f.drawn = false :=
  ⟨opsOf 2, weighted [0, 0], ⟨.sumMismatch, 0, false⟩, rfl, two_runnable _ _ (by decide +kernel), by decide +kernel,
    by decide, rfl⟩

theorem witness_AbortLeavesOnlyUsedSlotsAndCountsOpen : ∃ (o : ResampleOps) (s : State) (f : PolicyFault),
    s.cfg.legal = true ∧ ResampleRunnable o s ∧ f.drawn = true :=
  ⟨opsOf 2, weighted [0x3FF0000000000000, 0], ⟨.sumMismatch, 1, true⟩, by decide, first_runnable, rfl⟩

theorem witness_CompletedResampleSumsToN : ∃ (o : ResampleOps) (s t : State), s.statusFault = false ∧ s.mem.wf = true ∧
    exec (.resampleResidual o) s = .next t ∧ t.statusFault = false ∧ o.n = 2 :=
  ⟨opsOf 2, weighted [0x3FF0000000000000, 0], _, rfl, by decide +kernel, next_after _ (by decide +kernel),
    by decide +kernel, rfl⟩

/-- The last particle under RESIDUAL, and a particle before the last under RESIDUAL_SYSTEMATIC. -/
theorem witness_ZeroWeightsGetNoCopies : ∃ (o : ResampleOps) (s s' t t' : State), s.statusFault = false ∧
    s.mem.wf = true ∧ exec (.resampleResidual o) s = .next t ∧ t.statusFault = false ∧ 1 < o.n.toNat ∧
    (storedWeight o s 1).isZero = true ∧
    s'.statusFault = false ∧ s'.mem.wf = true ∧ exec (.resampleResidualSystematic o) s' = .next t' ∧
    t'.statusFault = false ∧ 0 + 1 < o.n.toNat ∧ (storedWeight o s' 0).isZero = true :=
  ⟨opsOf 2, weighted [0x3FF0000000000000, 0], weighted [0, 0x3FF0000000000000], _, _, rfl, by decide +kernel,
    next_after _ (by decide +kernel), by decide +kernel, by decide, by decide +kernel, rfl, by decide +kernel,
    next_after _ (by decide +kernel), by decide +kernel, by decide, by decide +kernel⟩

theorem witness_ResidualPoliciesGiveTheFloor : ∃ (o : ResampleOps) (s t : State), s.statusFault = false ∧ s.mem.wf = true ∧
    exec (.resampleResidualStratified o) s = .next t ∧ t.statusFault = false ∧ 0 < o.n.toNat ∧
    storedWeight o s 0 = .fin false (2 ^ 1074) :=
  ⟨opsOf 2, weighted [0x3FF0000000000000, 0], _, rfl, by decide +kernel, next_after _ (by decide +kernel),
    by decide +kernel, by decide, by decide +kernel⟩

theorem witness_ResampleAdvancesOnlyItsStreams : ∃ (o : ResampleOps) (s t : State), s.statusFault = false ∧
    exec (.resampleSystematic o) s = .next t ∧ t.statusFault = false :=
  ⟨opsOf 2, weighted [0x3FF0000000000000, 0], _, rfl, next_after _ (by decide +kernel), by decide +kernel⟩

theorem witness_DrawsObeyTheirLaws : ∃ (sl : Slot) (k : Nat) (slots : List (Option Slot)), slots.getD k none = some sl ∧
    F64.zero.isZero = true := ⟨fresh, 0, [some fresh], rfl, by decide⟩

theorem witness_ScanIsTheLoopOfTheRule : ∃ v : List F64, v ≠ [] := ⟨[w05], by decide⟩

/-- A tie: half of 2^53 + 1 lies as near to 2^52 + 1 as to 2^52. And 1 + 1, 1 - 1, 1 / 0, and the square of 2^1023, which overflows. -/
theorem witness_OperationsRoundToNearestEven : ∃ (num den x n : Nat), 0 < den ∧ RepresentableUnits x ∧
    x ≠ F64.roundUnits num den ∧
    |(num : Int) - (F64.roundUnits num den : Int) * den| = |(num : Int) - (x : Int) * den| ∧ n ≤ 2 ^ 53 ∧
    (F64.signed false F64.unit + F64.signed false F64.unit ≠ 0 ∧
      F64.signed false F64.unit - F64.signed false F64.unit = 0 ∧ F64.unit ≠ 0) ∧
    (F64.roundUnits (2 * F64.unit) 1 < 2 ^ 1024 * F64.unit ∧
      2 ^ 1024 * F64.unit ≤ F64.roundUnits (2 ^ 1023 * F64.unit * (2 ^ 1023 * F64.unit)) F64.unit) :=
  ⟨2 ^ 53 + 1, 2, 2 ^ 52 + 1, 2 ^ 53, by decide, ⟨2 ^ 52 + 1, 0, by decide, by decide⟩, by decide +kernel,
    by decide +kernel, by decide, ⟨by decide +kernel, by decide +kernel, by decide +kernel⟩,
    ⟨by decide +kernel, by decide +kernel⟩⟩

/-- The weight 2^1023, whose product with 2 overflows. -/
def huge : F64 := .fin false (2 ^ 1023 * F64.unit)

/-- Splits with all copies guaranteed, too many (weights 1 and 1), none left to normalise (weights 0 and 0), and one left (0.5 and
0.25); a product that overflows; a probability that is not clamped. -/
theorem witness_PoliciesAreTheLoopsOfTheRules :
    (SplitInto [.one, .zero] [2, 0] [.zero, .zero] ∧ [2, 0].sum = 2) ∧
    (SplitInto [.one, .one] [2, 2] [.zero, .zero] ∧ 2 < [2, 2].sum) ∧
    (SplitInto [.zero, .zero] [0, 0] [.zero, .zero] ∧ [0, 0].sum < 2 ∧ ([.zero, .zero].foldl F64.add .zero).isZero = true) ∧
    (SplitInto [w05, F64.ofBits 0x3FD0000000000000] [1, 0] [.zero, w05] ∧ [1, 0].sum < 2 ∧
      ([.zero, w05].foldl F64.add .zero).isZero = false ∧ (∃ r, scanRule 1 ([], []) [.zero, .one] = .ok r) ∧
      ∃ f, primitiveRule cfg (drawing [] []) 1 [.zero, .zero] [] = .error f) ∧
    ((∀ x ∈ [huge, .zero], weightBad x = false) ∧ F64.mul (F64.ofNat 2) huge = .inf false) ∧
    clamp w05 = some w05 := by
  refine ⟨⟨⟨by simp, by simp, fun i hi => ?_⟩, by decide⟩, ⟨⟨by simp, by simp, fun i hi => ?_⟩, by decide⟩,
    ⟨⟨by simp, by simp, fun i hi => ?_⟩, by decide, by decide +kernel⟩,
    ⟨⟨by simp, by simp, fun i hi => ?_⟩, by decide, by decide +kernel, ⟨_, rfl⟩, ⟨⟨.sumMismatch, 0, false⟩, by decide +kernel⟩⟩,
    ⟨by decide +kernel, by decide +kernel⟩, by decide +kernel⟩
  · match i with
    | 0 => exact ⟨by decide +kernel, false, 2 * F64.unit, by decide +kernel⟩
    | 1 => exact ⟨by decide +kernel, false, 0, by decide +kernel⟩
    | n + 2 => exact absurd hi (by simp)
  · match i with
    | 0 => exact ⟨by decide +kernel, false, 2 * F64.unit, by decide +kernel⟩
    | 1 => exact ⟨by decide +kernel, false, 2 * F64.unit, by decide +kernel⟩
    | n + 2 => exact absurd hi (by simp)
  · match i with
    | 0 => exact ⟨by decide +kernel, false, 0, by decide +kernel⟩
    | 1 => exact ⟨by decide +kernel, false, 0, by decide +kernel⟩
    | n + 2 => exact absurd hi (by simp)
  · match i with
    | 0 => exact ⟨by decide +kernel, false, F64.unit, by decide +kernel⟩
    | 1 => exact ⟨by decide +kernel, false, 2 ^ 1073, by decide +kernel⟩
    | n + 2 => exact absurd hi (by simp)

end Sys2Proof.Tests
end

section
/-! PROOFS. The sizes of the engine's image and of the AES key schedule (spec/42_engine.md R130, R140). -/

namespace Sys2Proof

namespace Aes

@[simp] theorem bytesOfWords_length (ws : List Word) : (bytesOfWords ws).length = 8 * ws.length := by
  simp [bytesOfWords, mul_comm]

theorem keyWords_length (bs : List Byte) : (keyWords bs).length = bs.length / 4 := by
  fun_induction keyWords bs with
  | case1 a b x y rest ih => simp only [List.length_cons, ih]; omega
  | case2 bs hshort =>
    match bs with
    | [] | [_] | [_, _] | [_, _, _] => simp
    | a :: b :: x :: y :: rest => exact absurd rfl (hshort a b x y rest)

@[simp] theorem expandFrom_length (nk count i : Nat) (before : List KeyWord) :
    (expandFrom nk count i before).length = count + before.length := by
  induction count generalizing i before with
  | zero => simp [expandFrom]
  | succ count ih => simp only [expandFrom, ih, List.length_cons]; omega

@[simp] theorem build_length (f : Nat → Nat → Byte) : (build f).length = 16 := by simp [build]

theorem roundKey_length {w : List KeyWord} {r : Nat} (h : 4 * r + 4 ≤ w.length) : (roundKey w r).length = 16 := by
  have hwords : min 4 (w.length - 4 * r) = 4 := by omega
  simp [roundKey, List.length_flatMap, hwords]

theorem addRoundKey_length {w : List KeyWord} {r : Nat} {st : St} (h : 4 * r + 4 ≤ w.length) (hst : st.length = 16) :
    (addRoundKey w r st).length = 16 := by
  simp [addRoundKey, roundKey_length h, hst]

end Aes

/-- The engines with a key schedule, the three AES ones. -/
def Engine.IsAes (e : Engine) : Prop := e = .aes128 ∨ e = .aes192 ∨ e = .aes256

namespace Config

variable {c : Config}

/-- The three rows of R140: Nk is 4, 6 or 8 and Nr is 10, 12 or 14. -/
theorem aes_key_and_rounds (h : c.engine.IsAes) :
    (c.kw = 2 ∧ c.rounds = 10) ∨ (c.kw = 3 ∧ c.rounds = 12) ∨ (c.kw = 4 ∧ c.rounds = 14) := by
  rcases h with h | h | h <;> simp [kw, rounds, h]

theorem blockBits_of_aes (h : c.engine.IsAes) : c.blockBits = 128 := by
  rcases h with h | h | h <;> simp [blockBits, w, wc, h]

theorem wc_cases (c : Config) : c.wc = 64 ∨ c.wc = 32 := by
  unfold wc
  split <;> simp

end Config

theorem Aes.schedule_length {c : Config} {key : List Word} (h : c.engine.IsAes) (hkey : key.length = c.kw) :
    (Aes.schedule c key).length = 4 * (c.rounds + 1) := by
  have hsizes := Config.aes_key_and_rounds h
  simp only [Aes.schedule, Aes.nk, List.length_reverse, Aes.expandFrom_length, Aes.keyWords_length,
    Aes.bytesOfWords_length, hkey]
  omega

/-- ShiftRows fixes the number of bytes, and the schedule holds a full last round key. -/
theorem Aes.cipher_length {c : Config} {key : List Word} (h : c.engine.IsAes) (hkey : key.length = c.kw)
    (input : List Byte) : (Aes.cipher c key input).length = 16 :=
  addRoundKey_length (by rw [schedule_length h hkey]; omega) (build_length _)

@[simp] theorem Philox.round_length (w : Nat) (pm key x : List Nat) : (Philox.round w pm key x).length = x.length := by
  unfold Philox.round
  split <;> rfl

@[simp] theorem Philox.rounds_length (w : Nat) (pm : List Nat) (count : Nat) (key x : List Nat) :
    (Philox.rounds w pm count key x).length = x.length := by
  induction count generalizing key x with
  | zero => rfl
  | succ count ih => simp [Philox.rounds, ih]

@[simp] theorem Threefry.inject_length (w : Nat) (ks x : List Nat) (d : Nat) :
    (Threefry.inject w ks x d).length = x.length := by
  simp [Threefry.inject]

@[simp] theorem Threefry.round_length (w r : Nat) (x : List Nat) : (Threefry.round w r x).length = x.length := by
  unfold Threefry.round
  split
  · rfl
  · dsimp only
    split <;> rfl
  · rfl

@[simp] theorem Threefry.rounds_length (w : Nat) (ks : List Nat) (count r : Nat) (x : List Nat) :
    (Threefry.rounds w ks count r x).length = x.length := by
  induction count generalizing r x with
  | zero => rfl
  | succ count ih =>
    simp only [Threefry.rounds, ih]
    split <;> simp

/-- An ARX engine answers as many words as it is given (R154, R164). -/
@[simp] theorem arxWords_length (c : Config) (key block : List Nat) :
    (arxWords c key block).length = block.length := by
  unfold arxWords
  split <;> simp

theorem engineImage_of_aes {c : Config} (h : c.engine.IsAes) (key block : List Word) :
    engineImage c key block = Aes.cipher c key (Aes.bytesOfWords block) := by
  rcases h with h | h | h <;> simp [engineImage, h]

theorem engineImage_of_arx {c : Config} (h : ¬ c.engine.IsAes) (key block : List Word) : engineImage c key block =
    (arxWords c (key.map BitVec.toNat) (block.map BitVec.toNat)).flatMap (leBytes (c.wc / 8)) := by
  unfold engineImage
  split <;> simp_all [Engine.IsAes]

theorem engineImage_length_of_aes {c : Config} {key : List Word} (h : c.engine.IsAes) (hkey : key.length = c.kw)
    (block : List Word) : (engineImage c key block).length * 8 = c.blockBits := by
  rw [engineImage_of_aes h, Aes.cipher_length h hkey, Config.blockBits_of_aes h]

theorem engineImage_length_of_arx {c : Config} {block : List Word} (h : ¬ c.engine.IsAes) (key : List Word)
    (hblock : block.length = c.w) : (engineImage c key block).length * 8 = c.blockBits := by
  have hbytes : c.wc / 8 * 8 = c.wc := by have := c.wc_cases; omega
  have hlen : (engineImage c key block).length = c.w * (c.wc / 8) := by
    simp [engineImage_of_arx h, List.length_flatMap, hblock, Machine.leBytes_length]
  rw [hlen, mul_assoc, hbytes, Config.blockBits]

end Sys2Proof

open Sys2Proof Sys2Proof.Machine

/-- Settles O40: AES by the lengths of its rounds, an ARX engine because every round and injection keeps the number of words. -/
theorem engineImageHasTheBlockSize : Obligations.EngineImageHasTheBlockSize := by
  intro c key block hkey hblock
  refine ⟨?_, fun haes => Aes.schedule_length haes hkey⟩
  by_cases haes : c.engine.IsAes
  · exact engineImage_length_of_aes haes hkey block
  · exact engineImage_length_of_arx haes key hblock
end

section
/-! PROOFS. Rounding to nearest, ties to even, and the four binary64 operations (spec/00_scope.md R11). -/

namespace Sys2Proof

open Machine

namespace F64

/-! ### Rounding a quotient to an integer -/

/-- `num / d` rounded to the nearest integer, a tie to the even one. -/
def halfEven (num d : Nat) : Nat :=
  if d < 2 * (num % d) ∨ (2 * (num % d) = d ∧ num / d % 2 = 1) then num / d + 1 else num / d

/-- The two candidates, the integers below and above the quotient, and when each is taken. -/
theorem halfEven_cases (num d : Nat) :
    (halfEven num d = num / d ∧ 2 * (num % d) ≤ d ∧ (2 * (num % d) = d → num / d % 2 = 0)) ∨
    (halfEven num d = num / d + 1 ∧ d ≤ 2 * (num % d) ∧ (2 * (num % d) = d → num / d % 2 = 1)) := by
  unfold halfEven
  split <;> simp <;> omega

/-- Among the numbers outside the open interval between the two candidates' multiples of `d` none is nearer to `num` than the chosen
multiple, and only beside an even choice another one is as near. -/
theorem halfEven_nearest {num d y : Nat} (hd : 0 < d) (hy : y ≤ num / d * d ∨ (num / d + 1) * d ≤ y) :
    |(num : Int) - (halfEven num d * d : Nat)| ≤ |(num : Int) - y| ∧
    (y ≠ halfEven num d * d → |(num : Int) - (halfEven num d * d : Nat)| = |(num : Int) - y| →
      halfEven num d % 2 = 0) := by
  have hdiv := Nat.div_add_mod' num d
  have hrest := Nat.mod_lt num hd
  rw [add_one_mul] at hy
  simp only [Int.abs_eq_natAbs]
  rcases halfEven_cases num d with ⟨hk, hle, htie⟩ | ⟨hk, hle, htie⟩
  · rw [hk]
    generalize num / d * d = low at *
    omega
  · rw [hk, add_one_mul]
    generalize num / d * d = low at *
    omega

/-! ### Rounding to 53 significant bits (R11) -/

/-- The exponent of the last place `roundUnits` keeps: 0 while the quotient has at most 53 bits. -/
def lastPlace (num den : Nat) : Nat := if num / den < 2 ^ 53 then 0 else Nat.log2 (num / den) - 52

/-- The significand `roundUnits` chooses, in units of its last place. -/
def significand (num den : Nat) : Nat := halfEven num (den * 2 ^ lastPlace num den)

theorem roundUnits_eq (num den : Nat) :
    roundUnits num den = significand num den * 2 ^ lastPlace num den := rfl

/-- The significand before rounding has 53 bits, or fewer with the last place at 1 unit. -/
theorem floor_bounds (num den : Nat) :
    num / (den * 2 ^ lastPlace num den) < 2 ^ 53 ∧
    (lastPlace num den = 0 ∨ 2 ^ 52 ≤ num / (den * 2 ^ lastPlace num den)) := by
  rw [← Nat.div_div_eq_div_mul]
  unfold lastPlace
  split
  next hsmall => simpa using hsmall
  next hbig =>
    have hne : num / den ≠ 0 := by omega
    have hlog : 53 ≤ Nat.log2 (num / den) := (Nat.le_log2 hne).mpr (by omega)
    have hlow := Nat.log2_self_le hne
    have hhigh := Nat.lt_log2_self (n := num / den)
    generalize Nat.log2 (num / den) = l at *
    obtain ⟨sh, rfl⟩ : ∃ sh, l = 52 + sh := ⟨l - 52, by omega⟩
    rw [Nat.add_sub_cancel_left, Nat.div_lt_iff_lt_mul (by positivity), Nat.le_div_iff_mul_le (by positivity),
      ← pow_add, ← pow_add]
    exact ⟨by rwa [show 53 + sh = 52 + sh + 1 by omega], .inr hlow⟩

theorem significand_le (num den : Nat) : significand num den ≤ 2 ^ 53 := by
  have := (floor_bounds num den).1
  rcases halfEven_cases num (den * 2 ^ lastPlace num den) with ⟨hk, _⟩ | ⟨hk, _⟩ <;>
    rw [significand, hk] <;> omega

theorem le_significand (num den : Nat) : lastPlace num den = 0 ∨ 2 ^ 52 ≤ significand num den := by
  have := (floor_bounds num den).2
  rcases halfEven_cases num (den * 2 ^ lastPlace num den) with ⟨hk, _⟩ | ⟨hk, _⟩ <;>
    rw [significand, hk] <;> omega

theorem roundUnits_representable (num den : Nat) : RepresentableUnits (roundUnits num den) :=
  ⟨_, _, significand_le num den, roundUnits_eq num den⟩

/-- A number of 53 significant bits does not lie strictly between the neighbours `k` and `k + 1` in the place `sh`, if `k` itself has
53 bits or that place is the last one. -/
theorem representable_outside {x k sh : Nat} (hx : RepresentableUnits x) (hk : sh = 0 ∨ 2 ^ 52 ≤ k) :
    x ≤ k * 2 ^ sh ∨ (k + 1) * 2 ^ sh ≤ x := by
  obtain ⟨m, e, hm, rfl⟩ := hx
  rcases le_or_gt sh e with he | he
  · obtain ⟨j, rfl⟩ := Nat.exists_eq_add_of_le' he
    rw [pow_add, ← mul_assoc]
    rcases Nat.lt_or_ge k (m * 2 ^ j) with h | h
    · exact .inr (Nat.mul_le_mul_right _ h)
    · exact .inl (Nat.mul_le_mul_right _ h)
  · left
    obtain ⟨sh, rfl⟩ : ∃ j, sh = j + 1 := ⟨sh - 1, by omega⟩
    calc m * 2 ^ e ≤ 2 ^ 53 * 2 ^ sh := Nat.mul_le_mul hm (Nat.pow_le_pow_right (by omega) (by omega))
      _ = 2 ^ 52 * 2 ^ (sh + 1) := by ring
      _ ≤ k * 2 ^ (sh + 1) := Nat.mul_le_mul_right _ (by omega)

theorem roundUnits_nearest {num den x : Nat} (hden : 0 < den) (hx : RepresentableUnits x) :
    |(num : Int) - (roundUnits num den : Int) * den| ≤ |(num : Int) - (x : Int) * den| ∧
    (x ≠ roundUnits num den →
      |(num : Int) - (roundUnits num den : Int) * den| = |(num : Int) - (x : Int) * den| →
      significand num den % 2 = 0) := by
  have hd : 0 < den * 2 ^ lastPlace num den := by positivity
  have hround : roundUnits num den * den = significand num den * (den * 2 ^ lastPlace num den) := by
    rw [roundUnits_eq]; ring
  have hout := representable_outside hx (floor_bounds num den).2
  have houtd : x * den ≤ num / (den * 2 ^ lastPlace num den) * (den * 2 ^ lastPlace num den) ∨
      (num / (den * 2 ^ lastPlace num den) + 1) * (den * 2 ^ lastPlace num den) ≤ x * den := by
    refine hout.imp (fun h => ?_) (fun h => ?_)
    · calc _ ≤ _ := Nat.mul_le_mul_right den h
        _ = _ := by ring
    · calc _ = _ := by ring
        _ ≤ _ := Nat.mul_le_mul_right den h
  obtain ⟨hle, heven⟩ := halfEven_nearest hd houtd
  rw [← significand, ← hround] at hle heven
  push_cast at hle heven
  exact ⟨hle, fun hne => heven fun h => hne (Nat.eq_of_mul_eq_mul_right hden h)⟩

theorem roundUnits_of_representable {x : Nat} (hx : RepresentableUnits x) : roundUnits x 1 = x := by
  have := (roundUnits_nearest (num := x) one_pos hx).1
  simp only [Nat.cast_one, mul_one, sub_self, abs_zero, abs_nonpos_iff] at this
  omega

@[simp] theorem roundUnits_zero : roundUnits 0 1 = 0 := roundUnits_of_representable ⟨0, 0, by simp⟩

/-! ### The sign and the overflow of a result (R11) -/

theorem unit_pos : 0 < unit := by unfold unit; positivity

theorem overflow_eq : 2 ^ 1024 * unit = 2 ^ 2098 := by
  rw [unit, show 2098 = 1024 + 1074 from rfl, Nat.pow_add]

theorem ofUnits_of_lt {neg : Bool} {units : Nat} (h : units < 2 ^ 1024 * unit) : ofUnits neg units = .fin neg units :=
  if_pos (overflow_eq ▸ h)

theorem ofUnits_of_le {neg : Bool} {units : Nat} (h : 2 ^ 1024 * unit ≤ units) : ofUnits neg units = .inf neg :=
  if_neg (Nat.not_lt.mpr (overflow_eq ▸ h))

theorem roundsTo_ofUnits (neg : Bool) (num den : Nat) : RoundsTo neg num den (ofUnits neg (roundUnits num den)) :=
  ⟨ofUnits_of_lt, ofUnits_of_le⟩

@[simp] theorem ofUnits_zero (neg : Bool) : ofUnits neg 0 = .fin neg 0 := ofUnits_of_lt (Nat.mul_pos (by positivity) unit_pos)

theorem signed_not (b : Bool) (y : Nat) : signed (!b) y = -signed b y := by
  cases b <;> simp [signed]

@[simp] theorem natAbs_signed (a : Bool) (n : Nat) : (signed a n).natAbs = n := by
  cases a <;> simp [signed]

theorem signed_eq_zero {a : Bool} {n : Nat} : signed a n = 0 ↔ n = 0 := by
  rw [← Int.natAbs_eq_zero, natAbs_signed]

theorem decide_signed_neg {a : Bool} {n : Nat} (hn : n ≠ 0) : decide (signed a n < 0) = a := by
  cases a
  · simp [signed]
  · simp [signed]; omega

theorem signed_add_same (a : Bool) (x y : Nat) : signed a x + signed a y = signed a (x + y) := by
  cases a
  · simp [signed]
  · simp [signed]; omega

theorem signed_add_opposite (a : Bool) {x y : Nat} (h : y ≤ x) :
    signed a x + signed (!a) y = signed a (x - y) := by
  cases a
  · simp [signed]; omega
  · simp [signed]; omega

/-- Equal signs add the magnitudes; opposite ones leave the larger magnitude's sign and the difference. -/
theorem add_fin (a b : Bool) (x y : Nat) : ∃ neg n, signed a x + signed b y = signed neg n ∧
    add (.fin a x) (.fin b y) = ofUnits neg (roundUnits n 1) ∧ (n = 0 → neg = (a && b)) := by
  rcases Bool.eq_or_eq_not b a with rfl | rfl
  · exact ⟨b, x + y, signed_add_same b x y, if_pos rfl, fun _ => (Bool.and_self b).symm⟩
  rcases lt_trichotomy y x with hlt | rfl | hlt
  · exact ⟨a, x - y, signed_add_opposite a hlt.le, by simp [add, hlt, hlt.ne'], by omega⟩
  · exact ⟨false, 0, (by rw [signed_not, add_neg_cancel, signed_eq_zero.mpr rfl]), by simp [add, zero], by simp⟩
  · refine ⟨!a, y - x, ?_, by simp [add, hlt.ne, hlt.not_gt], by omega⟩
    rw [add_comm, ← signed_add_opposite (!a) hlt.le, Bool.not_not]

theorem add_roundsTo {a b : Bool} {x y : Nat} (h : signed a x + signed b y ≠ 0) :
    RoundsTo (decide (signed a x + signed b y < 0)) (signed a x + signed b y).natAbs 1
      (add (.fin a x) (.fin b y)) := by
  obtain ⟨neg, n, hsum, hadd, -⟩ := add_fin a b x y
  rw [hsum, ne_eq, signed_eq_zero] at h
  rw [hsum, hadd, natAbs_signed, decide_signed_neg h]
  exact roundsTo_ofUnits neg n 1

theorem add_of_sum_zero {a b : Bool} {x y : Nat} (h : signed a x + signed b y = 0) :
    add (.fin a x) (.fin b y) = .fin (a && b) 0 := by
  obtain ⟨neg, n, hsum, hadd, hsign⟩ := add_fin a b x y
  rw [hsum, signed_eq_zero] at h
  rw [hadd, ← hsign h, h, roundUnits_zero, ofUnits_zero]

theorem sub_roundsTo {a b : Bool} {x y : Nat} (h : signed a x - signed b y ≠ 0) :
    RoundsTo (decide (signed a x - signed b y < 0)) (signed a x - signed b y).natAbs 1
      (sub (.fin a x) (.fin b y)) := by
  rw [sub_eq_add_neg, ← signed_not] at h ⊢
  exact add_roundsTo h

theorem sub_of_diff_zero {a b : Bool} {x y : Nat} (h : signed a x - signed b y = 0) :
    sub (.fin a x) (.fin b y) = .fin (a && !b) 0 := by
  rw [sub_eq_add_neg, ← signed_not] at h
  exact add_of_sum_zero h

theorem mul_roundsTo (a b : Bool) (x y : Nat) :
    RoundsTo (a != b) (x * y) unit (mul (.fin a x) (.fin b y)) :=
  roundsTo_ofUnits _ _ _

theorem div_roundsTo (a b : Bool) (x : Nat) {y : Nat} (hy : y ≠ 0) :
    RoundsTo (a != b) (x * unit) y (div (.fin a x) (.fin b y)) := by
  rw [div, if_neg hy]
  exact roundsTo_ofUnits _ _ _

theorem op_nan {op : F64 → F64 → F64} (hop : op ∈ [add, sub, mul, div]) (x : F64) :
    op .nan x = .nan ∧ op x .nan = .nan := by
  simp only [List.mem_cons, List.not_mem_nil, or_false] at hop
  rcases hop with rfl | rfl | rfl | rfl <;> cases x <;> exact ⟨rfl, rfl⟩

theorem ofNat_exact {n : Nat} (hn : n ≤ 2 ^ 53) : ofNat n = .fin false (n * 2 ^ 1074) := by
  have hrep : RepresentableUnits (n * unit) := ⟨n, 1074, hn, rfl⟩
  have hlt : n * unit < 2 ^ 1024 * unit :=
    Nat.mul_lt_mul_of_pos_right (hn.trans_lt (by gcongr <;> decide)) unit_pos
  rw [ofNat, roundUnits_of_representable hrep, ofUnits_of_lt hlt, unit]

end F64

end Sys2Proof

open Sys2Proof Sys2Proof.Machine

/-- Settles O59: rounding by the two neighbours of the exact value, the operations by the sign and magnitude of their exact results. -/
theorem operationsRoundToNearestEven : Obligations.OperationsRoundToNearestEven := by
  refine ⟨fun num den hden => ⟨F64.roundUnits_representable num den, fun x hx => (F64.roundUnits_nearest hden hx).1,
    fun x hx hne htie => ⟨_, _, F64.roundUnits_eq num den, (F64.roundUnits_nearest hden hx).2 hne htie,
      F64.significand_le num den, F64.le_significand num den⟩⟩, fun a b x y => ?_,
    fun op hop x => F64.op_nan hop x, fun n hn => F64.ofNat_exact hn⟩
  refine ⟨F64.add_roundsTo, F64.add_of_sum_zero, F64.sub_roundsTo, F64.sub_of_diff_zero, F64.mul_roundsTo a b x y,
    F64.div_roundsTo a b x, fun hy => if_pos hy, ?_⟩
  exact ⟨rfl, rfl, rfl, rfl, rfl, rfl, rfl, rfl, rfl, by cases a <;> cases b <;> rfl, rfl, rfl⟩
end

section
/-! PROOFS. Counter blocks: their shape, their value, and the arithmetic part and field of `Blocks(a)` (spec/41_counter.md R100-R102),
and the sizes a legal configuration fixes (spec/00_scope.md R6-R8). -/

namespace Sys2Proof

/-- The digits of `v` in base `2^bits` are a block of value `v` modulo the block's size (R100, R102). -/
theorem valWords_digits {bits : Nat} (hbits : bits ≤ 64) (n v : Nat) :
    valWords bits ((List.range n).map fun j => BitVec.ofNat 64 (v / 2 ^ (bits * j) % 2 ^ bits)) = v % 2 ^ (bits * n) := by
  induction n generalizing v with
  | zero => simp [valWords, Nat.mod_one]
  | succ n ih =>
    have hfit : v % 2 ^ bits < 2 ^ 64 := (Nat.mod_lt _ (by positivity)).trans_le (Nat.pow_le_pow_right (by decide) hbits)
    have htail := ih (v / 2 ^ bits)
    simp only [Nat.div_div_eq_div_mul, ← pow_add] at htail
    have hhead : (BitVec.ofNat 64 (v / 2 ^ (bits * 0) % 2 ^ bits)).toNat = v % 2 ^ bits := by
      simpa using Nat.mod_eq_of_lt hfit
    rw [List.range_succ_eq_map, List.map_cons, List.map_map, valWords, hhead]
    simp only [Function.comp_def, Nat.mul_succ, Nat.add_comm _ bits, htail]
    rw [pow_add, Nat.mod_mul]

namespace Config

variable {c : Config}

theorem wc_le (c : Config) : c.wc ≤ 64 := by have := c.wc_cases; omega

theorem w_cases (c : Config) : c.w = 2 ∨ c.w = 4 := by
  unfold w
  split <;> simp

theorem wrBits_cases (c : Config) : c.wrBits = 32 ∨ c.wrBits = 64 := by
  unfold wrBits
  split <;> simp

theorem legal_bounds (h : c.legal = true) : (1 ≤ c.nr ∧ c.nr ≤ 255) ∧ (1 ≤ c.m ∧ c.m ≤ 256) ∧
    (1 ≤ c.nstreams ∧ c.nstreams < 2 ^ 32) ∧ (1 ≤ c.p ∧ c.p ≤ 2 ^ 16) := by
  simp only [legal, Bool.and_eq_true, decide_eq_true_eq] at h
  exact ⟨h.1.1.1.1, h.1.1.1.2, h.1.1.2, h.1.2⟩

theorem rb_bounds (c : Config) : 1 ≤ c.rb ∧ c.rb ≤ 8 := by
  unfold rb blockBits
  rcases c.w_cases with hw | hw <;> rcases c.wc_cases with hc | hc <;> rcases c.wrBits_cases with hr | hr <;>
    simp [hw, hc, hr]

/-- R of a legal configuration (R8, R35). -/
theorem bufLen_bounds (h : c.legal = true) : 1 ≤ c.bufLen ∧ c.bufLen ≤ 2048 := by
  obtain ⟨-, ⟨hm, hm'⟩, -⟩ := legal_bounds h
  obtain ⟨hr, hr'⟩ := c.rb_bounds
  exact ⟨Nat.mul_pos hm hr, Nat.mul_le_mul hm' hr'⟩

theorem toNative_lt (c : Config) (v : Word) : (c.toNative v).toNat < 2 ^ c.wc := by
  rw [toNative, BitVec.toNat_ofNat]
  exact (Nat.mod_le _ _).trans_lt (Nat.mod_lt _ (by positivity))

/-! ### Blocks -/

/-- A block of W native words (R25, R100). -/
def BlockShaped (c : Config) (block : List Word) : Prop := block.length = c.w ∧ ∀ v ∈ block, v.toNat < 2 ^ c.wc

theorem ctrWords_shaped (c : Config) (v : Nat) : c.BlockShaped (c.ctrWords v) := by
  refine ⟨by simp [ctrWords], fun x hx => ?_⟩
  obtain ⟨j, -, rfl⟩ := List.mem_map.1 hx
  rw [BitVec.toNat_ofNat]
  exact (Nat.mod_le _ _).trans_lt (Nat.mod_lt _ (by positivity))

theorem ctrVal_ctrWords (c : Config) (v : Nat) : c.ctrVal (c.ctrWords v) = v % 2 ^ c.blockBits := by
  rw [ctrVal, ctrWords, valWords_digits c.wc_le, blockBits, Nat.mul_comm]

theorem arithBits_le (c : Config) : c.arithBits ≤ c.blockBits := by
  unfold arithBits
  split <;> omega

theorem arith_ctrWords (c : Config) (v : Nat) : c.arith (c.ctrWords v) = v % 2 ^ c.arithBits := by
  rw [arith, ctrVal_ctrWords, Nat.mod_mod_of_dvd _ (pow_dvd_pow 2 c.arithBits_le)]

/-- The top 8 bits of a block's last word are the top 8 bits of its value (R101). -/
theorem field_ctrWords (c : Config) (v : Nat) : c.field (c.ctrWords v) = v / 2 ^ (c.blockBits - 8) % 2 ^ 8 := by
  have hwc : 8 ≤ c.wc := by have := c.wc_cases; omega
  have hw : 0 < c.w := by have := c.w_cases; omega
  have hbits : c.wc * (c.w - 1) + (c.wc - 8) = c.blockBits - 8 := by
    rw [blockBits, Nat.mul_sub_one, Nat.mul_comm c.w]
    have := Nat.le_mul_of_pos_right c.wc hw
    omega
  have hfit : v / 2 ^ (c.wc * (c.w - 1)) % 2 ^ c.wc < 2 ^ 64 :=
    (Nat.mod_lt _ (by positivity)).trans_le (Nat.pow_le_pow_right (by decide) c.wc_le)
  have hlast : ((c.ctrWords v).getD (c.w - 1) 0).toNat = v / 2 ^ (c.wc * (c.w - 1)) % 2 ^ c.wc := by
    simpa [ctrWords, hw] using Nat.mod_eq_of_lt hfit
  have htop : 2 ^ c.wc = 2 ^ (c.wc - 8) * 2 ^ 8 := by rw [← pow_add, Nat.sub_add_cancel hwc]
  rw [field, hlast, htop, Nat.mod_mul_right_div_self, Nat.div_div_eq_div_mul, ← pow_add, hbits, Nat.mod_mod]

theorem blocks_of_part (h : c.part = true) (a : Nat) :
    c.blocks a = (List.range c.m).map fun b => c.ctrWords (b * 2 ^ c.arithBits + a) := if_pos h

theorem blocks_of_not_part (h : c.part = false) (a : Nat) : c.blocks a = [c.ctrWords a] := if_neg (by simp [h])

theorem part_false_iff : c.part = false ↔ c.m < 2 := by simp [part]

theorem blocks_length (h : c.legal = true) (a : Nat) : (c.blocks a).length = c.m := by
  obtain ⟨-, ⟨hm, -⟩, -⟩ := legal_bounds h
  cases hp : c.part
  · have := part_false_iff.1 hp
    rw [blocks_of_not_part hp, List.length_singleton]
    omega
  · simp [blocks_of_part hp]

theorem blocks_shaped (c : Config) (a : Nat) : ∀ block ∈ c.blocks a, c.BlockShaped block := by
  intro block hblock
  cases hp : c.part
  · rw [blocks_of_not_part hp, List.mem_singleton] at hblock
    exact hblock ▸ c.ctrWords_shaped a
  · rw [blocks_of_part hp] at hblock
    obtain ⟨b, -, rfl⟩ := List.mem_map.1 hblock
    exact c.ctrWords_shaped _

/-- Block `b` of `Blocks(a)` (R102); an unreserved field makes block 0 the only one. -/
theorem blocks_getD {a b : Nat} (hb : b < c.m) : (c.blocks a).getD b [] = c.ctrWords (b * 2 ^ c.arithBits + a) := by
  cases hp : c.part
  · obtain rfl : b = 0 := by have := part_false_iff.1 hp; omega
    simp [blocks_of_not_part hp]
  · simp [blocks_of_part hp, hb]

theorem arith_blocks {a b : Nat} (hb : b < c.m) : c.arith ((c.blocks a).getD b []) = a % 2 ^ c.arithBits := by
  rw [blocks_getD hb, arith_ctrWords, Nat.mul_add_mod']

/-- An arithmetic part that fits leaves the field to the block number (R102). -/
theorem field_blocks {a b : Nat} (hp : c.part = true) (hm : c.m ≤ 256) (ha : a < 2 ^ c.arithBits) (hb : b < c.m) :
    c.field ((c.blocks a).getD b []) = b := by
  have hbits : c.blockBits - 8 = c.arithBits := by simp [arithBits, hp]
  rw [blocks_getD hb, field_ctrWords, hbits, Nat.mul_comm, Nat.mul_add_div (by positivity), Nat.div_eq_of_lt ha]
  omega

theorem counterAdd_lt (c : Config) (a k : Nat) : c.counterAdd a k < 2 ^ c.arithBits := Nat.mod_lt _ (by positivity)

end Config

end Sys2Proof
end

section
/-! PROOFS. The registers of one slot: every operation of the adapter and of the counter commands keeps their shape and what they say of
each other (spec/10_state.md R24-R30, spec/43_stream.md R170-R177). -/

namespace Sys2Proof

theorem leNat_lt (bs : List Byte) : leNat bs < 256 ^ bs.length := by
  induction bs with
  | nil => simp [leNat]
  | cons b bs ih =>
    have hb := b.isLt
    rw [leNat, List.length_cons, pow_succ]
    omega

@[simp] theorem cutWords_length (size count : Nat) (bytes : List Byte) : (cutWords size count bytes).length = count := by
  induction count generalizing bytes with
  | zero => rfl
  | succ n ih => simp [cutWords, ih]

theorem cutWords_lt {size count : Nat} {bytes : List Byte} : ∀ v ∈ cutWords size count bytes, v.toNat < 256 ^ size := by
  induction count generalizing bytes with
  | zero => simp [cutWords]
  | succ n ih =>
    intro v hv
    rcases List.mem_cons.1 hv with rfl | hv
    · rw [BitVec.toNat_ofNat]
      calc leNat (bytes.take size) % 2 ^ 64 ≤ leNat (bytes.take size) := Nat.mod_le _ _
        _ < 256 ^ (bytes.take size).length := leNat_lt _
        _ ≤ 256 ^ size := Nat.pow_le_pow_right (by decide) (List.length_take_le _ _)
    · exact ih v hv

end Sys2Proof

namespace Sys2Proof.Machine

variable {c : Config} {sl : Slot}

@[simp] theorem fill_length (c : Config) (key : List Word) (ctr : List (List Word)) : (fill c key ctr).length = c.bufLen :=
  cutWords_length _ _ _

theorem fill_lt {key : List Word} {ctr : List (List Word)} : ∀ v ∈ fill c key ctr, v.toNat < 2 ^ c.wrBits := by
  intro v hv
  have h := cutWords_lt v hv
  rcases c.wrBits_cases with hr | hr <;> simpa [hr] using h

/-! ### Shape (R24-R27, R30 item 1) -/

/-- A key of KW native words (R24). -/
def KeyShaped (c : Config) (key : List Word) : Prop := key.length = c.kw ∧ ∀ v ∈ key, v.toNat < 2 ^ c.wc

theorem keyShaped_range_map (c : Config) (f : Nat → Word) :
    KeyShaped c ((List.range c.kw).map fun i => c.toNative (f i)) := by
  refine ⟨by simp, fun v hv => ?_⟩
  obtain ⟨i, -, rfl⟩ := List.mem_map.1 hv
  exact c.toNative_lt _

theorem keyFromSeed_shaped (c : Config) (v : Word) : KeyShaped c (c.keyFromSeed v) := keyShaped_range_map c _

theorem keyFromSeedSeq_shaped (c : Config) (vs : List Word) : KeyShaped c (c.keyFromSeedSeq vs) := keyShaped_range_map c _

theorem constructed_shaped (hc : c.legal = true) {key : List Word} (hkey : KeyShaped c key) :
    SlotShaped c (constructed c key) where
  keyLength := hkey.1
  keyNative := hkey.2
  ctrLength := Config.blocks_length hc 0
  ctrBlocks := c.blocks_shaped 0
  bufLength := .inl rfl
  bufWords := by simp [constructed]
  curBound := le_rfl

namespace SlotShaped

theorem withCur (h : SlotShaped c sl) {n : Nat} (hn : n ≤ c.bufLen) : SlotShaped c { sl with cur := n } :=
  { h with curBound := hn }

theorem withCtr_blocks (h : SlotShaped c sl) (hc : c.legal = true) (a : Nat) :
    SlotShaped c (withCtr c sl (c.blocks a)) :=
  { h with ctrLength := Config.blocks_length hc a, ctrBlocks := c.blocks_shaped a, curBound := le_rfl }

theorem refill (h : SlotShaped c sl) (hc : c.legal = true) (k : Nat) : SlotShaped c (refill c k sl) :=
  { h with ctrLength := Config.blocks_length hc _, ctrBlocks := c.blocks_shaped _, bufLength := .inr (fill_length _ _ _),
           bufWords := fill_lt }

theorem readySlot (h : SlotShaped c sl) (hc : c.legal = true) : SlotShaped c (readySlot c sl) := by
  unfold Machine.readySlot
  split
  · exact (h.refill hc 1).withCur (Nat.zero_le _)
  · exact h

end SlotShaped

/-- A slot made ready has a result word to give (R174). -/
theorem readySlot_cur_lt (h : SlotShaped c sl) (hc : c.legal = true) : (readySlot c sl).cur < c.bufLen := by
  unfold readySlot
  split
  · exact (Config.bufLen_bounds hc).1
  · exact Nat.lt_of_le_of_ne h.curBound ‹_›

/-- DISCARD moves the cursor on within the buffer, or refills and leaves the cursor within the new buffer (R177). -/
theorem discardSlot_cases (hc : c.legal = true) (n : Nat) (sl : Slot) :
    (n ≤ c.bufLen - sl.cur ∧ discardSlot c n sl = { sl with cur := sl.cur + n }) ∨
    ∃ k cur, cur ≤ c.bufLen ∧ discardSlot c n sl = { refill c k sl with cur := cur } := by
  by_cases hn : n ≤ c.bufLen - sl.cur
  · exact .inl ⟨hn, if_pos hn⟩
  · refine .inr ⟨_, _, ?_, if_neg hn⟩
    have hdiv := Nat.div_add_mod (n - (c.bufLen - sl.cur) + c.bufLen - 1) c.bufLen
    have hmod := Nat.mod_lt (n - (c.bufLen - sl.cur) + c.bufLen - 1) (Config.bufLen_bounds hc).1
    rw [Nat.sub_one_mul, Nat.mul_comm]
    omega

namespace SlotShaped

theorem nextSlot (h : SlotShaped c sl) (hc : c.legal = true) : SlotShaped c (nextSlot c sl) :=
  (h.readySlot hc).withCur (readySlot_cur_lt h hc)

theorem nextTimes (h : SlotShaped c sl) (hc : c.legal = true) (n : Nat) : SlotShaped c (nextTimes c n sl) := by
  induction n generalizing sl with
  | zero => exact h
  | succ n ih => exact ih (h.nextSlot hc)

theorem discardSlot (h : SlotShaped c sl) (hc : c.legal = true) (n : Nat) : SlotShaped c (discardSlot c n sl) := by
  rcases discardSlot_cases hc n sl with ⟨hn, heq⟩ | ⟨k, cur, hcur, heq⟩
  · exact heq ▸ h.withCur (by have := h.curBound; omega)
  · exact heq ▸ (h.refill hc k).withCur hcur

end SlotShaped

/-- The free values of an aborted policy have their registers' shapes (R235). -/
theorem freeSlot_shaped (c : Config) (use k : Nat) : SlotShaped c (freeSlot c use k) where
  keyLength := (keyShaped_range_map c _).1
  keyNative := (keyShaped_range_map c _).2
  ctrLength := by simp [freeSlot]
  ctrBlocks := by
    intro block hblock
    obtain ⟨b, -, rfl⟩ := List.mem_map.1 hblock
    refine ⟨by simp, fun v hv => ?_⟩
    obtain ⟨i, -, rfl⟩ := List.mem_map.1 hv
    exact c.toNative_lt _
  bufLength := .inr (by simp [freeSlot])
  bufWords := by
    intro v hv
    obtain ⟨i, -, rfl⟩ := List.mem_map.1 hv
    rw [BitVec.toNat_ofNat]
    exact (Nat.mod_le _ _).trans_lt (Nat.mod_lt _ (by positivity))
  curBound := Nat.le_of_lt_succ (Fin.isLt _)

/-! ### Coherence (R30 items 2 and 3) -/

/-- The arithmetic part `a` leaves a reserved field free (R101, R102). -/
def ArithFits (c : Config) (a : Nat) : Prop := c.part = true → a < 2 ^ c.arithBits

theorem arithFits_counterAdd (c : Config) (a k : Nat) : ArithFits c (c.counterAdd a k) := fun _ => c.counterAdd_lt a k

theorem arithFits_zero (c : Config) : ArithFits c 0 := fun _ => by positivity

theorem coherent_of_blocks (hc : c.legal = true) {a : Nat} (ha : ArithFits c a) (hctr : sl.ctr = c.blocks a)
    (hbuf : sl.cur < c.bufLen → sl.buf = fill c sl.key sl.ctr) : SlotCoherent c sl where
  sameArith b hb := by rw [hctr, Config.arith_blocks hb, Config.arith_blocks (Nat.zero_lt_of_lt hb)]
  fields hp b hb := by
    obtain ⟨-, ⟨-, hm⟩, -⟩ := Config.legal_bounds hc
    rw [hctr, Config.field_blocks hp hm (ha hp) hb]
  filled := hbuf

theorem constructed_coherent (hc : c.legal = true) (key : List Word) : SlotCoherent c (constructed c key) :=
  coherent_of_blocks hc (arithFits_zero c) rfl fun h => absurd h (lt_irrefl _)

theorem withCtr_coherent (hc : c.legal = true) {a : Nat} (ha : ArithFits c a) (sl : Slot) :
    SlotCoherent c (withCtr c sl (c.blocks a)) :=
  coherent_of_blocks hc ha rfl fun h => absurd h (lt_irrefl _)

theorem refill_coherent (hc : c.legal = true) (k n : Nat) (sl : Slot) :
    SlotCoherent c { refill c k sl with cur := n } :=
  coherent_of_blocks hc (arithFits_counterAdd c _ k) rfl fun _ => rfl

namespace SlotCoherent

/-- Moving the cursor on leaves an unexhausted buffer what it was. -/
theorem advance (h : SlotCoherent c sl) (n : Nat) : SlotCoherent c { sl with cur := sl.cur + n } :=
  { h with filled := fun hlt => h.filled (Nat.lt_of_le_of_lt (Nat.le_add_right _ n) hlt) }

theorem readySlot (h : SlotCoherent c sl) (hc : c.legal = true) : SlotCoherent c (readySlot c sl) := by
  unfold Machine.readySlot
  split
  · exact refill_coherent hc 1 0 sl
  · exact h

theorem nextTimes (h : SlotCoherent c sl) (hc : c.legal = true) (n : Nat) : SlotCoherent c (nextTimes c n sl) := by
  induction n generalizing sl with
  | zero => exact h
  | succ n ih => exact ih ((h.readySlot hc).advance 1)

theorem discardSlot (h : SlotCoherent c sl) (hc : c.legal = true) (n : Nat) : SlotCoherent c (discardSlot c n sl) := by
  rcases discardSlot_cases hc n sl with ⟨-, heq⟩ | ⟨k, cur, -, heq⟩
  · exact heq ▸ h.advance n
  · exact heq ▸ refill_coherent hc k cur sl

end SlotCoherent

/-! ### What may happen to one slot -/

/-- What one step makes of a slot's registers: `before` are those it had, the last argument those it has. Free values come only with a
recorded fault, `faulted` (R235). -/
inductive SlotMove (c : Config) (faulted : Bool) (before : Option Slot) : Slot → Prop where
  | kept {sl : Slot} (h : before = some sl) : SlotMove c faulted before sl
  | constructed {key : List Word} (hkey : KeyShaped c key) : SlotMove c faulted before (constructed c key)
  | counter {sl : Slot} {a : Nat} (h : before = some sl) (ha : ArithFits c a) :
      SlotMove c faulted before (withCtr c sl (c.blocks a))
  | nexts {sl : Slot} (n : Nat) (h : before = some sl) : SlotMove c faulted before (nextTimes c n sl)
  | discarded {sl : Slot} (n : Nat) (h : before = some sl) : SlotMove c faulted before (discardSlot c n sl)
  | freed (use k : Nat) (h : faulted = true) : SlotMove c faulted before (freeSlot c use k)

theorem SlotMove.shaped {faulted : Bool} {before : Option Slot} (hc : c.legal = true)
    (hbefore : ∀ sl, before = some sl → SlotShaped c sl) (h : SlotMove c faulted before sl) : SlotShaped c sl := by
  cases h with
  | kept h => exact hbefore _ h
  | constructed hkey => exact constructed_shaped hc hkey
  | counter h ha => exact (hbefore _ h).withCtr_blocks hc _
  | nexts n h => exact (hbefore _ h).nextTimes hc n
  | discarded n h => exact (hbefore _ h).discardSlot hc n
  | freed use k h => exact freeSlot_shaped c use k

theorem SlotMove.coherent {before : Option Slot} (hc : c.legal = true)
    (hbefore : ∀ sl, before = some sl → SlotCoherent c sl) (h : SlotMove c false before sl) : SlotCoherent c sl := by
  cases h with
  | kept h => exact hbefore _ h
  | constructed hkey => exact constructed_coherent hc _
  | counter h ha => exact withCtr_coherent hc ha _
  | nexts n h => exact (hbefore _ h).nextTimes hc n
  | discarded n h => exact (hbefore _ h).discardSlot hc n
  | freed use k h => exact absurd h Bool.false_ne_true

end Sys2Proof.Machine
end

section
/-! PROOFS. What a command can do, said once for all of them: a slot command's answer is a function of the one slot it names
(spec/43_stream.md R180, R185), RESAMPLE advances slots by NEXTs or, when it aborts after a draw, frees them (spec/44_resample.md R203,
R204, R235). -/

namespace Sys2Proof

/-! ### The operands of a decoded command (spec/30_encoding.md R81) -/

theorem firstWide_eq_none {c : Config} {i : Nat} {ops : List Word} :
    firstWide c i ops = none ↔ ops.all c.nativeWord = true := by
  induction ops generalizing i with
  | nil => simp [firstWide]
  | cons v vs ih => cases hv : c.nativeWord v <;> simp [firstWide, hv, ih]

/-- What passes the checks of R81 is one of the unit's commands with operands of its own count and width. -/
theorem decodeOp_wf {c : Config} {op : Opcode} {sub : BitVec 8} {slot : BitVec 32} {ops : List Word} {i : Instr}
    (hlen : ops.length = operandCount c op sub) (hslot : slotFixed op sub = true → slot = 0)
    (hnative : nativeOperands op = true → ops.all c.nativeWord = true) (h : decodeOp c op sub slot ops = .ok i) :
    i.wf c = true := by
  unfold decodeOp at h
  split at h
  case h_1 =>
    cases hcsr : Csr.ofNumber sub with
    | none => simp [hcsr] at h
    | some csr =>
      obtain rfl : Instr.csrRead csr slot = i := by simpa [hcsr] using h
      cases hper : csr.perSlot <;> simp_all [Instr.wf, slotFixed]
  case h_6 => split at h <;> cases h; simpa [Instr.wf]
  case h_10 =>
    split at h <;> cases h
    next hsub =>
      have hpos : sub.toNat ≠ 0 := fun h0 => hsub (BitVec.eq_of_toNat_eq h0)
      have hbound := sub.isLt
      simp only [operandCount] at hlen
      simp only [Instr.wf, Bool.and_eq_true, decide_eq_true_eq]
      omega
  case h_14 => split at h <;> cases h <;> rfl
  case h_15 => cases h
  all_goals cases h; simp_all [Instr.wf, operandCount, nativeOperands]

theorem decode_wf {c : Config} {msg : List Word} {i : Instr} (h : decode c msg = .ok i) : i.wf c = true := by
  unfold decode at h
  split at h
  · cases h
  · split at h
    · cases h
    · split_ifs at h with hlen hfixed hnative <;>
        simp only [not_or, not_and, not_not] at hlen hfixed <;> obtain ⟨-, -, hslot⟩ := hfixed
      · split at h
        · cases h
        · next hwide => exact decodeOp_wf hlen hslot (fun _ => firstWide_eq_none.1 hwide) h
      · exact decodeOp_wf hlen hslot (fun hn => absurd hn hnative) h

end Sys2Proof

namespace Sys2Proof.Machine

/-! ### Commands by their bodies -/

/-- The checks and effects of each command, apart from the refusal in the fault state and the response. -/
def bodyOf : Instr → State → CmdResult
  | .csrRead csr slot, s => csrReadBody csr slot s
  | .ctrZero slot, s => writeCtr slot (fun _ => s.cfg.blocks 0) s
  | .ctrInc slot, s => writeCtr slot (fun sl => s.cfg.addCtr sl.ctr 1) s
  | .ctrAdd slot n, s => writeCtr slot (fun sl => s.cfg.addCtr sl.ctr n.toNat) s
  | .ctrLoad slot words, s => ctrLoadBody slot words s
  | .ctrRead slot block, s => ctrReadBody slot block s
  | .keyLoad slot key, s => construct slot key s
  | .transform slot block, s => onValidSlot slot s fun _ sl => .done s (engineWords s.cfg sl.key block)
  | .seed slot value, s => construct slot (s.cfg.keyFromSeed value) s
  | .seedSeq slot values, s => construct slot (s.cfg.keyFromSeedSeq values) s
  | .seedAll value, s => .done { s with slots := seededSlots s.cfg value s.slots } []
  | .next slot, s => onValidSlot slot s fun k sl => .done (s.setSlot k (nextSlot s.cfg sl)) [nextWord s.cfg sl]
  | .discard slot n, s => onValidSlot slot s fun k sl => .done (s.setSlot k (discardSlot s.cfg n.toNat sl)) []
  | .resampleMultinomial o, s => resampleBody policyMultinomial o s
  | .resampleResidual o, s => resampleBody policyResidual o s
  | .resampleStratified o, s => resampleBody policyStratified o s
  | .resampleSystematic o, s => resampleBody policySystematic o s
  | .resampleResidualStratified o, s => resampleBody policyResidualStratified o s
  | .resampleResidualSystematic o, s => resampleBody policyResidualSystematic o s

theorem exec_eq_perform (i : Instr) (s : State) : exec i s = perform i (bodyOf i) s := by
  cases i <;> rfl

/-! ### Slot commands -/

/-- The commands that name one slot and may change it: all but CSR_READ, SEED_ALL and RESAMPLE. -/
def IsSlotCommand (i : Instr) : Prop := i.opcode ≠ .csrRead ∧ i.opcode ≠ .seedAll ∧ i.opcode ≠ .resample

/-- What a slot command answers: a cause, or the registers it writes, if any, and the response data. -/
abbrev SlotAnswer := Except Raise (Option Slot × List Word)

/-- The check of VALID for slot `k` with the given registers (R242). -/
def withValid (k : Nat) (regs : Option Slot) (f : Slot → SlotAnswer) : SlotAnswer :=
  match regs with
  | none => .error ⟨.uninitialised, BitVec.ofNat 64 k⟩
  | some sl => f sl

/-- The answer of a slot command as a function of the parameters, the number of its slot and that slot's registers. The other commands
write no one slot. -/
def slotAnswer (c : Config) (k : Nat) (regs : Option Slot) : Instr → SlotAnswer
  | .ctrZero _ => withValid k regs fun sl => .ok (some (withCtr c sl (c.blocks 0)), [])
  | .ctrInc _ => withValid k regs fun sl => .ok (some (withCtr c sl (c.addCtr sl.ctr 1)), [])
  | .ctrAdd _ n => withValid k regs fun sl => .ok (some (withCtr c sl (c.addCtr sl.ctr n.toNat)), [])
  | .ctrLoad _ words => withValid k regs fun sl =>
    if loadedField c (valWords c.wc words) ≠ 0 then
      .error ⟨.badOperand, BitVec.ofNat 64 (loadedField c (valWords c.wc words))⟩
    else .ok (some (withCtr c sl (c.blocks (valWords c.wc words))), [])
  | .ctrRead _ block =>
    if c.m ≤ block.toNat then .error ⟨.badOperand, block.setWidth 64⟩
    else withValid k regs fun sl => .ok (none, sl.ctr.getD block.toNat [])
  | .keyLoad _ key => .ok (some (constructed c key), [])
  | .transform _ block => withValid k regs fun sl => .ok (none, engineWords c sl.key block)
  | .seed _ value => .ok (some (constructed c (c.keyFromSeed value)), [])
  | .seedSeq _ values => .ok (some (constructed c (c.keyFromSeedSeq values)), [])
  | .next _ => withValid k regs fun sl => .ok (some (nextSlot c sl), [nextWord c sl])
  | .discard _ n => withValid k regs fun sl => .ok (some (discardSlot c n.toNat sl), [])
  | _ => .ok (none, [])

/-- An answer for slot `k` carried out on a state. -/
def SlotAnswer.apply (k : Nat) (s : State) : SlotAnswer → CmdResult
  | .error r => .raised r s
  | .ok (some sl, data) => .done (s.setSlot k sl) data
  | .ok (none, data) => .done s data

theorem onValidSlot_eq_apply {slot : BitVec 32} {s : State} {k : Nat} {f : Nat → Slot → CmdResult}
    {g : Slot → SlotAnswer} (hk : slotIndex s.cfg slot = some k) (hfg : ∀ sl, f k sl = (g sl).apply k s) :
    onValidSlot slot s f = (withValid k (s.slot k) g).apply k s := by
  simp only [onValidSlot, onSlot, hk]
  cases s.slot k with
  | none => rfl
  | some sl => exact hfg sl

theorem construct_of_slotIndex {slot : BitVec 32} {s : State} {k : Nat} (hk : slotIndex s.cfg slot = some k)
    (key : List Word) : construct slot key s = .done (s.setSlot k (constructed s.cfg key)) [] := by
  simp [construct, onSlot, hk]

/-- A slot command does what its answer says: nothing of the state but the parameters and the slot's registers enters (R185). -/
theorem bodyOf_eq_slotAnswer {i : Instr} {s : State} {k : Nat} (hi : IsSlotCommand i)
    (hk : slotIndex s.cfg i.slotField = some k) :
    bodyOf i s = (slotAnswer s.cfg k (s.slot k) i).apply k s := by
  obtain ⟨hcsr, hall, hres⟩ := hi
  cases i with
  | csrRead => exact absurd rfl hcsr
  | seedAll => exact absurd rfl hall
  | resampleMultinomial | resampleResidual | resampleStratified | resampleSystematic
  | resampleResidualStratified | resampleResidualSystematic => exact absurd rfl hres
  | ctrZero | ctrInc | ctrAdd | transform | next | discard => exact onValidSlot_eq_apply hk fun _ => rfl
  | ctrLoad slot words =>
    refine onValidSlot_eq_apply hk fun sl => ?_
    dsimp only
    split <;> rfl
  | ctrRead slot block =>
    simp only [bodyOf, ctrReadBody, slotAnswer]
    split
    · rfl
    · exact onValidSlot_eq_apply hk fun _ => rfl
  | keyLoad | seed | seedSeq => exact construct_of_slotIndex hk _

/-- A slot command whose slot does not exist raises a cause and changes nothing (R180). -/
theorem bodyOf_of_no_slot {i : Instr} {s : State} (hi : IsSlotCommand i) (hk : slotIndex s.cfg i.slotField = none) :
    ∃ r, bodyOf i s = .raised r s := by
  obtain ⟨hcsr, hall, hres⟩ := hi
  have hnone : ∀ f, onSlot i.slotField s f = .raised ⟨.badSlot, i.slotField.setWidth 64⟩ s := fun f => by
    simp [onSlot, hk]
  cases i with
  | csrRead => exact absurd rfl hcsr
  | seedAll => exact absurd rfl hall
  | resampleMultinomial | resampleResidual | resampleStratified | resampleSystematic
  | resampleResidualStratified | resampleResidualSystematic => exact absurd rfl hres
  | ctrRead slot block =>
    simp only [bodyOf, ctrReadBody]
    split
    · exact ⟨_, rfl⟩
    · exact ⟨_, hnone _⟩
  | _ => exact ⟨_, hnone _⟩

theorem withValid_eq_ok {k : Nat} {regs : Option Slot} {f : Slot → SlotAnswer} {x : Option Slot × List Word}
    (h : withValid k regs f = .ok x) : ∃ sl, regs = some sl ∧ f sl = .ok x := by
  cases regs with
  | none => cases h
  | some sl => exact ⟨sl, rfl, h⟩

/-- A loaded counter with nothing where the field stands is an arithmetic part (R113). -/
theorem arithFits_of_loadedField {c : Config} {v : Nat} (h : loadedField c v = 0) : ArithFits c v := by
  intro hp
  rw [loadedField, if_pos hp] at h
  exact Nat.lt_of_div_eq_zero (by positivity) h

/-- The registers a slot command writes are one of the moves of a slot. -/
theorem slotAnswer_move {c : Config} {k : Nat} {regs : Option Slot} {i : Instr} {sl : Slot} {data : List Word}
    (faulted : Bool) (hwf : i.wf c = true) (h : slotAnswer c k regs i = .ok (some sl, data)) :
    SlotMove c faulted regs sl := by
  cases i with
  | ctrZero =>
    obtain ⟨sl0, hregs, heq⟩ := withValid_eq_ok h
    cases heq
    exact .counter hregs (arithFits_zero c)
  | ctrInc | ctrAdd =>
    obtain ⟨sl0, hregs, heq⟩ := withValid_eq_ok h
    cases heq
    exact .counter hregs (arithFits_counterAdd c _ _)
  | ctrLoad slot words =>
    obtain ⟨sl0, hregs, heq⟩ := withValid_eq_ok h
    split at heq
    · cases heq
    · next hfield =>
      cases heq
      exact .counter hregs (arithFits_of_loadedField (not_not.1 hfield))
  | ctrRead =>
    simp only [slotAnswer] at h
    split at h
    · cases h
    · obtain ⟨sl0, hregs, heq⟩ := withValid_eq_ok h
      cases heq
  | keyLoad slot key =>
    cases h
    simp only [Instr.wf, Bool.and_eq_true, decide_eq_true_eq, List.all_eq_true, Config.nativeWord] at hwf
    exact .constructed hwf
  | transform =>
    obtain ⟨sl0, hregs, heq⟩ := withValid_eq_ok h
    cases heq
  | seed => cases h; exact .constructed (keyFromSeed_shaped c _)
  | seedSeq => cases h; exact .constructed (keyFromSeedSeq_shaped c _)
  | next =>
    obtain ⟨sl0, hregs, heq⟩ := withValid_eq_ok h
    cases heq
    exact .nexts 1 hregs
  | discard =>
    obtain ⟨sl0, hregs, heq⟩ := withValid_eq_ok h
    cases heq
    exact .discarded _ hregs
  | _ => cases h

/-! ### RESAMPLE -/

/-- Every slot is moved on by some number of NEXTs, an unconstructed one not at all (R203, R204). -/
structure SlotsAdvanced (c : Config) (slots slots' : List (Option Slot)) : Prop where
  length : slots'.length = slots.length
  moved  : ∀ k, ∃ n, slots'.getD k none = (slots.getD k none).map (nextTimes c n)

namespace SlotsAdvanced

variable {c : Config} {slots slots' slots'' : List (Option Slot)}

theorem refl (c : Config) (slots : List (Option Slot)) : SlotsAdvanced c slots slots :=
  ⟨rfl, fun k => ⟨0, by cases slots.getD k none <;> rfl⟩⟩

theorem trans (h : SlotsAdvanced c slots slots') (h' : SlotsAdvanced c slots' slots'') :
    SlotsAdvanced c slots slots'' := by
  refine ⟨h'.length.trans h.length, fun k => ?_⟩
  obtain ⟨m, hm⟩ := h.moved k
  obtain ⟨n, hn⟩ := h'.moved k
  refine ⟨m + n, ?_⟩
  rw [hn, hm]
  cases slots.getD k none with
  | none => rfl
  | some sl => simp [nextTimes_add]

theorem set_nextTimes {s : Nat} {sl : Slot} (h : slots.getD s none = some sl) (n : Nat) :
    SlotsAdvanced c slots (slots.set s (some (nextTimes c n sl))) := by
  refine ⟨by simp, fun k => ?_⟩
  by_cases hk : k = s
  · subst hk
    have hlt : k < slots.length := by
      by_contra hge
      simp [List.getElem?_eq_none (Nat.le_of_not_lt hge)] at h
    exact ⟨n, by rw [h]; simp [hlt]⟩
  · refine ⟨0, ?_⟩
    have hsame : (slots.set s (some (nextTimes c n sl))).getD k none = slots.getD k none := by
      simp [Ne.symm hk]
    rw [hsame]
    cases slots.getD k none <;> rfl

theorem u01Draw (c : Config) (d : Draws) (s : Nat) (slots : List (Option Slot)) :
    SlotsAdvanced c slots (u01Draw c d s slots).2 := by
  unfold Machine.u01Draw
  split
  · next h => exact set_nextTimes h _
  · exact refl c slots

theorem binomDraw (c : Config) (d : Draws) (s n : Nat) (p : F64) (slots : List (Option Slot)) :
    SlotsAdvanced c slots (binomDraw c d s n p slots).2 := by
  unfold Machine.binomDraw
  split
  · next h => exact set_nextTimes h _
  · exact refl c slots

theorem primitiveFrom {d : Draws} {S : Nat} {v : List F64} {i : Nat} {accW : F64} {accS : Nat} {drawn : Bool}
    {rep : List Nat} (h : primitiveFrom c d S v i accW accS drawn slots = .ok (rep, slots')) :
    SlotsAdvanced c slots slots' := by
  induction v generalizing i accW accS drawn slots rep with
  | nil =>
    simp only [Machine.primitiveFrom] at h
    split at h <;> cases h
    exact refl c _
  | cons x xs ih =>
    rcases primitiveFrom_cons c d S x xs i accW accS drawn slots with
      ⟨-, heq⟩ | ⟨-, -, heq⟩ | ⟨p, k, drawnSlots, -, -, hdraw, heq⟩ <;> rw [heq] at h
    · obtain ⟨rest, hrest, -⟩ := push_ok h
      exact ih hrest
    · cases h
    · obtain ⟨rest, hrest, -⟩ := push_ok h
      have hfirst := binomDraw c d (streamOf c i) (S - accS) p slots
      rw [hdraw] at hfirst
      exact hfirst.trans (ih hrest)

theorem stratPosFrom (c : Config) (d : Draws) (K count j : Nat) (slots : List (Option Slot)) :
    SlotsAdvanced c slots (stratPosFrom c d K count j slots).2 := by
  induction count generalizing j slots with
  | zero => exact refl c slots
  | succ n ih => exact (u01Draw c d (streamOf c j) slots).trans (ih (j + 1) _)

theorem residualPolicy {inner : (S : Nat) → List F64 → List (Option Slot) → PolicyResult} {w : List F64}
    {rep : List Nat} (hinner : ∀ S rw rp, inner S rw slots = .ok (rp, slots') → SlotsAdvanced c slots slots')
    (h : residualPolicy inner w slots = .ok (rep, slots')) : SlotsAdvanced c slots slots' := by
  obtain ⟨-, ⟨-, -, rfl⟩ | ⟨-, -, rp, hok, -⟩⟩ := residualPolicy_ok h
  · exact refl c slots'
  · exact hinner _ _ _ hok

theorem scanPolicy {positions : List F64 × List (Option Slot)} {v : List F64} {rep : List Nat}
    (hpos : SlotsAdvanced c slots positions.2) (h : scanPolicy positions v = .ok (rep, slots')) :
    SlotsAdvanced c slots slots' := by
  cases h
  exact hpos

end SlotsAdvanced

/-- A policy that answers has moved slots on by NEXTs and done nothing else to them. -/
def Policy.Advances (policy : Policy) : Prop :=
  ∀ c d w slots rep slots', policy c d w slots = .ok (rep, slots') → SlotsAdvanced c slots slots'

theorem policyMultinomial_advances : Policy.Advances policyMultinomial :=
  fun _ _ _ _ _ _ h => .primitiveFrom h

theorem policyResidual_advances : Policy.Advances policyResidual :=
  fun _ _ _ _ _ _ h => .residualPolicy (fun _ _ _ h => .primitiveFrom h) h

theorem policyStratified_advances : Policy.Advances policyStratified :=
  fun _ _ _ _ _ _ h => .scanPolicy (.stratPosFrom _ _ _ _ _ _) h

theorem policySystematic_advances : Policy.Advances policySystematic :=
  fun _ _ _ _ _ _ h => .scanPolicy (.u01Draw _ _ _ _) h

theorem policyResidualStratified_advances : Policy.Advances policyResidualStratified :=
  fun _ _ _ _ _ _ h => .residualPolicy (fun _ _ _ h => .scanPolicy (.stratPosFrom _ _ _ _ _ _) h) h

theorem policyResidualSystematic_advances : Policy.Advances policyResidualSystematic :=
  fun _ _ _ _ _ _ h => .residualPolicy (fun _ _ _ h => .scanPolicy (.u01Draw _ _ _ _) h) h

/-- A slot after an abort is the free one or what it was (R235). -/
theorem freeSlots_getD {c : Config} {use count : Nat} {slots : List (Option Slot)} {k : Nat} {sl : Slot}
    (h : (freeSlots c use count slots).getD k none = some sl) :
    sl = freeSlot c use k ∨ slots.getD k none = some sl := by
  induction count with
  | zero => exact .inr h
  | succ n ih =>
    rw [freeSlots] at h
    by_cases hk : k = n
    · subst hk
      simp only [List.getD_eq_getElem?_getD, List.getElem?_set_self'] at h
      cases hget : (freeSlots c use k slots)[k]? <;> simp [hget] at h
      exact .inl h.symm
    · exact ih (by simpa [Ne.symm hk] using h)

/-- What an abort leaves: its slots are those of the aborted state (R235). -/
theorem abort_eq (o : ResampleOps) (f : PolicyFault) (s : State) :
    ∃ r s', abort o f s = .raised r s' ∧ s'.cfg = s.cfg ∧ s'.inflight = s.inflight ∧
      s'.slots = (abortedState o f s).slots := by
  obtain ⟨hcfg, -, -, -, -, hinflight, -⟩ := abortedState_frame o f s
  unfold abort
  split <;> exact ⟨_, _, rfl, hcfg, hinflight, rfl⟩

theorem abortedState_slots_length (o : ResampleOps) (f : PolicyFault) (s : State) :
    (abortedState o f s).slots.length = s.slots.length := by
  unfold abortedState
  split <;> simp

theorem abortedState_move {o : ResampleOps} {f : PolicyFault} {s : State} {k : Nat} {sl : Slot}
    (h : (abortedState o f s).slots.getD k none = some sl) : SlotMove s.cfg true (s.slot k) sl := by
  unfold abortedState at h
  split at h
  · rcases freeSlots_getD h with rfl | hkept
    · exact .freed _ k rfl
    · exact .kept hkept
  · exact .kept h

end Sys2Proof.Machine
end

section
/-! PROOFS. What one step keeps: the parameters, the sizes, the fault record, and each slot but for the moves of one slot
(spec/10_state.md R21-R46, spec/60_exceptions.md R241-R254, spec/70_reset_and_hazards.md R270). -/

namespace Sys2Proof.Machine

variable {s s' t : State}

/-- The fault record reads as before (R38-R40). -/
structure RecordSame (s t : State) : Prop where
  statusFault : t.statusFault = s.statusFault
  statusCause : t.statusCause = s.statusCause
  faultInfo   : t.faultInfo = s.faultInfo
  faultLoc    : t.faultLoc = s.faultLoc

/-- What every step but reset keeps, and what it makes of each constructed slot. -/
structure UnitFrame (s t : State) : Prop where
  cfg    : t.cfg = s.cfg
  sizes  : SizesRight s → SizesRight t
  record : t.statusFault = true ∨ RecordSame s t
  slots  : ∀ k sl, t.slot k = some sl → SlotMove s.cfg t.statusFault (s.slot k) sl

namespace UnitFrame

theorem of_sameSlots (hcfg : t.cfg = s.cfg) (hslots : t.slots = s.slots)
    (hinflight : t.inflight.length = s.inflight.length) (hrecord : t.statusFault = true ∨ RecordSame s t) :
    UnitFrame s t where
  cfg := hcfg
  sizes h := ⟨by rw [hslots, hcfg, h.slots], by rw [hinflight, hcfg, h.inflight]⟩
  record := hrecord
  slots k sl h := .kept (by rwa [State.slot, hslots] at h)

theorem refl (s : State) : UnitFrame s s := of_sameSlots rfl rfl rfl (.inr ⟨rfl, rfl, rfl, rfl⟩)

theorem respond (h : UnitFrame s s') (result opc : BitVec 8) (data : List Word) :
    UnitFrame s (respond result opc data s') where
  cfg := h.cfg
  sizes hs := ⟨(h.sizes hs).slots, by simpa using (h.sizes hs).inflight⟩
  record := h.record.imp_right fun hr => ⟨hr.statusFault, hr.statusCause, hr.faultInfo, hr.faultLoc⟩
  slots := h.slots

theorem of_withInputs {rest : List Event} (h : UnitFrame (s.withInputs rest) t) : UnitFrame s t where
  cfg := h.cfg
  sizes hs := h.sizes ⟨hs.slots, hs.inflight⟩
  record := h.record.imp_right fun hr => ⟨hr.statusFault, hr.statusCause, hr.faultInfo, hr.faultLoc⟩
  slots := h.slots

theorem of_serve {q : Nat} (h : UnitFrame (serve q s) t) : UnitFrame s t where
  cfg := h.cfg
  sizes hs := h.sizes ⟨hs.slots, hs.inflight⟩
  record := h.record.imp_right fun hr => ⟨hr.statusFault, hr.statusCause, hr.faultInfo, hr.faultLoc⟩
  slots := h.slots

/-! ### Commands -/

theorem takeFault (s : State) (opc : BitVec 8) (slot : BitVec 32) (r : Raise) : UnitFrame s (takeFault opc slot r s) :=
  of_sameSlots (by simp) (by simp) (by simp) (.inl (by simp))

theorem refuse (s : State) (opc : BitVec 8) : UnitFrame s (refuse opc s) := (refl s).respond _ _ _

theorem setSlot {k : Nat} {sl : Slot} (h : SlotMove s.cfg s.statusFault (s.slot k) sl) : UnitFrame s (s.setSlot k sl) where
  cfg := rfl
  sizes hs := ⟨by simpa using hs.slots, hs.inflight⟩
  record := .inr ⟨rfl, rfl, rfl, rfl⟩
  slots j sl' hj := by
    by_cases hjk : j = k
    · subst hjk
      have hlt : j < s.slots.length := by simpa using slot_lt _ hj
      rw [slot_setSlot_same s j sl hlt, Option.some.injEq] at hj
      exact hj ▸ h
    · rw [slot_setSlot_ne s k j sl hjk] at hj
      exact .kept hj

/-- SEED_ALL leaves each slot as it was or constructs it from a seed's key (R181). -/
theorem seeded (s : State) (value : Word) : UnitFrame s { s with slots := seededSlots s.cfg value s.slots } := by
  unfold seededSlots
  split
  · exact setSlot (.constructed (keyFromSeed_shaped _ _))
  · refine ⟨rfl, fun hs => ⟨by simp, hs.inflight⟩, .inr ⟨rfl, rfl, rfl, rfl⟩, fun k sl hk => ?_⟩
    by_cases hlt : k < s.cfg.nstreams
    · obtain rfl : constructed s.cfg (s.cfg.keyFromSeed (s.cfg.seedOfStream value k)) = sl := by
        simpa [State.slot, hlt] using hk
      exact .constructed (keyFromSeed_shaped _ _)
    · simp [State.slot, hlt] at hk

theorem resampled {slots : List (Option Slot)} (h : SlotsAdvanced s.cfg s.slots slots) (mem : Memory) :
    UnitFrame s { s with slots := slots, mem := mem } where
  cfg := rfl
  sizes hs := ⟨h.length.trans hs.slots, hs.inflight⟩
  record := .inr ⟨rfl, rfl, rfl, rfl⟩
  slots k sl hk := by
    obtain ⟨n, hn⟩ := h.moved k
    obtain ⟨sl0, hbefore, rfl⟩ := Option.map_eq_some_iff.1 (hn.symm.trans hk)
    exact .nexts n hbefore

theorem abort (o : ResampleOps) (f : PolicyFault) (s : State) (i : Instr) : UnitFrame s ((abort o f s).finish i) := by
  obtain ⟨r, s', heq, hcfg, hinflight, hslots⟩ := abort_eq o f s
  rw [heq, finish_raised]
  refine ⟨by simpa using hcfg, fun hs => ⟨?_, ?_⟩, .inl (by simp), fun k sl hk => ?_⟩
  · simp [hslots, hcfg, abortedState_slots_length, hs.slots]
  · simp [hinflight, hcfg, hs.inflight]
  · rw [takeFault_statusFault]
    exact abortedState_move (by simpa [State.slot, hslots] using hk)

theorem resample {policy : Policy} (hp : Policy.Advances policy) (o : ResampleOps) (s : State) (i : Instr) :
    UnitFrame s ((resampleBody policy o s).finish i) := by
  rcases resampleBody_cases policy o s with ⟨r, -, heq⟩ | ⟨-, -, heq⟩ | ⟨r, -, -, -, heq⟩ | ⟨f, -, -, -, -, heq⟩ |
    ⟨rep, slots, -, -, -, hok, heq⟩ <;> rw [heq]
  · exact takeFault s _ _ r
  · exact (refl s).respond _ _ _
  · exact takeFault s _ _ r
  · exact abort o f s i
  · exact (resampled (hp _ _ _ _ _ _ hok) _).respond _ _ _

/-- CSR_READ changes nothing but the answer (R90). -/
theorem csrRead (csr : Csr) (slot : BitVec 32) (s : State) (i : Instr) :
    UnitFrame s ((csrReadBody csr slot s).finish i) := by
  cases csr with
  | cursor =>
    rcases onValidSlot_cases slot s fun _ sl => .done s [cursorWord sl] with
      ⟨-, heq⟩ | ⟨k, -, -, heq⟩ | ⟨k, sl, -, -, heq⟩ <;> rw [csrReadBody, heq]
    · exact takeFault s _ _ _
    · exact takeFault s _ _ _
    · exact (refl s).respond _ _ _
  | slotState =>
    rcases onSlot_cases slot s fun k => .done s [slotStateWord s k] with ⟨-, heq⟩ | ⟨k, -, heq⟩ <;>
      rw [csrReadBody, heq]
    · exact takeFault s _ _ _
    · exact (refl s).respond _ _ _
  | _ => exact (refl s).respond _ _ _

theorem slotCommand {i : Instr} (hi : IsSlotCommand i) (hwf : i.wf s.cfg = true) :
    UnitFrame s ((bodyOf i s).finish i) := by
  cases hk : slotIndex s.cfg i.slotField with
  | none =>
    obtain ⟨r, heq⟩ := bodyOf_of_no_slot hi hk
    exact heq ▸ takeFault s _ _ r
  | some k =>
    rw [bodyOf_eq_slotAnswer hi hk]
    cases hans : slotAnswer s.cfg k (s.slot k) i with
    | error r => exact takeFault s _ _ r
    | ok x =>
      obtain ⟨_ | sl, data⟩ := x
      · exact (refl s).respond _ _ _
      · exact (setSlot (slotAnswer_move _ hwf hans)).respond _ _ _

theorem body {i : Instr} (hwf : i.wf s.cfg = true) : UnitFrame s ((bodyOf i s).finish i) := by
  by_cases hslot : IsSlotCommand i
  · exact slotCommand hslot hwf
  · cases i with
    | csrRead csr slot => exact csrRead csr slot s _
    | seedAll value => exact (seeded s value).respond _ _ _
    | resampleMultinomial o => exact resample policyMultinomial_advances o s _
    | resampleResidual o => exact resample policyResidual_advances o s _
    | resampleStratified o => exact resample policyStratified_advances o s _
    | resampleSystematic o => exact resample policySystematic_advances o s _
    | resampleResidualStratified o => exact resample policyResidualStratified_advances o s _
    | resampleResidualSystematic o => exact resample policyResidualSystematic_advances o s _
    | _ => exact absurd ⟨nofun, nofun, nofun⟩ hslot

theorem exec {i : Instr} (hwf : i.wf s.cfg = true) (h : exec i s = .next t) : UnitFrame s t := by
  rw [exec_eq_perform, perform_eq] at h
  cases h
  split
  · exact refuse s _
  · exact body hwf

/-! ### Moves -/

theorem rejectMessage (msg : List Word) (r : Raise) (s : State) : UnitFrame s (rejectMessage msg r s) := by
  rcases rejectMessage_cases msg r s with ⟨-, -, heq⟩ | ⟨-, heq⟩ <;> rw [heq]
  · exact refuse s _
  · exact takeFault s _ _ r

theorem completeStep {q : Nat} (h : completeStep q s = .next t) : UnitFrame s t := by
  obtain ⟨c, -, ⟨i, hdecode, hexec⟩ | ⟨r, -, rfl⟩⟩ := completeStep_cases h
  · exact (exec (s := serve q s) (decode_wf hdecode) hexec).of_serve
  · exact (rejectMessage c.msg r _).of_serve

theorem issueStep {q : Nat} {msg : List Word} (h : issueStep q msg s = .next t) : UnitFrame s t := by
  obtain ⟨-, -, ⟨k, -, -, rfl⟩ | ⟨-, rfl⟩⟩ := issueStep_cases h
  · exact (takeFault _ _ _ _).of_serve
  · exact of_sameSlots rfl rfl (by simp) (.inr ⟨rfl, rfl, rfl, rfl⟩)

theorem hostAccess {q len : Nat} {write : Bool} {addr : Word} {access : State → State}
    (haccess : UnitFrame s (access s)) (h : hostAccess q write addr len access s = .next t) : UnitFrame s t := by
  obtain ⟨-, -, ⟨a, owner, msg, -, -, rfl⟩ | ⟨-, rfl⟩⟩ := hostAccess_cases h
  · exact of_sameSlots (by simp) (by simp) (by simp) (.inl (by simp))
  · exact haccess

end UnitFrame

/-- A step is the reset event or keeps the frame of the unit. -/
theorem step_frame (h : step s = .next t) :
    (∃ rest, s.inputs = .reset :: rest ∧ t = resetUnit (s.withInputs rest)) ∨ UnitFrame s t := by
  rcases step_cases h with ⟨q, msg, rest, -, hissue⟩ | ⟨q, rest, -, hcomplete⟩ | ⟨q, addr, len, rest, -, hread⟩ |
    ⟨q, addr, bytes, rest, -, hwrite⟩ | ⟨rest, hinputs, rfl⟩ | ⟨-, q, -, hcomplete⟩ | ⟨-, -, rfl⟩
  · exact .inr (UnitFrame.issueStep hissue).of_withInputs
  · exact .inr (UnitFrame.completeStep hcomplete).of_withInputs
  · exact .inr (UnitFrame.hostAccess (.of_sameSlots rfl rfl rfl (.inr ⟨rfl, rfl, rfl, rfl⟩)) hread).of_withInputs
  · exact .inr (UnitFrame.hostAccess (.of_sameSlots rfl rfl rfl (.inr ⟨rfl, rfl, rfl, rfl⟩)) hwrite).of_withInputs
  · exact .inl ⟨rest, hinputs, rfl⟩
  · exact .inr (UnitFrame.completeStep hcomplete)
  · exact .inr (UnitFrame.refl _)

theorem slot_resetUnit (s : State) (k : Nat) : (resetUnit s).slot k = none := by
  by_cases h : k < s.cfg.nstreams <;> simp [State.slot, h]

theorem inFlight_resetUnit (s : State) (q : Nat) : (resetUnit s).inFlight q = none := by
  by_cases h : q < s.cfg.p <;> simp [State.inFlight, h]

end Sys2Proof.Machine

open Sys2Proof Sys2Proof.Machine

/-- Settles O12, by the fields of the reset state. -/
theorem resetEventClearsTheUnit : Obligations.ResetEventClearsTheUnit := by
  intro s rest hinputs
  refine ⟨resetUnit (s.withInputs rest), by simp [step, hinputs], slot_resetUnit _, by simp, rfl, rfl, rfl, rfl,
    inFlight_resetUnit _, by simp, rfl, rfl, rfl, rfl⟩

/-- Settles O15: a step other than reset leaves a recorded fault or the record it found. -/
theorem everyStepKeepsRecordClear : Obligations.EveryStepKeepsRecordClear := by
  intro s t hclear hstep hfault
  obtain ⟨rest, -, rfl⟩ | hframe := step_frame hstep
  · exact ⟨rfl, rfl, rfl⟩
  · rcases hframe.record with hrecorded | hsame
    · rw [hrecorded] at hfault
      cases hfault
    · rw [hsame.statusFault] at hfault
      rw [hsame.statusCause, hsame.faultInfo, hsame.faultLoc]
      exact hclear hfault

/-- Settles O16, by the frame of a step. -/
theorem everyStepKeepsSizesAndParameters : Obligations.EveryStepKeepsSizesAndParameters := by
  intro s t hsizes hstep
  obtain ⟨rest, -, rfl⟩ | hframe := step_frame hstep
  · exact ⟨⟨by simp, by simp⟩, rfl⟩
  · exact ⟨hframe.sizes hsizes, hframe.cfg⟩

/-- Settles O17: every constructed slot after a step is a move of a slot, and every move keeps the shape. -/
theorem everyStepKeepsSlotsShaped : Obligations.EveryStepKeepsSlotsShaped := by
  intro s t hlegal hshaped hstep k sl hk
  obtain ⟨rest, -, rfl⟩ | hframe := step_frame hstep
  · rw [slot_resetUnit] at hk
    cases hk
  · exact hframe.cfg ▸ (hframe.slots k sl hk).shaped hlegal fun sl0 h => hshaped k sl0 h

/-- Settles O18: without a recorded fault no slot is freed, and every other move keeps the slot coherent. -/
theorem everyStepKeepsSlotsCoherent : Obligations.EveryStepKeepsSlotsCoherent := by
  intro s t hlegal _ hcoherent hstep hfault k sl hk
  obtain ⟨rest, -, rfl⟩ | hframe := step_frame hstep
  · rw [slot_resetUnit] at hk
    cases hk
  · have hrunning : s.statusFault = false := by
      rcases hframe.record with hrecorded | hsame
      · rw [hrecorded] at hfault
        cases hfault
      · exact hsame.statusFault ▸ hfault
    have hmove := hframe.slots k sl hk
    rw [hfault] at hmove
    exact hframe.cfg ▸ hmove.coherent hlegal fun sl0 h => hcoherent hrunning k sl0 h
end

section
/-! PROOFS. Two runs of a slot command that agree on its slot (spec/10_state.md R47, spec/43_stream.md R185). -/

namespace Sys2Proof.Machine

/-- A slot command of a running unit ends as its answer says (R180, R252). -/
theorem exec_slotCommand {i : Instr} {s : State} {k : Nat} (hi : IsSlotCommand i) (hrun : s.statusFault = false)
    (hk : slotIndex s.cfg i.slotField = some k) :
    exec i s = .next (((slotAnswer s.cfg k (s.slot k) i).apply k s).finish i) := by
  rw [exec_eq_perform, perform_running hrun, bodyOf_eq_slotAnswer hi hk]

/-- An answer carried out touches slot `k` alone (R47, R185). -/
theorem finish_apply_frame (ans : SlotAnswer) (i : Instr) (k : Nat) (s : State) :
    (∀ j, j ≠ k → ((ans.apply k s).finish i).slot j = s.slot j) ∧ ((ans.apply k s).finish i).mem = s.mem := by
  obtain r | ⟨_ | sl, data⟩ := ans
  · exact ⟨fun j _ => by simp [SlotAnswer.apply, State.slot], by simp [SlotAnswer.apply]⟩
  · exact ⟨fun j _ => rfl, rfl⟩
  · exact ⟨fun j hj => slot_setSlot_ne s k j sl hj, rfl⟩

/-- One answer carried out on two running states with the same requester and the same registers in slot `k`. -/
theorem finish_apply_agree (ans : SlotAnswer) (i : Instr) {k : Nat} {s s' : State} (hrun : s.statusFault = false)
    (hrun' : s'.statusFault = false) (hserving : s'.serving = s.serving) (hslot : s'.slot k = s.slot k)
    (hlt : k < s.slots.length) (hlt' : k < s'.slots.length) :
    ((ans.apply k s').finish i).slot k = ((ans.apply k s).finish i).slot k ∧
      ((ans.apply k s').finish i).outputs.head? = ((ans.apply k s).finish i).outputs.head? ∧
      ((ans.apply k s').finish i).statusFault = ((ans.apply k s).finish i).statusFault := by
  obtain r | ⟨_ | sl, data⟩ := ans
  · refine ⟨?_, ?_, ?_⟩
    · simpa [SlotAnswer.apply, State.slot] using hslot
    · simp [SlotAnswer.apply, hserving]
    · simp [SlotAnswer.apply]
  · exact ⟨hslot, by simp [SlotAnswer.apply, hserving], hrun'.trans hrun.symm⟩
  · exact ⟨(slot_setSlot_same s' k sl hlt').trans (slot_setSlot_same s k sl hlt).symm,
      by simp [SlotAnswer.apply, hserving], hrun'.trans hrun.symm⟩

end Sys2Proof.Machine

open Sys2Proof Sys2Proof.Machine

/-- Settles O25: both runs carry out the same answer, a function of what the states agree on. -/
theorem slotCommandsDependOnTheirSlotOnly : Obligations.SlotCommandsDependOnTheirSlotOnly := by
  intro i s s' t t' k hcsr hall hres hlegal hsizes hsizes' hcfg hserving hrun hrun' hk hslot hexec hexec'
  have hi : IsSlotCommand i := ⟨hcsr, hall, hres⟩
  have hlt := slotIndex_lt hlegal hk
  have hans : slotAnswer s'.cfg k (s'.slot k) i = slotAnswer s.cfg k (s.slot k) i := by rw [hcfg, hslot]
  rw [exec_slotCommand hi hrun hk] at hexec
  rw [exec_slotCommand hi hrun' (hcfg.symm ▸ hk), hans] at hexec'
  cases hexec
  cases hexec'
  obtain ⟨hsame, houtput, hfault⟩ := finish_apply_agree (slotAnswer s.cfg k (s.slot k) i) i hrun hrun' hserving hslot
    (hsizes.slots ▸ hlt) (by rwa [hsizes'.slots, hcfg])
  obtain ⟨hothers, hmem⟩ := finish_apply_frame (slotAnswer s.cfg k (s.slot k) i) i k s
  exact ⟨hsame, houtput, hfault, hothers, hmem⟩
end

section
/-! PROOFS. CSR_READ: no state refuses it, and the registers' fields (spec/10_state.md R33-R44, spec/30_encoding.md R90). -/

namespace Sys2Proof

namespace Config

theorem w_le (c : Config) : c.w ≤ 4 := by have := c.w_cases; omega

theorem wrBits_le (c : Config) : c.wrBits ≤ 64 := by have := c.wrBits_cases; omega

theorem rounds_lt {c : Config} (h : c.legal = true) : c.rounds < 256 := by
  obtain ⟨⟨-, hnr⟩, -⟩ := legal_bounds h
  unfold rounds
  split <;> omega

end Config

end Sys2Proof

namespace Sys2Proof.Machine

/-- CSR_READ is performed in every state, and its answer is its whole effect (R90, R244). -/
theorem exec_csrRead_of_done {csr : Csr} {slot : BitVec 32} {s : State} {data : List Word}
    (h : csrReadBody csr slot s = .done s data) :
    ∃ t, exec (.csrRead csr slot) s = .next t ∧ Completed (.csrRead csr slot) data s t ∧ SlotsSame s t ∧ MemorySame s t := by
  refine ⟨_, ?_, completed_respond (.csrRead csr slot) data rfl rfl ⟨rfl, rfl, rfl, rfl, rfl, rfl, rfl, rfl⟩,
    fun _ => rfl, fun _ => rfl⟩
  rw [exec_eq_perform, perform_eq, if_neg (by simp [Instr.opcode])]
  exact congrArg (fun r => Host.Outcome.next (CmdResult.finish (.csrRead csr slot) r)) h

/-- A number that fits a field reads back from it. -/
theorem toNat_ofNat_of_lt {width n : Nat} (h : n < 2 ^ width) : (BitVec.ofNat width n).toNat = n := by
  rw [BitVec.toNat_ofNat, Nat.mod_eq_of_lt h]

/-! ### The fields of the words -/

/-- The fields of CONFIG0 (R34). -/
theorem config0Word_fields (c : Config) :
    (config0Word c).extractLsb' 0 8 = c.engine.code ∧ (config0Word c).extractLsb' 8 8 = BitVec.ofNat 8 c.w ∧
      (config0Word c).extractLsb' 16 8 = BitVec.ofNat 8 c.wc ∧
      (config0Word c).extractLsb' 24 8 = BitVec.ofNat 8 c.wrBits ∧
      (config0Word c).extractLsb' 32 9 = BitVec.ofNat 9 c.m ∧ (config0Word c).extractLsb' 41 7 = 0 ∧
      (config0Word c).extractLsb' 48 8 = BitVec.ofNat 8 c.rounds ∧ (config0Word c).extractLsb' 58 6 = 0 := by
  unfold config0Word
  refine ⟨?_, ?_, ?_, ?_, ?_, ?_, ?_, ?_⟩ <;>
    simp (disch := decide) only [BitVec.extractLsb'_append_eq_of_le, BitVec.extractLsb'_append_eq_of_add_le,
      Nat.sub_self, BitVec.extractLsb'_eq_self, BitVec.ofNat_eq_ofNat]

theorem config0Word_mode (c : Config) : (config0Word c).getLsbD 56 = true ↔ c.mode = .parallel := by
  have hbit : (config0Word c).getLsbD 56 = (modeBit c.mode).getLsbD 0 := by
    unfold config0Word
    simp only [BitVec.getLsbD_append]
    simp
  rw [hbit]
  cases c.mode <;> decide

theorem config0Word_part (c : Config) : (config0Word c).getLsbD 57 = c.part := by
  unfold config0Word
  simp only [BitVec.getLsbD_append]
  simp

/-- The fields of CONFIG1 (R35). -/
theorem config1Word_fields (c : Config) :
    (config1Word c).extractLsb' 0 32 = BitVec.ofNat 32 c.nstreams ∧
      (config1Word c).extractLsb' 32 16 = BitVec.ofNat 16 c.bufLen ∧
      (config1Word c).extractLsb' 48 16 = BitVec.ofNat 16 (c.p - 1) := by
  unfold config1Word
  refine ⟨?_, ?_, ?_⟩ <;>
    simp (disch := decide) only [BitVec.extractLsb'_append_eq_of_le, BitVec.extractLsb'_append_eq_of_add_le,
      Nat.sub_self, BitVec.extractLsb'_eq_self]

/-- The fields of FAULT_LOC (R40). -/
theorem locWord_fields (slot : BitVec 32) (q : Nat) (opc : BitVec 8) :
    (locWord slot q opc).extractLsb' 0 32 = slot ∧ (locWord slot q opc).extractLsb' 32 16 = BitVec.ofNat 16 q ∧
      (locWord slot q opc).extractLsb' 48 8 = opc ∧ (locWord slot q opc).extractLsb' 56 8 = 0 := by
  unfold locWord
  refine ⟨?_, ?_, ?_, ?_⟩ <;>
    simp (disch := decide) only [BitVec.extractLsb'_append_eq_of_le, BitVec.extractLsb'_append_eq_of_add_le,
      Nat.sub_self, BitVec.extractLsb'_eq_self, BitVec.ofNat_eq_ofNat]

/-- The fields of STATUS (R38). -/
theorem statusWord_fields (s : State) (q : Nat) :
    (statusWord s q).extractLsb' 3 5 = 0 ∧ (statusWord s q).extractLsb' 8 8 = s.statusCause ∧
      (statusWord s q).extractLsb' 16 48 = 0 := by
  unfold statusWord
  refine ⟨?_, ?_, ?_⟩ <;>
    simp (disch := decide) only [BitVec.extractLsb'_append_eq_of_le, BitVec.extractLsb'_append_eq_of_add_le,
      Nat.sub_self, BitVec.extractLsb'_eq_self, BitVec.ofNat_eq_ofNat]

/-- FAULT, ADVISORY and BUSY in STATUS (R38). -/
theorem statusWord_flags (s : State) (q : Nat) :
    (statusWord s q).getLsbD 0 = s.statusFault ∧ (statusWord s q).getLsbD 1 = false ∧
      (statusWord s q).getLsbD 2 = busy s q := by
  unfold statusWord
  simp only [BitVec.getLsbD_append]
  simp

theorem busyFrom_iff (q i : Nat) (l : List (Option InFlight)) :
    busyFrom q i l = true ↔ ∃ j, i + j ≠ q ∧ (l.getD j none).isSome = true := by
  induction l generalizing i with
  | nil => simp [busyFrom]
  | cons r rs ih =>
    simp only [busyFrom, Bool.or_eq_true, Bool.and_eq_true, decide_eq_true_eq, ih]
    constructor
    · rintro (hhead | ⟨j, hj, hsome⟩)
      · exact ⟨0, hhead⟩
      · exact ⟨j + 1, by omega, hsome⟩
    · rintro ⟨_ | j, hj, hsome⟩
      · exact .inl ⟨hj, hsome⟩
      · exact .inr ⟨j, by omega, hsome⟩

/-- BUSY is 1 exactly when another requester has a command in flight (R38). -/
theorem busy_iff (s : State) (q : Nat) : busy s q = true ↔ ∃ j, j ≠ q ∧ (s.inFlight j).isSome = true := by
  simpa [busy, State.inFlight] using busyFrom_iff q 0 s.inflight

/-- A cursor within R fits CURSOR's 12 bits (R42). -/
theorem cursorWord_eq {c : Config} {sl : Slot} (hc : c.legal = true) (hcur : sl.cur ≤ c.bufLen) :
    cursorWord sl = BitVec.ofNat 64 sl.cur := by
  have hR := (Config.bufLen_bounds hc).2
  apply BitVec.eq_of_toNat_eq
  rw [cursorWord, BitVec.toNat_setWidth, toNat_ofNat_of_lt (by omega), BitVec.toNat_ofNat]

theorem slotStateWord_eq (s : State) (k : Nat) : slotStateWord s k = if (s.slot k).isSome then 1 else 0 := by
  unfold slotStateWord
  cases (s.slot k).isSome <;> rfl

end Sys2Proof.Machine

open Sys2Proof Sys2Proof.Machine

/-- Settles O27, by the fields of the two words and the bounds of the parameters. -/
theorem configRegistersShowTheParameters : Obligations.ConfigRegistersShowTheParameters := by
  intro s slot hlegal
  obtain ⟨-, ⟨-, hm⟩, ⟨-, hstreams⟩, hp, hp'⟩ := Config.legal_bounds hlegal
  have hw := s.cfg.w_le
  have hwc := s.cfg.wc_le
  have hwr := s.cfg.wrBits_le
  have hR := (Config.bufLen_bounds hlegal).2
  constructor
  · obtain ⟨t, hexec, hdone, hslots, hmem⟩ := exec_csrRead_of_done (csr := .config0) (slot := slot) (s := s) rfl
    obtain ⟨hengine, hfw, hfwc, hfwr, hfm, hzero, hrounds, hzero'⟩ := config0Word_fields s.cfg
    refine ⟨t, config0Word s.cfg, hexec, hdone, hslots, hmem, hengine, ?_, ?_, ?_, ?_, hzero, ?_, config0Word_mode _,
      config0Word_part _, hzero'⟩
    · rw [hfw, toNat_ofNat_of_lt (by omega)]
    · rw [hfwc, toNat_ofNat_of_lt (by omega)]
    · rw [hfwr, toNat_ofNat_of_lt (by omega)]
    · rw [hfm, toNat_ofNat_of_lt (by omega)]
    · rw [hrounds, toNat_ofNat_of_lt (Config.rounds_lt hlegal)]
  · obtain ⟨t, hexec, hdone, hslots, hmem⟩ := exec_csrRead_of_done (csr := .config1) (slot := slot) (s := s) rfl
    obtain ⟨hfstreams, hfR, hfp⟩ := config1Word_fields s.cfg
    refine ⟨t, config1Word s.cfg, hexec, hdone, hslots, hmem, ?_, ?_, ?_⟩
    · rw [hfstreams, toNat_ofNat_of_lt hstreams]
    · rw [hfR, toNat_ofNat_of_lt (by omega)]
    · rw [hfp, toNat_ofNat_of_lt (by omega)]

/-- Settles O28, by the answers of CSR_READ. -/
theorem minMaxAndToleranceRead : Obligations.MinMaxAndToleranceRead := fun _ _ =>
  ⟨exec_csrRead_of_done (csr := .min) rfl, exec_csrRead_of_done (csr := .max) rfl,
    exec_csrRead_of_done (csr := .probTol) rfl⟩

/-- Settles O29, by the fields of STATUS, the search of BUSY and the fields of FAULT_LOC. -/
theorem statusAndFaultRegistersRead : Obligations.StatusAndFaultRegistersRead := by
  refine ⟨fun s slot => ⟨?_, exec_csrRead_of_done (csr := .faultInfo) rfl, exec_csrRead_of_done (csr := .faultLoc) rfl⟩,
    fun slot q opc hq => ?_⟩
  · obtain ⟨t, hexec, hdone, hslots, hmem⟩ := exec_csrRead_of_done (csr := .status) (slot := slot) (s := s) rfl
    obtain ⟨hfault, hadvisory, hbusy⟩ := statusWord_flags s s.serving
    exact ⟨t, statusWord s s.serving, hexec, hdone, hslots, hmem, hfault, hadvisory, hbusy ▸ busy_iff s s.serving,
      statusWord_fields s s.serving⟩
  · obtain ⟨hslot, hrequester, hopc, hzero⟩ := locWord_fields slot q opc
    exact ⟨hslot, by rw [hrequester, toNat_ofNat_of_lt hq], hopc, hzero⟩

/-- Settles O30: the slot prologue finds the slot, and both words hold what they show. -/
theorem cursorAndSlotStateRead : Obligations.CursorAndSlotStateRead := by
  intro s slot k hlegal hk
  constructor
  · intro sl hsl hcur
    refine exec_csrRead_of_done (csr := .cursor) ?_
    simp [csrReadBody, onValidSlot, onSlot, hk, hsl, cursorWord_eq hlegal hcur]
  · refine exec_csrRead_of_done (csr := .slotState) ?_
    simp [csrReadBody, onSlot, hk, slotStateWord_eq]
end

section
/-! PROOFS. What a command makes of the slots and of host memory when it completes, as a function of the parameters, the slots and memory
alone (spec/20_memory.md R60, spec/43_stream.md R185), and what the completion step makes of the records in flight
(spec/60_exceptions.md R252). -/

namespace Sys2Proof.Machine

/-! ### The effect of a command -/

/-- The slots and host memory: besides the parameters, all that the effect of a command reads and writes. -/
abbrev Store := List (Option Slot) × Memory

/-- The store of a state. -/
def State.store (s : State) : Store := (s.slots, s.mem)

/-- The state with another store. -/
def State.withStore (s : State) (st : Store) : State := { s with slots := st.1, mem := st.2 }

/-- What a slot command makes of its slot's registers; one that raises a cause or only reads leaves them. -/
def slotAfter (c : Config) (k : Nat) (i : Instr) (regs : Option Slot) : Option Slot :=
  match slotAnswer c k regs i with
  | .ok (some sl, _) => some sl
  | _ => regs

/-- The effect of a slot command (R180, R185). -/
def slotEffect (c : Config) (i : Instr) (st : Store) : Store :=
  match slotIndex c i.slotField with
  | some k => (st.1.set k (slotAfter c k i (st.1.getD k none)), st.2)
  | none => st

/-- The effect of a RESAMPLE: with N = 0 or operands that R201 rejects there is none (R200). -/
def resampleEffect (policy : Policy) (c : Config) (o : ResampleOps) (st : Store) : Store :=
  if operandCheck o = none ∧ o.n ≠ 0 then
    match policy c (Draws.ofInstance c) (readWeights st.2 (weightFoot o)) st.1 with
    | .ok (rep, slots) => (slots, writeCounts (countFoot o) 0 rep st.2)
    | .error _ => st
  else st

/-- The effect of a command that completes. `bodyOf_cases` ties it to what the commands do. -/
def effectOf (c : Config) (i : Instr) (st : Store) : Store :=
  match i with
  | .csrRead _ _ => st
  | .seedAll value => (seededSlots c value st.1, st.2)
  | .resampleMultinomial o => resampleEffect policyMultinomial c o st
  | .resampleResidual o => resampleEffect policyResidual c o st
  | .resampleStratified o => resampleEffect policyStratified c o st
  | .resampleSystematic o => resampleEffect policySystematic c o st
  | .resampleResidualStratified o => resampleEffect policyResidualStratified c o st
  | .resampleResidualSystematic o => resampleEffect policyResidualSystematic c o st
  | i => slotEffect c i st

/-- A command is a slot command, CSR_READ, SEED_ALL or one of the six RESAMPLE commands (R80). -/
theorem instr_cases (i : Instr) :
    IsSlotCommand i ∨ (∃ csr slot, i = .csrRead csr slot) ∨ (∃ value, i = .seedAll value) ∨
      ∃ x ∈ resamplePolicies, ∃ o, i = x.1 o := by
  cases i with
  | csrRead csr slot => exact .inr (.inl ⟨csr, slot, rfl⟩)
  | seedAll value => exact .inr (.inr (.inl ⟨value, rfl⟩))
  | resampleMultinomial o => exact .inr (.inr (.inr ⟨(_, policyMultinomial), by simp [resamplePolicies], o, rfl⟩))
  | resampleResidual o => exact .inr (.inr (.inr ⟨(_, policyResidual), by simp [resamplePolicies], o, rfl⟩))
  | resampleStratified o => exact .inr (.inr (.inr ⟨(_, policyStratified), by simp [resamplePolicies], o, rfl⟩))
  | resampleSystematic o => exact .inr (.inr (.inr ⟨(_, policySystematic), by simp [resamplePolicies], o, rfl⟩))
  | resampleResidualStratified o => exact .inr (.inr (.inr ⟨(_, policyResidualStratified), by simp [resamplePolicies], o, rfl⟩))
  | resampleResidualSystematic o => exact .inr (.inr (.inr ⟨(_, policyResidualSystematic), by simp [resamplePolicies], o, rfl⟩))
  | _ => exact .inl ⟨nofun, nofun, nofun⟩

theorem effectOf_slotCommand {c : Config} {i : Instr} (hi : IsSlotCommand i) : effectOf c i = slotEffect c i := by
  obtain ⟨hcsr, hall, hres⟩ := hi
  cases i with
  | csrRead => exact absurd rfl hcsr
  | seedAll => exact absurd rfl hall
  | resampleMultinomial | resampleResidual | resampleStratified | resampleSystematic
  | resampleResidualStratified | resampleResidualSystematic => exact absurd rfl hres
  | _ => rfl

/-- The six RESAMPLE commands differ in their policy alone (R80, R200). -/
theorem resample_laws {x : (ResampleOps → Instr) × Policy} (hx : x ∈ resamplePolicies) (o : ResampleOps) :
    (x.1 o).opcode = .resample ∧ (x.1 o).slotField = 0 ∧ (x.1 o).operands = o.words ∧
      (∀ s, bodyOf (x.1 o) s = resampleBody x.2 o s) ∧ (∀ c, effectOf c (x.1 o) = resampleEffect x.2 c o) := by
  simp only [resamplePolicies, List.mem_cons, List.not_mem_nil, or_false] at hx
  rcases hx with rfl | rfl | rfl | rfl | rfl | rfl <;> exact ⟨rfl, rfl, rfl, fun _ => rfl, fun _ => rfl⟩

theorem set_getD_self {α : Type} (l : List α) (k : Nat) (d : α) : l.set k (l.getD k d) = l := by
  by_cases hk : k < l.length
  · simp [hk]
  · exact List.set_eq_of_length_le (Nat.le_of_not_lt hk)

/-- CSR_READ raises a cause or changes nothing (R90). -/
theorem csrReadBody_cases (csr : Csr) (slot : BitVec 32) (s : State) :
    (∃ r, csrReadBody csr slot s = .raised r s) ∨ ∃ data, csrReadBody csr slot s = .done s data := by
  cases csr with
  | cursor =>
    rcases onValidSlot_cases slot s fun _ sl => .done s [cursorWord sl] with
      ⟨-, heq⟩ | ⟨k, -, -, heq⟩ | ⟨k, sl, -, -, heq⟩
    · exact .inl ⟨_, heq⟩
    · exact .inl ⟨_, heq⟩
    · exact .inr ⟨_, heq⟩
  | slotState =>
    rcases onSlot_cases slot s fun k => .done s [slotStateWord s k] with ⟨-, heq⟩ | ⟨k, -, heq⟩
    · exact .inl ⟨_, heq⟩
    · exact .inr ⟨_, heq⟩
  | _ => exact .inr ⟨_, rfl⟩

/-- A slot command raises a cause or has its effect (R180). -/
theorem slotBody_cases {i : Instr} (hi : IsSlotCommand i) (s : State) :
    (∃ r, bodyOf i s = .raised r s) ∨ ∃ data, bodyOf i s = .done (s.withStore (slotEffect s.cfg i s.store)) data := by
  cases hk : slotIndex s.cfg i.slotField with
  | none => exact .inl (bodyOf_of_no_slot hi hk)
  | some k =>
    rw [bodyOf_eq_slotAnswer hi hk]
    have hafter : slotEffect s.cfg i s.store = (s.slots.set k (slotAfter s.cfg k i (s.slot k)), s.mem) := by
      simp only [slotEffect, hk]
      rfl
    rw [hafter, slotAfter]
    obtain r | ⟨_ | sl, data⟩ := slotAnswer s.cfg k (s.slot k) i
    · exact .inl ⟨r, rfl⟩
    · refine .inr ⟨data, ?_⟩
      rw [State.slot, set_getD_self]
      rfl
    · exact .inr ⟨data, rfl⟩

/-- Every command raises a cause and changes nothing, or is a RESAMPLE whose policy aborts, or has its effect on slots and memory and no
other (R241, R252). -/
theorem bodyOf_cases (i : Instr) (s : State) :
    (∃ r, bodyOf i s = .raised r s) ∨
    (∃ x ∈ resamplePolicies, ∃ o f, i = x.1 o ∧ bodyOf i s = abort o f s) ∨
    (∃ data, bodyOf i s = .done (s.withStore (effectOf s.cfg i s.store)) data) := by
  rcases instr_cases i with hi | ⟨csr, slot, rfl⟩ | ⟨value, rfl⟩ | ⟨x, hx, o, rfl⟩
  · rw [effectOf_slotCommand hi]
    exact (slotBody_cases hi s).imp_right .inr
  · exact (csrReadBody_cases csr slot s).imp_right .inr
  · exact .inr (.inr ⟨[], rfl⟩)
  · obtain ⟨-, -, -, hbody, heffect⟩ := resample_laws hx o
    rw [hbody, heffect, resampleEffect]
    rcases resampleBody_cases x.2 o s with ⟨r, -, heq⟩ | ⟨hops, hn, heq⟩ | ⟨r, -, -, -, heq⟩ |
      ⟨f, -, -, -, -, heq⟩ | ⟨rep, slots, hops, hn, -, hok, heq⟩
    · exact .inl ⟨r, heq⟩
    · exact .inr (.inr ⟨[], by rw [heq, if_neg fun h => h.2 hn]; rfl⟩)
    · exact .inl ⟨r, heq⟩
    · exact .inr (.inl ⟨x, hx, o, f, rfl, heq⟩)
    · refine .inr (.inr ⟨[], ?_⟩)
      have hok' : x.2 s.cfg (Draws.ofInstance s.cfg) (readWeights s.store.2 (weightFoot o)) s.store.1 =
        .ok (rep, slots) := hok
      rw [heq, if_pos ⟨hops, hn⟩, hok']
      rfl

/-! ### The canonical form of memory (R50) -/

theorem effectOf_mem_wf {c : Config} {st : Store} (h : st.2.wf = true) (i : Instr) : (effectOf c i st).2.wf = true := by
  rcases instr_cases i with hi | ⟨csr, slot, rfl⟩ | ⟨value, rfl⟩ | ⟨x, hx, o, rfl⟩
  · rw [effectOf_slotCommand hi, slotEffect]
    split <;> exact h
  · exact h
  · exact h
  · obtain ⟨-, -, -, -, heffect⟩ := resample_laws hx o
    rw [heffect, resampleEffect]
    split
    · split
      · exact wf_writeCounts h _ _ _
      · exact h
    · exact h

theorem abortedState_mem_wf {s : State} (h : s.mem.wf = true) (o : ResampleOps) (f : PolicyFault) :
    (abortedState o f s).mem.wf = true := by
  unfold abortedState
  split
  · exact wf_freeElems h _ _ _ _
  · exact h

/-- An abort raises a cause on the aborted state, but for the count of free values taken (R235). -/
theorem abort_mem (o : ResampleOps) (f : PolicyFault) (s : State) :
    ∃ r s', abort o f s = .raised r s' ∧ s'.mem = (abortedState o f s).mem := by
  unfold abort
  split <;> exact ⟨_, _, rfl, rfl⟩

theorem exec_mem_wf {i : Instr} {s t : State} (hwf : s.mem.wf = true) (h : exec i s = .next t) : t.mem.wf = true := by
  rw [exec_eq_perform, perform_eq] at h
  cases h
  split
  · exact hwf
  · rcases bodyOf_cases i s with ⟨r, heq⟩ | ⟨x, -, o, f, -, heq⟩ | ⟨data, heq⟩ <;> rw [heq]
    · simpa using hwf
    · obtain ⟨r, s', habort, hmem⟩ := abort_mem o f s
      rw [habort, finish_raised, takeFault_mem, hmem]
      exact abortedState_mem_wf hwf o f
    · exact effectOf_mem_wf (st := s.store) hwf i

theorem rejectMessage_mem (msg : List Word) (r : Raise) (s : State) : (rejectMessage msg r s).mem = s.mem := by
  rcases rejectMessage_cases msg r s with ⟨-, -, heq⟩ | ⟨-, heq⟩ <;> simp [heq]

theorem completeStep_mem_wf {q : Nat} {s t : State} (hwf : s.mem.wf = true) (h : completeStep q s = .next t) :
    t.mem.wf = true := by
  obtain ⟨c, -, ⟨i, -, hexec⟩ | ⟨r, -, rfl⟩⟩ := completeStep_cases h
  · exact exec_mem_wf (s := serve q s) hwf hexec
  · rwa [rejectMessage_mem]

theorem issueStep_mem {q : Nat} {msg : List Word} {s t : State} (h : issueStep q msg s = .next t) : t.mem = s.mem := by
  obtain ⟨-, -, ⟨k, -, -, rfl⟩ | ⟨-, rfl⟩⟩ := issueStep_cases h <;> simp

theorem hostAccess_mem_wf {q len : Nat} {write : Bool} {addr : Word} {access : State → State} {s t : State}
    (hwf : s.mem.wf = true) (haccess : (access s).mem.wf = true)
    (h : hostAccess q write addr len access s = .next t) : t.mem.wf = true := by
  obtain ⟨-, -, ⟨a, owner, msg, -, -, rfl⟩ | ⟨-, rfl⟩⟩ := hostAccess_cases h
  · simpa using hwf
  · exact haccess

/-! ### The records in flight (R252) -/

/-- A performed command has nothing in flight any more, and no other record changes (R252). -/
theorem exec_inflight {i : Instr} {s t : State} (h : exec i s = .next t) : t.inflight = s.inflight.set s.serving none := by
  rw [exec_eq_perform, perform_eq] at h
  cases h
  split
  · rfl
  · rcases bodyOf_cases i s with ⟨r, heq⟩ | ⟨x, -, o, f, -, heq⟩ | ⟨data, heq⟩ <;> rw [heq]
    · simp
    · obtain ⟨-, -, -, -, -, hinflight, -, -, hserving⟩ := abortedState_frame o f s
      unfold abort
      split <;> simp [hinflight, hserving]
    · rfl

theorem rejectMessage_inflight (msg : List Word) (r : Raise) (s : State) :
    (rejectMessage msg r s).inflight = s.inflight.set s.serving none := by
  rcases rejectMessage_cases msg r s with ⟨-, -, heq⟩ | ⟨-, heq⟩ <;> simp [heq]

theorem completeStep_inflight {q : Nat} {s t : State} (h : completeStep q s = .next t) :
    t.inflight = s.inflight.set q none := by
  obtain ⟨c, -, ⟨i, -, hexec⟩ | ⟨r, -, rfl⟩⟩ := completeStep_cases h
  · exact exec_inflight hexec
  · exact rejectMessage_inflight c.msg r _

theorem inFlight_of_set_none {s t : State} {q q' : Nat} {c : InFlight} (h : t.inflight = s.inflight.set q none)
    (hc : t.inFlight q' = some c) : s.inFlight q' = some c := by
  by_cases hq : q' = q
  · subst hq
    by_cases hlt : q' < s.inflight.length <;> simp [State.inFlight, h, hlt] at hc
  · simpa [State.inFlight, h, Ne.symm hq] using hc

end Sys2Proof.Machine

open Sys2Proof Sys2Proof.Machine

/-- Settles O14: only a RESAMPLE and a host write touch memory, and both do so by writes of bytes. -/
theorem everyStepKeepsMemoryCanonical : Obligations.EveryStepKeepsMemoryCanonical := by
  intro s t hwf hstep
  rcases step_cases hstep with ⟨q, msg, rest, -, hissue⟩ | ⟨q, rest, -, hcomplete⟩ | ⟨q, addr, len, rest, -, hread⟩ |
    ⟨q, addr, bytes, rest, -, hwrite⟩ | ⟨rest, -, rfl⟩ | ⟨-, q, -, hcomplete⟩ | ⟨-, -, rfl⟩
  · rw [issueStep_mem hissue]
    exact hwf
  · exact completeStep_mem_wf (s := s.withInputs rest) hwf hcomplete
  · exact hostAccess_mem_wf (s := s.withInputs rest) hwf hwf hread
  · exact hostAccess_mem_wf (s := s.withInputs rest) hwf (wf_write hwf addr bytes) hwrite
  · exact hwf
  · exact completeStep_mem_wf hwf hcomplete
  · exact hwf
end

section
/-! PROOFS. Commands in flight hold disjoint slots while no fault is recorded (spec/20_memory.md R60, spec/43_stream.md R182, R183). -/

namespace Sys2Proof.Machine

/-- Two held sets share no slot exactly when no slot is in both (R183). -/
theorem shared_eq_none {a b : Held} : a.shared b = none ↔ ∀ k, ¬ (a.Has k ∧ b.Has k) := by
  unfold Held.shared Held.Has
  split
  · next h =>
    simp only [reduceCtorEq, false_iff, not_forall, not_not]
    exact ⟨max a.lo b.lo, by omega⟩
  · next h =>
    simp only [true_iff]
    intro k
    omega

theorem shared_comm {a b : Held} (h : a.shared b = none) : b.shared a = none :=
  shared_eq_none.2 fun k hk => shared_eq_none.1 h k hk.symm

/-- A step other than reset that ends with no fault recorded began with none. -/
theorem UnitFrame.running {s t : State} (h : UnitFrame s t) (hfault : t.statusFault = false) : s.statusFault = false := by
  rcases h.record with hrecorded | hsame
  · rw [hrecorded] at hfault
    cases hfault
  · exact hsame.statusFault ▸ hfault

namespace InFlightDisjoint

variable {s t : State}

/-- Taking records away keeps the invariant. -/
theorem of_subset (h : InFlightDisjoint s) (hframe : UnitFrame s t)
    (hsub : ∀ q c, t.inFlight q = some c → s.inFlight q = some c) : InFlightDisjoint t where
  recorded q c hc := hframe.cfg ▸ h.recorded q c (hsub q c hc)
  disjoint hfault q q' c c' hne hc hc' :=
    h.disjoint (hframe.running hfault) q q' c c' hne (hsub q c hc) (hsub q' c' hc')

theorem of_sameInflight (h : InFlightDisjoint s) (hframe : UnitFrame s t) (hsame : t.inflight = s.inflight) :
    InFlightDisjoint t :=
  h.of_subset hframe fun q c hc => by rwa [State.inFlight, hsame] at hc

theorem withInputs (h : InFlightDisjoint s) (rest : List Event) : InFlightDisjoint (s.withInputs rest) :=
  ⟨h.recorded, h.disjoint⟩

theorem resetUnit (s : State) : InFlightDisjoint (resetUnit s) where
  recorded q c hc := by simp [inFlight_resetUnit] at hc
  disjoint _ q q' c c' _ hc := by simp [inFlight_resetUnit] at hc

theorem completeStep {q : Nat} (h : InFlightDisjoint s) (hstep : completeStep q s = .next t) : InFlightDisjoint t :=
  h.of_subset (.completeStep hstep) fun _ _ hc => inFlight_of_set_none (completeStep_inflight hstep) hc

theorem hostAccess {q len : Nat} {write : Bool} {addr : Word} {access : State → State} (h : InFlightDisjoint s)
    (haccess : UnitFrame s (access s)) (hsame : (access s).inflight = s.inflight)
    (hstep : hostAccess q write addr len access s = .next t) : InFlightDisjoint t := by
  refine h.of_sameInflight (.hostAccess haccess hstep) ?_
  obtain ⟨-, -, ⟨a, owner, msg, -, -, rfl⟩ | ⟨-, rfl⟩⟩ := hostAccess_cases hstep
  · simp
  · exact hsame

/-- Putting a message in flight: a record is the new one or an old one of another requester. -/
theorem issued {q : Nat} {msg : List Word} (h : InFlightDisjoint s)
    (hrace : s.statusFault = true ∨ raceFrom q (heldOf s.cfg msg) 0 s.inflight = none)
    (ht : t = { s with inflight := s.inflight.set q (some (inFlightOf s.cfg msg)) }) : InFlightDisjoint t := by
  have hnew : ∀ {c}, t.inFlight q = some c → c = inFlightOf s.cfg msg := fun {c} hc => by
    by_cases hlt : q < s.inflight.length <;> simp [ht, State.inFlight, hlt] at hc
    exact hc.symm
  have hold : ∀ {q' c}, q' ≠ q → t.inFlight q' = some c → s.inFlight q' = some c := fun hne hc => by
    simpa [ht, State.inFlight, Ne.symm hne] using hc
  have hapart : ∀ {q' c c'}, t.statusFault = false → q' ≠ q → t.inFlight q = some c → t.inFlight q' = some c' →
      c.held.shared c'.held = none := fun {q' c c'} hfault hne hc hc' => by
    have hnone := hrace.resolve_left (by simpa [ht] using hfault)
    rw [hnew hc]
    exact (raceFrom_none _ _ _ _).1 hnone q' c' (by omega) (hold hne hc')
  constructor
  · intro q' c hc
    subst ht
    by_cases hq : q' = q
    · subst hq
      rw [hnew hc]
      rfl
    · exact h.recorded q' c (hold hq hc)
  · intro hfault q1 q2 c1 c2 hne hc1 hc2
    by_cases h1 : q1 = q
    · subst h1
      exact hapart hfault hne.symm hc1 hc2
    · by_cases h2 : q2 = q
      · subst h2
        exact shared_comm (hapart hfault h1 hc2 hc1)
      · exact h.disjoint (by simpa [ht] using hfault) q1 q2 c1 c2 hne (hold h1 hc1) (hold h2 hc2)

theorem issueStep {q : Nat} {msg : List Word} (h : InFlightDisjoint s) (hstep : issueStep q msg s = .next t) :
    InFlightDisjoint t := by
  obtain ⟨-, -, ⟨k, -, -, ht⟩ | ⟨hrace, ht⟩⟩ := issueStep_cases hstep
  · exact h.of_subset (.issueStep hstep) fun _ _ hc => inFlight_of_set_none (q := q) (by simp [ht]) hc
  · exact h.issued hrace ht

end InFlightDisjoint

end Sys2Proof.Machine

open Sys2Proof Sys2Proof.Machine

/-- Settles O19: only the issue step adds a record, and while no fault is recorded it has searched for a shared slot first. -/
theorem everyStepKeepsInFlightDisjoint : Obligations.EveryStepKeepsInFlightDisjoint := by
  intro s t h hstep
  rcases step_cases hstep with ⟨q, msg, rest, -, hissue⟩ | ⟨q, rest, -, hcomplete⟩ | ⟨q, addr, len, rest, -, hread⟩ |
    ⟨q, addr, bytes, rest, -, hwrite⟩ | ⟨rest, -, rfl⟩ | ⟨-, q, -, hcomplete⟩ | ⟨-, -, rfl⟩
  · exact (h.withInputs rest).issueStep hissue
  · exact (h.withInputs rest).completeStep hcomplete
  · exact (h.withInputs rest).hostAccess (.of_sameSlots rfl rfl rfl (.inr ⟨rfl, rfl, rfl, rfl⟩)) rfl hread
  · exact (h.withInputs rest).hostAccess (.of_sameSlots rfl rfl rfl (.inr ⟨rfl, rfl, rfl, rfl⟩)) rfl hwrite
  · exact .resetUnit _
  · exact h.completeStep hcomplete
  · exact h
end

section
/-! PROOFS. Host accesses while a RESAMPLE is in flight (spec/20_memory.md R62, spec/60_exceptions.md R254). -/

namespace Sys2Proof.Machine

/-- The search answers what the first place that answers does. -/
theorem firstFrom_eq_some {α : Type} {count i j : Nat} {f : Nat → Option α} {x : α} (hij : i ≤ j) (hj : j < i + count)
    (hx : f j = some x) (hfirst : ∀ k, i ≤ k → k < j → f k = none) : firstFrom count i f = some x := by
  cases h : firstFrom count i f with
  | none => rw [(firstFrom_none count i f).1 h j hij hj] at hx; cases hx
  | some y =>
    obtain ⟨j', hij', -, hy, hfirst'⟩ := firstFrom_some h
    rcases Nat.lt_trichotomy j j' with hlt | rfl | hgt
    · rw [hfirst' j hij hlt] at hx; cases hx
    · exact hy.symm.trans hx
    · rw [hfirst j' hij' hgt] at hy; cases hy

/-- The command in flight `r` has footprints that forbid the access to byte `a` (R62). -/
def Forbids (write : Bool) (a : Nat) (r : Option InFlight) : Prop :=
  ∃ c f, r = some c ∧ c.foot = some f ∧ f.forbids write a = true

/-- The search looks at the first entry, then at the others (R254). -/
theorem forbiddingFrom_cons {write : Bool} {a i : Nat} {r : Option InFlight} {rs : List (Option InFlight)} :
    (∃ c, r = some c ∧ Forbids write a r ∧ forbiddingFrom write a i (r :: rs) = some (i, c.msg)) ∨
    (¬ Forbids write a r ∧ forbiddingFrom write a i (r :: rs) = forbiddingFrom write a (i + 1) rs) := by
  unfold Forbids
  match r with
  | none => exact .inr ⟨by simp, rfl⟩
  | some ⟨msg, held, none⟩ => exact .inr ⟨by simp, rfl⟩
  | some ⟨msg, held, some f⟩ =>
    by_cases hf : f.forbids write a = true
    · exact .inl ⟨_, rfl, by simpa using hf, by simp [forbiddingFrom, hf]⟩
    · exact .inr ⟨by simpa using hf, by simp [forbiddingFrom, hf]⟩

/-- No answer exactly when nothing in flight forbids the byte. -/
theorem forbiddingFrom_none {write : Bool} {a i : Nat} {l : List (Option InFlight)} :
    forbiddingFrom write a i l = none ↔ ∀ j, ¬ Forbids write a (l.getD j none) := by
  induction l generalizing i with
  | nil => simp [forbiddingFrom, Forbids]
  | cons r rs ih =>
    rcases forbiddingFrom_cons (write := write) (a := a) (i := i) (r := r) (rs := rs) with
      ⟨c, -, hr, heq⟩ | ⟨hr, heq⟩ <;> rw [heq]
    · simp only [reduceCtorEq, false_iff, not_forall, not_not]
      exact ⟨0, hr⟩
    · rw [ih]
      refine ⟨fun h j => ?_, fun h j => h (j + 1)⟩
      match j with
      | 0 => exact hr
      | j + 1 => exact h j

/-- The answer is the first requester whose command forbids the byte. -/
theorem forbiddingFrom_eq_some {write : Bool} {a i owner : Nat} {l : List (Option InFlight)} {c : InFlight}
    (hc : l.getD owner none = some c) (hforbids : Forbids write a (l.getD owner none))
    (hfirst : ∀ j, j < owner → ¬ Forbids write a (l.getD j none)) :
    forbiddingFrom write a i l = some (i + owner, c.msg) := by
  induction l generalizing i owner with
  | nil => simp at hc
  | cons r rs ih =>
    rcases forbiddingFrom_cons (write := write) (a := a) (i := i) (r := r) (rs := rs) with
      ⟨c', rfl, hr, heq⟩ | ⟨hr, heq⟩ <;> rw [heq]
    · match owner with
      | 0 =>
        cases hc
        rfl
      | owner + 1 => exact absurd hr (hfirst 0 (Nat.succ_pos _))
    · match owner with
      | 0 => exact absurd hforbids hr
      | owner + 1 =>
        rw [ih hc hforbids fun j hj => hfirst (j + 1) (by omega)]
        simp only [Option.some.injEq, Prod.mk.injEq, and_true]
        omega

/-- An access within the address space races exactly when a command in flight forbids one of its bytes (R254). -/
theorem memoryRace_none {s : State} {write : Bool} {addr : Word} {len : Nat} :
    memoryRace s write addr len = none ↔
      ∀ a, addr.toNat ≤ a → a < addr.toNat + len → ∀ q, ¬ Forbids write a (s.inFlight q) := by
  simp only [memoryRace, firstFrom_none, Option.map_eq_none_iff, forbiddingFrom_none]
  rfl

/-- The race recorded is that of the lowest forbidden byte with the lowest requester that forbids it (R254, log 18). -/
theorem memoryRace_eq_some {s : State} {write : Bool} {addr : Word} {len a owner : Nat} {c : InFlight}
    (hlo : addr.toNat ≤ a) (hhi : a < addr.toNat + len) (hc : s.inFlight owner = some c)
    (hforbids : Forbids write a (s.inFlight owner))
    (hfirst : ∀ q b, addr.toNat ≤ b → b < addr.toNat + len → Forbids write b (s.inFlight q) →
      a ≤ b ∧ (b = a → owner ≤ q)) :
    memoryRace s write addr len = some (a, owner, c.msg) := by
  refine firstFrom_eq_some hlo hhi ?_ fun b hb hba => ?_
  · rw [forbiddingFrom_eq_some hc hforbids fun q hq hf => ?_]
    · simp
    · exact absurd ((hfirst q a hlo hhi hf).2 rfl) (by omega)
  · rw [Option.map_eq_none_iff, forbiddingFrom_none]
    intro q hf
    exact absurd (hfirst q b hb (by omega) hf).1 (by omega)

theorem forbids_eq_true {f : Footprints} {write : Bool} {a : Nat} :
    f.forbids write a = true ↔ f.counts.contains a = true ∨ (write = true ∧ f.weights.contains a = true) := by
  simp [Footprints.forbids]

/-- A host access that races records the fault and does nothing else (R254). -/
theorem hostAccess_of_race {q len a owner : Nat} {write : Bool} {addr : Word} {access : State → State} {s : State}
    {msg : List Word} (hq : q < s.inflight.length) (hlen : addr.toNat + len ≤ 2 ^ 64) (hrun : s.statusFault = false)
    (hrace : memoryRace s write addr len = some (a, owner, msg)) :
    hostAccess q write addr len access s =
      .next (recordFault owner (msgOpc msg) (msgSlot msg) ⟨.memoryRace, BitVec.ofNat 64 a⟩ s) := by
  unfold hostAccess
  rw [if_neg (by omega), if_neg (by omega), hrun, if_neg Bool.false_ne_true, hrace]

/-- A host access that does not race, or comes in the fault state, is the access itself (R254). -/
theorem hostAccess_of_no_race {q len : Nat} {write : Bool} {addr : Word} {access : State → State} {s : State}
    (hq : q < s.inflight.length) (hlen : addr.toNat + len ≤ 2 ^ 64)
    (hrace : s.statusFault = true ∨ memoryRace s write addr len = none) :
    hostAccess q write addr len access s = .next (access s) := by
  have hnone : (if s.statusFault then none else memoryRace s write addr len) = none := by
    rcases hrace with hfault | hnone
    · rw [if_pos hfault]
    · rw [hnone, ite_self]
  unfold hostAccess
  rw [if_neg (by omega), if_neg (by omega), hnone]

end Sys2Proof.Machine

open Sys2Proof Sys2Proof.Machine

/-- Settles O10: the search of the access finds that byte and that RESAMPLE. -/
theorem hostAccessToABufferInFlightRaces : Obligations.HostAccessToABufferInFlightRaces := by
  intro s q addr bytes len write rest a owner c f hinputs hbytes hq hlen hrun hc hf hlo hhi hin hfirst
  have hrace : memoryRace (s.withInputs rest) write addr len = some (a, owner, c.msg) := by
    refine memoryRace_eq_some hlo hhi hc ⟨c, f, hc, hf, forbids_eq_true.2 hin⟩ ?_
    rintro q' b hb hb' ⟨c', f', hc', hf', hforbids⟩
    exact hfirst q' c' f' b hc' hf' hb hb' hforbids
  have hrecord : recordFault owner (msgOpc c.msg) (msgSlot c.msg) ⟨.memoryRace, BitVec.ofNat 64 a⟩
      (s.withInputs rest) = { s with
        inputs := rest
        statusFault := true
        statusCause := 0x0F
        faultInfo := BitVec.ofNat 64 a
        faultLoc := locWord (msgSlot c.msg) owner (msgOpc c.msg) } := by
    rw [recordFault, withInputs_statusFault, hrun]
    rfl
  rw [← hrecord]
  cases write with
  | false =>
    rw [step, hinputs]
    exact hostAccess_of_race (s := s.withInputs rest) hq hlen hrun hrace
  | true =>
    obtain rfl := hbytes rfl
    rw [step, hinputs]
    exact hostAccess_of_race (s := s.withInputs rest) hq hlen hrun hrace

/-- Settles O11: no race is found, and the bytes are read or written one by one. -/
theorem hostAccessesAreOrdinaryOtherwise : Obligations.HostAccessesAreOrdinaryOtherwise := by
  intro s q addr rest hq hwf
  have hnoRace : ∀ {write : Bool} {len : Nat}, (s.statusFault = true ∨ ∀ q' c f a, s.inFlight q' = some c →
      c.foot = some f → addr.toNat ≤ a → a < addr.toNat + len → f.forbids write a = false) →
      (s.withInputs rest).statusFault = true ∨ memoryRace (s.withInputs rest) write addr len = none := by
    refine fun h => h.imp_right fun h => memoryRace_none.2 ?_
    rintro a hlo hhi q' ⟨c, f, hc, hf, hforbids⟩
    rw [h q' c f a hc hf hlo hhi] at hforbids
    cases hforbids
  constructor
  · intro len hinputs hlen hfree
    refine ⟨s.mem.read len addr, ?_, read_length _ _ _, fun k hk => read_getD _ _ _ _ hk⟩
    simp only [step, hinputs]
    exact hostAccess_of_no_race (s := s.withInputs rest) hq hlen (hnoRace hfree)
  · intro bytes hinputs hlen hfree
    refine ⟨s.mem.write addr bytes, ?_, fun k hk => byteAt_write_inside hwf addr bytes k hk (by omega),
      fun b hb => byteAt_write_outside s.mem addr b bytes hb⟩
    simp only [step, hinputs]
    exact hostAccess_of_no_race (s := s.withInputs rest) hq hlen (hnoRace hfree)
end

section
/-! PROOFS. The checks of RESAMPLE before its policy, each with what it raises (spec/44_resample.md R200-R205, spec/20_memory.md R51-R63). -/

namespace Sys2Proof.Machine

variable {o : ResampleOps} {s : State}

/-- A RESAMPLE whose operand checks pass raises what the checks after them answer, precisely (R200, R241). -/
theorem exec_resample_of_check {x : (ResampleOps → Instr) × Policy} (hx : x ∈ resamplePolicies) {r : Raise}
    (hrun : s.statusFault = false) (hops : OperandsOk o) (hcheck : resampleCheck o s = some r) :
    ∃ t, exec (x.1 o) s = .next t ∧ Faulted 0x40 0 r s t := by
  obtain ⟨hopcode, hslot, -, hbody, -⟩ := resample_laws hx o
  have hoperands : operandCheck o = none :=
    (operandCheck_none o).2 ⟨hops.wstride, hops.rstride, hops.nw, hops.nrl, hops.nBound⟩
  have hn : o.n ≠ 0 := fun h => absurd hops.nPos (by simp [h])
  have hraised : resampleBody x.2 o s = .raised r s := by
    simp only [resampleBody, hoperands, if_neg hn, hcheck]
  refine ⟨takeFault 0x40 0 r s, ?_, faulted_takeFault _ _ r hrun⟩
  rw [exec_eq_perform, perform_running hrun, hbody, hraised, finish_raised, hopcode, hslot]
  rfl

@[simp] theorem weightFoot_n (o : ResampleOps) : (weightFoot o).n = o.n.toNat := rfl

/-! ### One check after another (R200) -/

theorem resampleCheck_of_slotCheck {r : Raise} (h : slotCheck s o.n.toNat = some r) : resampleCheck o s = some r := by
  simp [resampleCheck, h]

theorem slotCheck_of_streamsOk (h : StreamsOk o s) : slotCheck s o.n.toNat = none :=
  (slotCheck_none s _).2 ⟨h.streams, h.valid⟩

theorem resampleCheck_of_memoryCheck {r : Raise} (hstreams : StreamsOk o s) (h : memoryCheck s.cfg o = some r) :
    resampleCheck o s = some r := by
  simp [resampleCheck, slotCheck_of_streamsOk hstreams, h]

/-- With both bases aligned the memory checks are the two bus checks and the overlap check (R54, R200). -/
theorem memoryCheck_of_aligned {c : Config} (hw : o.wbase.toNat % 8 = 0) (hr : o.rbase.toNat % 8 = 0) :
    memoryCheck c o = (busCheck c (weightFoot o)).or
      ((busCheck c (countFoot o)).or (overlapCheck (weightFoot o) (countFoot o))) := by
  rw [memoryCheck, if_neg (by omega), if_neg (by omega)]
  cases busCheck c (weightFoot o) <;> cases busCheck c (countFoot o) <;> rfl

/-! ### What each check answers -/

/-- BadSlot comes before any Uninitialised (R202). -/
theorem slotCheck_badSlot {N : Nat} (hmode : s.cfg.mode = .parallel) (hN : s.cfg.nstreams < N) :
    slotCheck s N = some ⟨.badSlot, BitVec.ofNat 64 s.cfg.nstreams⟩ :=
  if_pos ⟨hmode, hN⟩

/-- The lowest used slot that is not constructed (R202). -/
theorem slotCheck_uninitialised {N k : Nat} (hstreams : s.cfg.mode = .parallel → N ≤ s.cfg.nstreams)
    (hk : k < usedSlots s.cfg N) (hnone : s.slot k = none) (hfirst : ∀ j, j < k → (s.slot j).isSome = true) :
    slotCheck s N = some ⟨.uninitialised, BitVec.ofNat 64 k⟩ := by
  rw [slotCheck, if_neg fun h => absurd (hstreams h.1) (by omega)]
  refine firstFrom_eq_some (Nat.zero_le k) (by omega) (by simp [hnone]) fun j _ hj => ?_
  obtain ⟨sl, hsl⟩ := Option.isSome_iff_exists.1 (hfirst j hj)
  simp [hsl]

/-- The lowest element that does not fit or is not admitted (R51, R55). -/
theorem busCheck_eq_some {c : Config} {f : Footprint} {i : Nat} (hi : i < f.n) (hbad : reachable c (f.elem i) = false)
    (hfirst : ∀ j, j < i → reachable c (f.elem j) = true) :
    busCheck c f = some ⟨.busError, BitVec.ofNat 64 (f.elem i)⟩ :=
  firstFrom_eq_some (Nat.zero_le i) (by omega) (by simp [hbad]) fun j _ hj => by simp [hfirst j hj]

/-- Elements of a positive stride rise by at least their 8 bytes (R55). -/
theorem elem_add_le {f : Footprint} (hs : 0 < f.stride) {i j : Nat} (hij : i < j) : f.elem i + 8 ≤ f.elem j := by
  unfold Footprint.elem
  have hmul : 8 * (i + 1) * f.stride ≤ 8 * j * f.stride := Nat.mul_le_mul_right _ (by omega)
  have hsplit : 8 * (i + 1) * f.stride = 8 * i * f.stride + 8 * f.stride := by ring
  omega

/-- The lowest byte that two footprints share (R63). -/
theorem overlapCheck_eq_some {w r : Footprint} (hs : 0 < w.stride) {a : Nat} (hw : w.contains a = true)
    (hr : r.contains a = true) (hfirst : ∀ b, b < a → ¬ (w.contains b = true ∧ r.contains b = true)) :
    overlapCheck w r = some ⟨.bufferOverlap, BitVec.ofNat 64 a⟩ := by
  obtain ⟨i, hi, hlo, hhi⟩ := (contains_iff w hs a).1 hw
  have hnone : ∀ j b, j < w.n → w.elem j ≤ b → b < w.elem j + 8 → b < a → r.contains b = false :=
    fun j b hj hb hb' hba => by
      by_contra hin
      exact hfirst b hba ⟨(contains_iff w hs b).2 ⟨j, hj, hb, hb'⟩, by simpa using hin⟩
  refine firstFrom_eq_some (Nat.zero_le i) (by omega) ?_ fun j _ hji => ?_
  · exact firstFrom_eq_some hlo hhi (by simp [hr]) fun b hb hba => by simp [hnone i b hi hb (by omega) hba]
  · rw [firstFrom_none]
    intro b hb hb'
    have hbelow := elem_add_le hs hji
    simp [hnone j b (by omega) hb hb' (by omega)]

theorem overlapCheck_none {w r : Footprint} (hs : 0 < w.stride)
    (h : ∀ a, ¬ (w.contains a = true ∧ r.contains a = true)) : overlapCheck w r = none := by
  refine (firstFrom_none _ _ _).2 fun i _ hi => (firstFrom_none _ _ _).2 fun a hlo hhi => ?_
  have hw : w.contains a = true := (contains_iff w hs a).2 ⟨i, by omega, hlo, hhi⟩
  have hr : r.contains a = false := Bool.not_eq_true _ ▸ fun hr => h a ⟨hw, hr⟩
  simp [hr]

/-- The lowest weight that is not valid (R205). -/
theorem weightCheckFrom_eq_some {ws : List F64} {j : Nat} (hj : j < ws.length) (hbad : weightBad (ws.getD j .zero) = true)
    (hfirst : ∀ k, k < j → weightBad (ws.getD k .zero) = false) :
    weightCheckFrom 0 ws = some ⟨.badWeight, BitVec.ofNat 64 j⟩ := by
  cases h : weightCheckFrom 0 ws with
  | none =>
    have hgood := (weightCheckFrom_none 0 ws).1 h (ws.getD j .zero) (by simp [hj])
    rw [hgood] at hbad
    cases hbad
  | some r =>
    obtain ⟨j', -, rfl, hbad', hfirst'⟩ := weightCheckFrom_some h
    have hsame : j' = j := by
      rcases Nat.lt_trichotomy j j' with hlt | heq | hgt
      · rw [hfirst' j hlt] at hbad; cases hbad
      · exact heq.symm
      · rw [hfirst j' hgt] at hbad'; cases hbad'
    rw [hsame, Nat.zero_add]

/-- A positive signed stride is positive as an unsigned number (R73). -/
theorem toNat_pos_of_toInt_pos {v : Word} (h : 0 < v.toInt) : 0 < v.toNat := by
  rw [BitVec.toInt_eq_toNat_cond] at h
  split at h <;> omega

theorem memoryCheck_of_buffersOk (hops : OperandsOk o) (h : BuffersOk o s) : memoryCheck s.cfg o = none := by
  rw [memoryCheck_of_aligned h.walign h.ralign, (busCheck_none _ _).2 h.wreach, (busCheck_none _ _).2 h.rreach,
    overlapCheck_none (toNat_pos_of_toInt_pos hops.wstride) h.disjoint]
  rfl

/-- The weight check is made on the weights as the command reads them (R200, R205). -/
theorem resampleCheck_badWeight {i : Nat} (hops : OperandsOk o) (hstreams : StreamsOk o s) (hbuffers : BuffersOk o s)
    (hi : i < o.n.toNat) (hbad : weightBad (storedWeight o s i) = true)
    (hfirst : ∀ j, j < i → weightBad (storedWeight o s j) = false) :
    resampleCheck o s = some ⟨.badWeight, BitVec.ofNat 64 i⟩ := by
  have hread : ∀ j, j < o.n.toNat → (readWeights s.mem (weightFoot o)).getD j .zero = storedWeight o s j :=
    fun j hj => readWeights_getD s.mem (weightFoot o) j hj
  simp only [resampleCheck, slotCheck_of_streamsOk hstreams, memoryCheck_of_buffersOk hops hbuffers]
  refine weightCheckFrom_eq_some (by simpa using hi) (by rwa [hread i hi]) fun j hj => ?_
  rw [hread j (by omega)]
  exact hfirst j hj

end Sys2Proof.Machine

open Sys2Proof Sys2Proof.Machine

/-- Settles O50: under each clause's conditions the checks before it pass and its own check answers. -/
theorem resampleSlotMemoryAndWeightChecks : Obligations.ResampleSlotMemoryAndWeightChecks := by
  intro x hx o s hrun hops
  have hfault : ∀ {r : Raise}, resampleCheck o s = some r → ∃ t, exec (x.1 o) s = .next t ∧ Faulted 0x40 0 r s t :=
    exec_resample_of_check hx hrun hops
  refine ⟨fun hmode hn => hfault (resampleCheck_of_slotCheck (slotCheck_badSlot hmode hn)),
    fun hn k hk hnone hfirst => hfault (resampleCheck_of_slotCheck (slotCheck_uninitialised hn hk hnone hfirst)),
    fun hstreams => ⟨fun hw => ?_, fun hw hr => ?_, fun hw hr => ⟨?_, ?_, ?_⟩, ?_⟩⟩
  · exact hfault (resampleCheck_of_memoryCheck hstreams (if_pos hw))
  · exact hfault (resampleCheck_of_memoryCheck hstreams (by rw [memoryCheck, if_neg (by omega), if_pos hr]))
  · intro i hi hbad hfirst
    refine hfault (resampleCheck_of_memoryCheck hstreams ?_)
    rw [memoryCheck_of_aligned hw hr, busCheck_eq_some hi hbad hfirst]
    rfl
  · intro hwreach i hi hbad hfirst
    refine hfault (resampleCheck_of_memoryCheck hstreams ?_)
    rw [memoryCheck_of_aligned hw hr, (busCheck_none _ _).2 hwreach, busCheck_eq_some hi hbad hfirst]
    rfl
  · intro hwreach hrreach a haw har hfirst
    refine hfault (resampleCheck_of_memoryCheck hstreams ?_)
    rw [memoryCheck_of_aligned hw hr, (busCheck_none _ _).2 hwreach, (busCheck_none _ _).2 hrreach,
      overlapCheck_eq_some (toNat_pos_of_toInt_pos hops.wstride) haw har hfirst]
    rfl
  · intro hbuffers i hi hbad hfirst
    exact hfault (resampleCheck_badWeight hops hstreams hbuffers hi hbad hfirst)
end

section
/-! PROOFS. Commands in flight on disjoint slots commute (spec/20_memory.md R60): a message decodes to a command that reads and writes no
slot outside its held set (spec/43_stream.md R182). -/

namespace Sys2Proof

/-! ### The fields of a message that decodes (spec/30_encoding.md R71, R81) -/

/-- The command that passes the checks of R81 shows its opcode, slot and operands. -/
theorem decodeOp_fields {c : Config} {op : Opcode} {sub : BitVec 8} {slot : BitVec 32} {ops : List Word} {i : Instr}
    (hlen : ops.length = operandCount c op sub) (hslot : slotFixed op sub = true → slot = 0)
    (h : decodeOp c op sub slot ops = .ok i) : i.opcode = op ∧ i.slotField = slot ∧ i.operands = ops := by
  unfold decodeOp at h
  split at h
  case h_1 =>
    cases hcsr : Csr.ofNumber sub with
    | none => simp [hcsr] at h
    | some csr =>
      obtain rfl : Instr.csrRead csr slot = i := by simpa [hcsr] using h
      exact ⟨rfl, rfl, (List.length_eq_zero_iff.1 hlen).symm⟩
  case h_6 =>
    split at h <;> cases h
    exact ⟨rfl, rfl, (List.length_eq_zero_iff.1 hlen).symm⟩
  case h_10 =>
    split at h <;> cases h
    exact ⟨rfl, rfl, rfl⟩
  case h_14 => split at h <;> cases h <;> exact ⟨rfl, (hslot rfl).symm, rfl⟩
  case h_15 => cases h
  all_goals cases h; simp_all [operandCount, slotFixed, Instr.opcode, Instr.slotField, Instr.operands]

theorem decode_fields {c : Config} {msg : List Word} {i : Instr} (h : decode c msg = .ok i) :
    ∃ cw, msg = cw :: i.operands ∧ Opcode.ofCode (opcOf cw) = some i.opcode ∧ slotFieldOf cw = i.slotField := by
  unfold decode at h
  split at h
  · cases h
  · next cw ops =>
    split at h
    · cases h
    · next op hop =>
      split_ifs at h with hlen hfixed hnative <;>
        simp only [not_or, not_and, not_not] at hlen hfixed <;> obtain ⟨-, -, hslot⟩ := hfixed
      all_goals
        split at h
        · cases h
        · obtain ⟨hopcode, hfield, hops⟩ := decodeOp_fields hlen hslot h
          exact ⟨cw, by rw [hops], by rw [hopcode, hop], hfield.symm⟩

end Sys2Proof

namespace Sys2Proof.Machine

variable {c : Config} {msg : List Word} {i : Instr}

/-! ### The held sets (R182) -/

theorem heldOf_slotCommand {k : Nat} (hdecode : decode c msg = .ok i) (hi : IsSlotCommand i)
    (hk : slotIndex c i.slotField = some k) : heldOf c msg = ⟨k, k + 1⟩ := by
  obtain ⟨cw, rfl, hop, hslot⟩ := decode_fields hdecode
  obtain ⟨hcsr, hall, hres⟩ := hi
  have hk' : slotIndex c (msgSlot (cw :: i.operands)) = some k := by rw [← hk, ← hslot]; rfl
  have hop' : Opcode.ofCode (msgOpc (cw :: i.operands)) = some i.opcode := hop
  unfold heldOf
  rw [hop', hk']
  split <;> simp_all

theorem heldOf_seedAll {value : Word} (hdecode : decode c msg = .ok (.seedAll value)) : heldOf c msg = ⟨0, c.nstreams⟩ := by
  obtain ⟨cw, rfl, hop, -⟩ := decode_fields hdecode
  have hop' : Opcode.ofCode (msgOpc (cw :: (Instr.seedAll value).operands)) = some .seedAll := hop
  rw [heldOf, hop']

/-- A RESAMPLE that runs holds those of its used slots that exist. -/
theorem heldOf_resample {x : (ResampleOps → Instr) × Policy} (hx : x ∈ resamplePolicies) {o : ResampleOps}
    (hc : c.legal = true) (hdecode : decode c msg = .ok (x.1 o)) (hops : operandCheck o = none) (hn : o.n ≠ 0) :
    heldOf c msg = ⟨0, min (usedSlots c o.n.toNat) c.nstreams⟩ := by
  obtain ⟨hopcode, -, hwords, -, -⟩ := resample_laws hx o
  obtain ⟨cw, rfl, hop, -⟩ := decode_fields hdecode
  obtain ⟨-, -, -, -, hbound⟩ := (operandCheck_none o).1 hops
  obtain ⟨-, -, ⟨hpos, -⟩, -⟩ := Config.legal_bounds hc
  have hop' : Opcode.ofCode (msgOpc (cw :: (x.1 o).operands)) = some .resample := hop.trans (congrArg some hopcode)
  have hN : ((cw :: (x.1 o).operands).getD 1 0).toNat = o.n.toNat := by rw [hwords]; rfl
  have hzero : o.n.toNat ≠ 0 := fun h => hn (BitVec.eq_of_toNat_eq h)
  rw [heldOf, hop']
  simp only [hN]
  rw [if_neg (by omega), usedSlots]
  cases c.mode with
  | sequential => exact congrArg (Held.mk 0) (Nat.min_eq_left hpos).symm
  | parallel => rfl

/-! ### Policies read and write no slot but their streams' (R202) -/

/-- A policy's answer with slot `k` of the slots it leaves written. -/
def PolicyResult.setSlot (k : Nat) (regs : Option Slot) : PolicyResult → PolicyResult
  | .ok (rep, slots) => .ok (rep, slots.set k regs)
  | .error f => .error f

theorem push_setSlot (n k : Nat) (regs : Option Slot) (r : PolicyResult) :
    PolicyResult.push n (r.setSlot k regs) = (r.push n).setSlot k regs := by
  cases r <;> rfl

section
variable {d : Draws} {slots : List (Option Slot)} {k : Nat}

theorem u01Draw_set {j : Nat} (hj : j ≠ k) (regs : Option Slot) :
    u01Draw c d j (slots.set k regs) = ((u01Draw c d j slots).1, (u01Draw c d j slots).2.set k regs) := by
  have hget : (slots.set k regs).getD j none = slots.getD j none := by simp [Ne.symm hj]
  unfold u01Draw
  rw [hget]
  cases slots.getD j none with
  | none => rfl
  | some sl => exact congrArg (Prod.mk _) (List.set_comm _ _ (Ne.symm hj))

theorem binomDraw_set {j : Nat} (hj : j ≠ k) (n : Nat) (p : F64) (regs : Option Slot) :
    binomDraw c d j n p (slots.set k regs) = ((binomDraw c d j n p slots).1, (binomDraw c d j n p slots).2.set k regs) := by
  have hget : (slots.set k regs).getD j none = slots.getD j none := by simp [Ne.symm hj]
  unfold binomDraw
  rw [hget]
  cases slots.getD j none with
  | none => rfl
  | some sl => exact congrArg (Prod.mk _) (List.set_comm _ _ (Ne.symm hj))

theorem primitiveFrom_set {S : Nat} {v : List F64} {i : Nat} {accW : F64} {accS : Nat} {drawn : Bool}
    (h : ∀ j, j < i + v.length → streamOf c j ≠ k) (regs : Option Slot) :
    primitiveFrom c d S v i accW accS drawn (slots.set k regs) =
      (primitiveFrom c d S v i accW accS drawn slots).setSlot k regs := by
  induction v generalizing i accW accS drawn slots with
  | nil =>
    simp only [primitiveFrom]
    split <;> rfl
  | cons x xs ih =>
    simp only [List.length_cons] at h
    have hrest : ∀ j, j < i + 1 + xs.length → streamOf c j ≠ k := fun j hj => h j (by omega)
    simp only [primitiveFrom]
    split
    · cases clamp (F64.div x (F64.sub F64.one accW)) with
      | none => rfl
      | some p =>
        simp only [binomDraw_set (h i (by omega)), ih hrest, push_setSlot]
    · rw [ih hrest, push_setSlot]

theorem stratPosFrom_set {K count j : Nat} (h : ∀ j', j' < j + count → streamOf c j' ≠ k) (regs : Option Slot) :
    stratPosFrom c d K count j (slots.set k regs) =
      ((stratPosFrom c d K count j slots).1, (stratPosFrom c d K count j slots).2.set k regs) := by
  induction count generalizing j slots with
  | zero => rfl
  | succ n ih =>
    have hrest : ∀ j', j' < j + 1 + n → streamOf c j' ≠ k := fun j' hj' => h j' (by omega)
    simp only [stratPosFrom, u01Draw_set (h j (by omega)), ih hrest]

theorem scanStratPos_set {K : Nat} (h : ∀ j, j < K → streamOf c j ≠ k) (v : List F64) (regs : Option Slot) :
    scanPolicy (stratPos c d K (slots.set k regs)) v = (scanPolicy (stratPos c d K slots) v).setSlot k regs := by
  rw [stratPos, stratPosFrom_set (by simpa using h)]
  rfl

theorem scanSysPos_set (K : Nat) (h : streamOf c 0 ≠ k) (v : List F64) (regs : Option Slot) :
    scanPolicy (sysPos c d K (slots.set k regs)) v = (scanPolicy (sysPos c d K slots) v).setSlot k regs := by
  rw [sysPos, u01Draw_set h]
  rfl

theorem residualPolicy_set {inner : (S : Nat) → List F64 → List (Option Slot) → PolicyResult} {w : List F64}
    {regs : Option Slot}
    (hinner : ∀ S ws, S ≤ w.length → ws.length = w.length →
      inner S ws (slots.set k regs) = (inner S ws slots).setSlot k regs) :
    residualPolicy inner w (slots.set k regs) = (residualPolicy inner w slots).setSlot k regs := by
  simp only [residualPolicy]
  split_ifs
  · rfl
  · rfl
  · rfl
  · rw [hinner _ _ (Nat.sub_le _ _) (by simp)]
    generalize inner _ _ slots = r
    cases r <;> rfl

end

/-- A policy that reads and writes no slot but those of its particles' streams (R202). -/
def Policy.Confined (policy : Policy) : Prop :=
  ∀ c d w slots k regs, 0 < w.length → (∀ j, j < w.length → streamOf c j ≠ k) →
    policy c d w (slots.set k regs) = (policy c d w slots).setSlot k regs

theorem policies_confined : ∀ x ∈ resamplePolicies, x.2.Confined := by
  simp only [resamplePolicies, List.forall_mem_cons]
  refine ⟨?_, ?_, ?_, ?_, ?_, ?_, by simp⟩ <;> intro c d w slots k regs hpos h
  · exact primitiveFrom_set (by simpa using h) regs
  · exact residualPolicy_set fun S ws _ hlen => primitiveFrom_set (by simpa [hlen] using h) regs
  · exact scanStratPos_set h w regs
  · exact scanSysPos_set _ (h 0 hpos) w regs
  · exact residualPolicy_set fun S ws hS _ => scanStratPos_set (fun j hj => h j (by omega)) ws regs
  · exact residualPolicy_set fun S ws _ _ => scanSysPos_set S (h 0 hpos) ws regs

theorem policies_advance : ∀ x ∈ resamplePolicies, x.2.Advances := by
  simp only [resamplePolicies, List.forall_mem_cons]
  exact ⟨policyMultinomial_advances, policyResidual_advances, policyStratified_advances, policySystematic_advances,
    policyResidualStratified_advances, policyResidualSystematic_advances, by simp⟩

theorem streamOf_lt_usedSlots {N j : Nat} (h : j < N) : streamOf c j < usedSlots c N := by
  unfold streamOf usedSlots
  cases c.mode
  · exact Nat.one_pos
  · exact h

/-! ### Effects leave alone what a command does not hold -/

/-- The effect `F` leaves slot `k` as it is and does not depend on it. -/
structure LeavesSlot (k : Nat) (F : Store → Store) : Prop where
  same : ∀ st, (F st).1.getD k none = st.1.getD k none
  set  : ∀ slots mem regs, F (slots.set k regs, mem) = ((F (slots, mem)).1.set k regs, (F (slots, mem)).2)

/-- An effect that does not depend on a slot and keeps the number of slots leaves that slot: the slot could have been written with
what it holds. -/
theorem leavesSlot_of_set {k : Nat} {F : Store → Store} (hlen : ∀ st, (F st).1.length = st.1.length)
    (hset : ∀ slots mem regs, F (slots.set k regs, mem) = ((F (slots, mem)).1.set k regs, (F (slots, mem)).2)) :
    LeavesSlot k F where
  set := hset
  same st := by
    obtain ⟨slots, mem⟩ := st
    have hself := hset slots mem (slots.getD k none)
    rw [set_getD_self] at hself
    by_cases hk : k < slots.length
    · rw [hself]
      simp [hlen, hk]
    · have hk' : ¬ k < (F (slots, mem)).1.length := by rwa [hlen]
      simp [hk, hk']

theorem slotEffect_leaves {k j : Nat} (hk : slotIndex c i.slotField = some k) (hj : j ≠ k) : LeavesSlot j (slotEffect c i) := by
  refine leavesSlot_of_set (fun st => by simp [slotEffect, hk]) fun slots mem regs => ?_
  have hget : (slots.set j regs).getD k none = slots.getD k none := by simp [hj]
  simp only [slotEffect, hk, hget, List.set_comm _ _ hj]

theorem resampleEffect_leaves {x : (ResampleOps → Instr) × Policy} (hx : x ∈ resamplePolicies) {o : ResampleOps} {k : Nat}
    (hn : o.n ≠ 0) (hk : usedSlots c o.n.toNat ≤ k) : LeavesSlot k (resampleEffect x.2 c o) := by
  have hpos : 0 < o.n.toNat := Nat.pos_of_ne_zero fun h => hn (BitVec.eq_of_toNat_eq h)
  have hstream : ∀ mem j, j < (readWeights mem (weightFoot o)).length → streamOf c j ≠ k := fun mem j hj => by
    have hlt : streamOf c j < usedSlots c o.n.toNat := streamOf_lt_usedSlots (by simpa using hj)
    omega
  refine leavesSlot_of_set (fun st => ?_) fun slots mem regs => ?_
  · unfold resampleEffect
    split
    · split
      · next hok => exact (policies_advance x hx _ _ _ _ _ _ hok).length
      · rfl
    · rfl
  · simp only [resampleEffect]
    rw [policies_confined x hx _ _ _ _ k regs (by simpa using hpos) (hstream mem)]
    split
    · generalize x.2 _ _ _ slots = r
      cases r <;> rfl
    · rfl

/-- A command in flight has no effect, or its effect leaves every slot it does not hold; then it is a slot command, which holds its
slot, or it holds slot 0, as SEED_ALL and RESAMPLE do (R182). -/
theorem effectOf_held (hc : c.legal = true) (hdecode : decode c msg = .ok i) :
    (∀ st, effectOf c i st = st) ∨
    ((∀ k, k < c.nstreams → ¬ (heldOf c msg).Has k → LeavesSlot k (effectOf c i)) ∧
      ((∃ k, k < c.nstreams ∧ IsSlotCommand i ∧ slotIndex c i.slotField = some k ∧ (heldOf c msg).Has k) ∨
        (heldOf c msg).Has 0)) := by
  obtain ⟨-, -, ⟨hstreams, -⟩, -⟩ := Config.legal_bounds hc
  rcases instr_cases i with hi | ⟨csr, slot, rfl⟩ | ⟨value, rfl⟩ | ⟨x, hx, o, rfl⟩
  · rw [effectOf_slotCommand hi]
    cases hk : slotIndex c i.slotField with
    | none => exact .inl fun st => by simp [slotEffect, hk]
    | some k =>
      rw [heldOf_slotCommand hdecode hi hk]
      refine .inr ⟨fun j _ hj => slotEffect_leaves hk ?_, .inl ⟨k, slotIndex_lt hc hk, hi, rfl, le_rfl, Nat.lt_succ_self k⟩⟩
      rintro rfl
      exact hj ⟨le_rfl, Nat.lt_succ_self j⟩
  · exact .inl fun _ => rfl
  · rw [heldOf_seedAll hdecode]
    exact .inr ⟨fun k hk hnot => absurd ⟨Nat.zero_le k, hk⟩ hnot, .inr ⟨le_rfl, hstreams⟩⟩
  · obtain ⟨-, -, -, -, heffect⟩ := resample_laws hx o
    rw [heffect]
    by_cases hrun : operandCheck o = none ∧ o.n ≠ 0
    · obtain ⟨hops, hn⟩ := hrun
      have hpos : 0 < usedSlots c o.n.toNat :=
        (Nat.zero_le _).trans_lt (streamOf_lt_usedSlots (Nat.pos_of_ne_zero fun h => hn (BitVec.eq_of_toNat_eq h)))
      rw [heldOf_resample hx hc hdecode hops hn]
      refine .inr ⟨fun k hk hnot => resampleEffect_leaves hx hn ?_, .inr ⟨le_rfl, by simp only; omega⟩⟩
      by_contra hlt
      exact hnot ⟨Nat.zero_le k, by simp only; omega⟩
    · exact .inl fun st => by rw [resampleEffect, if_neg hrun]

/-- A slot command commutes with an effect that leaves its slot. -/
theorem slotEffect_comm {k : Nat} {F : Store → Store} (hk : slotIndex c i.slotField = some k) (hF : LeavesSlot k F)
    (st : Store) : slotEffect c i (F st) = F (slotEffect c i st) := by
  simp only [slotEffect, hk, hF.set, hF.same]

/-- Two decoded messages with disjoint held sets have effects that commute (R60). -/
theorem effectOf_comm {msg' : List Word} {i' : Instr} (hc : c.legal = true) (hdecode : decode c msg = .ok i)
    (hdecode' : decode c msg' = .ok i') (hdisjoint : (heldOf c msg).shared (heldOf c msg') = none) (st : Store) :
    effectOf c i' (effectOf c i st) = effectOf c i (effectOf c i' st) := by
  have hapart := shared_eq_none.1 hdisjoint
  rcases effectOf_held hc hdecode with hid | ⟨hleaves, ⟨k, hlt, hi, hk, hhas⟩ | hzero⟩
  · rw [hid, hid]
  · have hnot : ¬ (heldOf c msg').Has k := fun h => hapart k ⟨hhas, h⟩
    rw [effectOf_slotCommand hi]
    rcases effectOf_held hc hdecode' with hid' | ⟨hleaves', -⟩
    · rw [hid', hid']
    · exact (slotEffect_comm hk (hleaves' k hlt hnot) st).symm
  · rcases effectOf_held hc hdecode' with hid' | ⟨-, ⟨k, hlt, hi, hk, hhas⟩ | hzero'⟩
    · rw [hid', hid']
    · rw [effectOf_slotCommand hi]
      exact slotEffect_comm hk (hleaves k hlt fun h => hapart k ⟨h, hhas⟩) st
    · exact absurd ⟨hzero, hzero'⟩ (hapart 0)

/-! ### Completion steps without a fault -/

/-- A completion step that ends with no fault recorded performs the decoded command to its end: its effect, and nothing else on slots
and memory (R252). -/
theorem completeStep_running {q : Nat} {s t : State} {r : InFlight} (h : completeStep q s = .next t)
    (hfault : t.statusFault = false) (hr : s.inFlight q = some r) :
    ∃ i, decode s.cfg r.msg = .ok i ∧ t.store = effectOf s.cfg i s.store := by
  have hrun := (UnitFrame.completeStep h).running hfault
  obtain ⟨r', hr', hcases⟩ := completeStep_cases h
  obtain rfl : r = r' := Option.some.inj (hr.symm.trans hr')
  rcases hcases with ⟨i, hdecode, hexec⟩ | ⟨raise, -, rfl⟩
  · refine ⟨i, hdecode, ?_⟩
    rw [exec_eq_perform, perform_running (s := serve q s) hrun] at hexec
    cases hexec
    rcases bodyOf_cases i (serve q s) with ⟨raise, heq⟩ | ⟨x, -, o, f, -, heq⟩ | ⟨data, heq⟩ <;> rw [heq] at hfault ⊢
    · simp at hfault
    · obtain ⟨raise, s', habort, -⟩ := abort_mem o f (serve q s)
      simp [habort] at hfault
    · rfl
  · rcases rejectMessage_cases r.msg raise (serve q s) with ⟨hset, -⟩ | ⟨-, heq⟩
    · exact absurd (hrun.symm.trans hset) Bool.false_ne_true
    · simp [heq] at hfault

theorem inFlight_of_completeStep {q q' : Nat} {s t : State} (h : completeStep q s = .next t) (hne : q ≠ q') :
    t.inFlight q' = s.inFlight q' := by
  simp [State.inFlight, completeStep_inflight h, hne]

end Sys2Proof.Machine

open Sys2Proof Sys2Proof.Machine

/-- Settles O26: both orders compose the effects of the two commands, and these commute. -/
theorem disjointCommandsCommute : Obligations.DisjointCommandsCommute := by
  intro s t1 t12 t2 t21 q1 q2 c1 c2 hlegal _ hne hc1 hc2 hrec1 hrec2 hdisjoint h1 h12 h2 h21 hfault12 hfault21
  rw [hrec1, hrec2] at hdisjoint
  obtain ⟨i1, hdecode1, heff1⟩ := completeStep_running h1 ((UnitFrame.completeStep h12).running hfault12) hc1
  obtain ⟨i2, hdecode2, heff2⟩ := completeStep_running h2 ((UnitFrame.completeStep h21).running hfault21) hc2
  obtain ⟨i2', hdecode2', heff12⟩ := completeStep_running h12 hfault12 ((inFlight_of_completeStep h1 hne).trans hc2)
  obtain ⟨i1', hdecode1', heff21⟩ := completeStep_running h21 hfault21 ((inFlight_of_completeStep h2 hne.symm).trans hc1)
  rw [(UnitFrame.completeStep h1).cfg] at hdecode2' heff12
  rw [(UnitFrame.completeStep h2).cfg] at hdecode1' heff21
  obtain rfl : i2 = i2' := Except.ok.inj (hdecode2.symm.trans hdecode2')
  obtain rfl : i1 = i1' := Except.ok.inj (hdecode1.symm.trans hdecode1')
  have hstore : t12.store = t21.store := by
    rw [heff12, heff21, heff1, heff2]
    exact effectOf_comm hlegal hdecode1 hdecode2 hdisjoint s.store
  exact Prod.mk.inj hstore
end

section
/-! PROOFS. The decoder and the encoder are each other's inverse, and the checks of the decoder come in the order of
spec/30_encoding.md R81. -/

namespace Sys2Proof

/-! ### The decoder by its checks (R81) -/

/-- The message passes items 2 and 3 of R81: its length, RSV, and SUB and SLOT where they are fixed. -/
structure FieldsOk (c : Config) (op : Opcode) (cw : Word) (ops : List Word) : Prop where
  length : ops.length = operandCount c op (subOf cw)
  rsv    : rsvOf cw = 0
  sub    : subFixed op = true → subOf cw = 0
  slot   : slotFixed op (subOf cw) = true → slotFieldOf cw = 0

section
variable {c : Config} {op : Opcode} {cw : Word} {ops : List Word}

theorem decode_of_illegal (hop : Opcode.ofCode (opcOf cw) = none) :
    decode c (cw :: ops) = .error ⟨.illegalOpcode, cw⟩ := by
  simp [decode, hop]

theorem decode_of_length_ne (hop : Opcode.ofCode (opcOf cw) = some op) (hlen : ops.length ≠ operandCount c op (subOf cw)) :
    decode c (cw :: ops) = .error ⟨.badLength, BitVec.ofNat 64 (1 + ops.length)⟩ := by
  simp [decode, hop, hlen, Nat.add_comm]

theorem decode_of_reserved (hop : Opcode.ofCode (opcOf cw) = some op) (hlen : ops.length = operandCount c op (subOf cw))
    (hfixed : rsvOf cw ≠ 0 ∨ (subFixed op = true ∧ subOf cw ≠ 0) ∨
      (slotFixed op (subOf cw) = true ∧ slotFieldOf cw ≠ 0)) :
    decode c (cw :: ops) = .error ⟨.reservedField, cw⟩ := by
  simp only [decode, hop]
  rw [if_neg (not_not.2 hlen), if_pos hfixed]

theorem FieldsOk.not_reserved (hok : FieldsOk c op cw ops) :
    ¬ (rsvOf cw ≠ 0 ∨ (subFixed op = true ∧ subOf cw ≠ 0) ∨
      (slotFixed op (subOf cw) = true ∧ slotFieldOf cw ≠ 0)) := by
  rintro (hrsv | ⟨hfixed, hsub⟩ | ⟨hfixed, hslot⟩)
  · exact hrsv hok.rsv
  · exact hsub (hok.sub hfixed)
  · exact hslot (hok.slot hfixed)

theorem FieldsOk.decode_of_wide (hok : FieldsOk c op cw ops) (hop : Opcode.ofCode (opcOf cw) = some op) {i : Nat}
    (hnative : nativeOperands op = true) (hwide : firstWide c 0 ops = some i) :
    decode c (cw :: ops) = .error ⟨.reservedField, BitVec.ofNat 64 i⟩ := by
  simp only [decode, hop]
  rw [if_neg (not_not.2 hok.length), if_neg hok.not_reserved]
  simp [hnative, hwide]

theorem FieldsOk.decode_eq (hok : FieldsOk c op cw ops) (hop : Opcode.ofCode (opcOf cw) = some op)
    (hnative : nativeOperands op = true → ops.all c.nativeWord = true) :
    decode c (cw :: ops) = decodeOp c op (subOf cw) (slotFieldOf cw) ops := by
  have hnone : (if nativeOperands op then firstWide c 0 ops else none) = none := by
    split
    · next hop' => exact firstWide_eq_none.2 (hnative hop')
    · rfl
  simp only [decode, hop]
  rw [if_neg (not_not.2 hok.length), if_neg hok.not_reserved]
  simp [hnone]

/-- A message that decodes has passed items 1 to 3 of R81, and item 5 gives the command. -/
theorem decode_ok_cases {msg : List Word} {i : Instr} (h : decode c msg = .ok i) :
    ∃ cw ops op, msg = cw :: ops ∧ Opcode.ofCode (opcOf cw) = some op ∧ FieldsOk c op cw ops ∧
      decodeOp c op (subOf cw) (slotFieldOf cw) ops = .ok i := by
  unfold decode at h
  split at h
  · cases h
  · next cw ops =>
    split at h
    · cases h
    · next op hop =>
      split_ifs at h with hlen hfixed hnative <;>
        simp only [not_or, not_and, not_not] at hlen hfixed <;> obtain ⟨hrsv, hsub, hslot⟩ := hfixed
      all_goals
        split at h
        · cases h
        · exact ⟨cw, ops, op, rfl, hop, ⟨hlen, hrsv, hsub, hslot⟩, h⟩

end

/-- The search of item 4 finds the lowest operand with bits above a native word (R81). -/
theorem firstWide_eq_some {c : Config} {ops : List Word} {i : Nat} (k : Nat) (hi : i < ops.length)
    (hwide : 2 ^ c.wc ≤ (ops.getD i 0).toNat) (hbelow : ∀ j, j < i → (ops.getD j 0).toNat < 2 ^ c.wc) :
    firstWide c k ops = some (k + i) := by
  induction ops generalizing i k with
  | nil => cases hi
  | cons v vs ih =>
    cases i with
    | zero =>
      have hv : c.nativeWord v = false := by simpa [Config.nativeWord] using hwide
      simp [firstWide, hv]
    | succ i =>
      have hv : c.nativeWord v = true := by simpa [Config.nativeWord] using hbelow 0 (Nat.succ_pos i)
      have hrest := ih (k + 1) (Nat.lt_of_succ_lt_succ hi) (by simpa using hwide)
        fun j hj => by simpa using hbelow (j + 1) (Nat.succ_lt_succ hj)
      rw [firstWide, if_pos hv, hrest]
      congr 1
      omega

/-! ### What a well-formed command encodes to passes the checks -/

section
variable {c : Config} {i : Instr}

theorem sub_toNat_seedSeq {slot : BitVec 32} {values : List Word} (h : (Instr.seedSeq slot values).wf c = true) :
    (Instr.seedSeq slot values).sub.toNat = values.length ∧ (Instr.seedSeq slot values).sub ≠ 0 := by
  simp only [Instr.wf, Bool.and_eq_true, decide_eq_true_eq] at h
  obtain ⟨hpos, hle⟩ := h
  have hnat : (BitVec.ofNat 8 values.length).toNat = values.length := by
    rw [BitVec.toNat_ofNat]
    omega
  refine ⟨hnat, fun hzero => ?_⟩
  have : (BitVec.ofNat 8 values.length).toNat = 0 := congrArg BitVec.toNat hzero
  omega

theorem operands_length_of_wf (h : i.wf c = true) : i.operands.length = operandCount c i.opcode i.sub := by
  cases i with
  | ctrLoad _ words | keyLoad _ words | transform _ words =>
    simp only [Instr.wf, Bool.and_eq_true, decide_eq_true_eq] at h
    exact h.1
  | seedSeq slot values => exact (sub_toNat_seedSeq h).1.symm
  | _ => rfl

theorem sub_of_subFixed (hfixed : subFixed i.opcode = true) : i.sub = 0 := by
  cases i with
  | csrRead | ctrRead | seedSeq | resampleMultinomial | resampleResidual | resampleStratified | resampleSystematic
  | resampleResidualStratified | resampleResidualSystematic => cases hfixed
  | _ => rfl

theorem slotField_of_slotFixed (h : i.wf c = true) (hfixed : slotFixed i.opcode i.sub = true) : i.slotField = 0 := by
  cases i with
  | csrRead csr slot =>
    have hglobal : csr.perSlot = false := by simpa [slotFixed, Instr.opcode, Instr.sub] using hfixed
    have hslot : slot = 0 := by simpa [Instr.wf, hglobal] using h
    exact hslot
  | seedAll | resampleMultinomial | resampleResidual | resampleStratified | resampleSystematic
  | resampleResidualStratified | resampleResidualSystematic => rfl
  | _ => cases hfixed

theorem operands_native_of_wf (h : i.wf c = true) (hnative : nativeOperands i.opcode = true) :
    i.operands.all c.nativeWord = true := by
  cases i with
  | ctrAdd _ n => simpa [Instr.operands, Instr.wf] using h
  | ctrLoad _ words | keyLoad _ words | transform _ words =>
    rw [Instr.wf, Bool.and_eq_true] at h
    exact h.2
  | _ => cases hnative

/-- Item 5 of R81 gives a well-formed command back from its fields. -/
theorem decodeOp_of_wf (h : i.wf c = true) : decodeOp c i.opcode i.sub i.slotField i.operands = .ok i := by
  cases i with
  | csrRead csr slot => simp [decodeOp, Instr.opcode, Instr.sub, Instr.slotField]
  | ctrRead slot block =>
    have hblock : block.toNat < c.m := of_decide_eq_true h
    simp [decodeOp, Instr.opcode, Instr.sub, Instr.slotField, hblock]
  | seedSeq slot values => exact if_neg (sub_toNat_seedSeq h).2
  | _ => rfl

/-- Item 5 of R81 rejects a policy above 5. -/
theorem decodeOp_of_badPolicy {sub : BitVec 8} {slot : BitVec 32} {ops : List Word}
    (hlen : ops.length = operandCount c .resample sub) (hpolicy : 5 < sub.toNat) :
    decodeOp c .resample sub slot ops = .error ⟨.badPolicy, sub.setWidth 64⟩ := by
  match ops, (hlen : ops.length = 7) with
  | [n, wbase, wstride, nw, rbase, rstride, nrl], _ =>
    simp only [decodeOp]
    split
    case h_7 => rfl
    all_goals omega

/-- The SUB field of the command that item 5 of R81 gives. -/
theorem decodeOp_sub {op : Opcode} {sub : BitVec 8} {slot : BitVec 32} {ops : List Word}
    (hlen : ops.length = operandCount c op sub) (hsub : subFixed op = true → sub = 0)
    (h : decodeOp c op sub slot ops = .ok i) : i.sub = sub := by
  unfold decodeOp at h
  split at h
  case h_1 =>
    split at h <;> cases h
    next hcsr => exact number_of_ofNumber hcsr
  case h_6 => split at h <;> cases h; rfl
  case h_10 =>
    split at h <;> cases h
    simp [Instr.sub, hlen, operandCount]
  case h_14 =>
    split at h <;> cases h
    all_goals next hpolicy => exact BitVec.eq_of_toNat_eq hpolicy.symm
  case h_15 => cases h
  all_goals cases h; exact (hsub rfl).symm

end

end Sys2Proof

open Sys2Proof Sys2Proof.Machine

/-- Settles O1: the fields of the encoding pass the checks of R81, and the fields give the command back. -/
theorem decodeOfEncodeIsTheCommand : Obligations.DecodeOfEncodeIsTheCommand := by
  intro c i hwf
  obtain ⟨cw, hencode, hopc, hsub, hrsv, hslot⟩ := Laws.EncodedFields.of_makeCw i
  have hok : FieldsOk c i.opcode cw i.operands :=
    { length := by rw [hsub]; exact operands_length_of_wf hwf
      rsv := hrsv
      sub := fun hfixed => hsub.trans (sub_of_subFixed hfixed)
      slot := fun hfixed => hslot.trans (slotField_of_slotFixed hwf (by rwa [← hsub])) }
  rw [hencode, hok.decode_eq (by rw [hopc, ofCode_code]) (operands_native_of_wf hwf), hsub, hslot]
  exact decodeOp_of_wf hwf

/-- Settles O2: the command shows every field of the message, and RSV is 0. -/
theorem encodeOfDecodeIsTheMessage : Obligations.EncodeOfDecodeIsTheMessage := by
  intro c msg i h
  refine ⟨decode_wf h, ?_⟩
  obtain ⟨cw, ops, op, rfl, hop, hok, hi⟩ := decode_ok_cases h
  obtain ⟨hopcode, hslot, hoperands⟩ := decodeOp_fields hok.length hok.slot hi
  have hsub := decodeOp_sub hok.length hok.sub hi
  rw [encode, hopcode, hsub, hslot, hoperands, code_of_ofCode hop, makeCw_fields cw hok.rsv]

/-- Settles O4: each clause is one check of the decoder, under the ones before it. -/
theorem decodingChecksRunInOrder : Obligations.DecodingChecksRunInOrder := by
  intro c cw ops
  refine ⟨rfl, decode_of_illegal, fun op hop => ⟨decode_of_length_ne hop, fun hlen =>
    ⟨decode_of_reserved hop hlen, fun hrsv hsub hslot => ?_⟩⟩⟩
  have hok : FieldsOk c op cw ops := ⟨hlen, hrsv, hsub, hslot⟩
  have hdecode (hnot : nativeOperands op = false) := hok.decode_eq hop fun hnative => by simp [hnot] at hnative
  refine ⟨fun i hnative hi hwide hbelow => ?_, ?_, ?_, ?_, ?_⟩
  · exact hok.decode_of_wide hop hnative (by simpa using firstWide_eq_some 0 hi hwide hbelow)
  · rintro rfl hpolicy
    rw [hdecode rfl]
    exact decodeOp_of_badPolicy hlen hpolicy
  · rintro rfl hzero
    rw [hdecode rfl]
    exact if_pos hzero
  · rintro rfl hcsr
    rw [hdecode rfl]
    simp [decodeOp, hcsr]
  · rintro rfl hblock
    rw [hdecode rfl]
    exact if_neg (Nat.not_lt.2 hblock)

/-- Settles O3: the decoder evaluates each of the six messages to its command. -/
theorem writtenOutWordsDecode : Obligations.WrittenOutWordsDecode :=
  ⟨rfl, rfl, rfl, rfl, rfl, rfl⟩
end

section
/-! PROOFS. Every command ends in a response (spec/30_encoding.md R76, spec/60_exceptions.md R241, R244, R252). -/

namespace Sys2Proof.Machine

theorem framed_withStore (s : State) (st : Store) : Framed s (s.withStore st) :=
  ⟨rfl, rfl, rfl, rfl, rfl, rfl, rfl, rfl⟩

theorem framed_refuse (opc : BitVec 8) (s : State) : Framed s (refuse opc s) :=
  ⟨rfl, rfl, rfl, rfl, rfl, rfl, rfl, rfl⟩

/-- A fault in the fault state keeps the first fault's record (R241). -/
theorem framed_takeFault (opc : BitVec 8) (slot : BitVec 32) (r : Raise) {s : State} (h : s.statusFault = true) :
    Framed s (takeFault opc slot r s) := by
  constructor <;> simp [h]

/-- What an abort leaves as it was: all but slots, memory and the count of free values (R235). -/
theorem abort_raised (o : ResampleOps) (f : PolicyFault) (s : State) :
    ∃ r s', abort o f s = .raised r s' ∧ s'.cfg = s.cfg ∧ s'.inputs = s.inputs ∧ s'.outputs = s.outputs ∧
      s'.serving = s.serving ∧ s'.statusFault = s.statusFault := by
  obtain ⟨hcfg, hfault, -, -, -, -, hinputs, houtputs, hserving⟩ := abortedState_frame o f s
  unfold abort
  split <;> exact ⟨_, _, rfl, hcfg, hinputs, houtputs, hserving, hfault⟩

/-- What performing a command comes to: the refusal, the command's effect on slots and memory, a precise fault, or the fault of a
RESAMPLE whose policy aborts (R235, R241, R244, R252). -/
theorem exec_cases (i : Instr) (s : State) :
    (s.statusFault = true ∧ exec i s = .next (refuse i.opcode.code s)) ∨
    (∃ st data, exec i s = .next (respond 0 i.opcode.code data (s.withStore st))) ∨
    (∃ r, exec i s = .next (takeFault i.opcode.code i.slotField r s)) ∨
    (s.statusFault = false ∧ ∃ o f, exec i s = .next ((abort o f s).finish i)) := by
  rw [exec_eq_perform, perform_eq]
  split
  · next hrefused => exact .inl ⟨hrefused.1, rfl⟩
  · next hperformed =>
    refine .inr ?_
    rcases bodyOf_cases i s with ⟨r, heq⟩ | ⟨x, hx, o, f, rfl, heq⟩ | ⟨data, heq⟩ <;> rw [heq]
    · exact .inr (.inl ⟨r, rfl⟩)
    · obtain ⟨hopcode, -⟩ := resample_laws hx o
      refine .inr (.inr ⟨?_, o, f, rfl⟩)
      simpa [hopcode] using hperformed
    · exact .inl ⟨_, data, rfl⟩

end Sys2Proof.Machine

open Sys2Proof Sys2Proof.Machine

/-- Settles O21: one case for each way a command can end. -/
theorem everyCommandIsAnswered : Obligations.EveryCommandIsAnswered := by
  intro i s
  rcases exec_cases i s with ⟨hfault, hexec⟩ | ⟨st, data, hexec⟩ | ⟨r, hexec⟩ | ⟨hrun, o, f, hexec⟩ <;>
    refine ⟨_, hexec, exec_inflight hexec, ?_⟩
  · exact ⟨rfl, rfl, rfl, .inr (.inr ⟨hfault, framed_refuse _ s, .refused, rfl⟩)⟩
  · exact ⟨rfl, rfl, rfl, .inl ⟨data, completed_respond i data rfl rfl (framed_withStore s st)⟩⟩
  · refine ⟨by simp, by simp, by simp, .inr ?_⟩
    cases hfault : s.statusFault with
    | false => exact .inl ⟨rfl, by simp [hfault]⟩
    | true => exact .inr ⟨rfl, framed_takeFault _ _ r hfault, r.cause, by simp⟩
  · obtain ⟨r, s', heq, hcfg, hinputs, houtputs, hserving, hstatus⟩ := abort_raised o f s
    rw [heq, finish_raised]
    exact ⟨by simpa, by simpa, by simpa, .inr (.inl ⟨hrun, by simp [hstatus, hrun, houtputs, hserving]⟩)⟩
end

section
/-! PROOFS. The increments of a counter block word by word, and `Blocks(a)` (spec/41_counter.md R100-R106). -/

namespace Sys2Proof

/-! ### Adding within the low bits of a number -/

/-- `v` with `k` added to its low `bits` bits; a carry out of them is discarded (R103). -/
def addLow (bits v k : Nat) : Nat := v / 2 ^ bits * 2 ^ bits + (v % 2 ^ bits + k) % 2 ^ bits

theorem addLow_zero (bits v : Nat) : addLow bits v 0 = v := by
  rw [addLow, Nat.add_zero, Nat.mod_mod, Nat.div_add_mod']

theorem addLow_of_lt {bits v : Nat} (h : v < 2 ^ bits) (k : Nat) : addLow bits v k = (v + k) % 2 ^ bits := by
  rw [addLow, Nat.div_eq_of_lt h, Nat.mod_eq_of_lt h, Nat.zero_mul, Nat.zero_add]

/-- Bits above the low ones stay as they are. -/
theorem addLow_mul_add {bits a : Nat} (h : a < 2 ^ bits) (b k : Nat) :
    addLow bits (b * 2 ^ bits + a) k = b * 2 ^ bits + (a + k) % 2 ^ bits := by
  rw [addLow, Nat.mul_add_mod', Nat.mod_eq_of_lt h, Nat.mul_comm b, Nat.mul_add_div (by positivity),
    Nat.div_eq_of_lt h, Nat.add_zero, Nat.mul_comm b]

/-- Bits from `word` on are above the low ones and stay as they are. -/
theorem addLow_add_mul {bits word : Nat} (h : bits ≤ word) (x q k : Nat) :
    addLow bits (x + 2 ^ word * q) k = addLow bits x k + 2 ^ word * q := by
  obtain ⟨above, rfl⟩ := Nat.exists_eq_add_of_le h
  rw [pow_add, Nat.mul_assoc, addLow, addLow, Nat.add_mul_mod_self_left, Nat.add_mul_div_left _ _ (by positivity)]
  ring

/-- The sum stays within the word that holds the low bits. -/
theorem addLow_lt {bits word x : Nat} (h : bits ≤ word) (hx : x < 2 ^ word) (k : Nat) : addLow bits x k < 2 ^ word := by
  obtain ⟨above, rfl⟩ := Nat.exists_eq_add_of_le h
  have hlow : (x % 2 ^ bits + k) % 2 ^ bits < 2 ^ bits := Nat.mod_lt _ (by positivity)
  have hhigh : x / 2 ^ bits < 2 ^ above := Nat.div_lt_of_lt_mul (by rwa [← pow_add])
  calc addLow bits x k < x / 2 ^ bits * 2 ^ bits + 2 ^ bits := Nat.add_lt_add_left hlow _
    _ = (x / 2 ^ bits + 1) * 2 ^ bits := by ring
    _ ≤ 2 ^ above * 2 ^ bits := Nat.mul_le_mul_right _ hhigh
    _ = 2 ^ (bits + above) := by rw [← pow_add, Nat.add_comm]

/-- The lowest word takes the sum, and its carry goes into the words above it (R104, R105). -/
theorem addLow_word (word bits v k : Nat) : addLow (word + bits) v k =
    (v % 2 ^ word + k) % 2 ^ word + 2 ^ word * addLow bits (v / 2 ^ word) ((v % 2 ^ word + k) / 2 ^ word) := by
  have hlow : v % (2 ^ word * 2 ^ bits) + k =
      (v % 2 ^ word + k) + 2 ^ word * (v / 2 ^ word % 2 ^ bits) := by rw [Nat.mod_mul]; omega
  rw [addLow, addLow, pow_add, hlow, Nat.mod_mul, Nat.add_mul_mod_self_left,
    Nat.add_mul_div_left _ _ (by positivity), ← Nat.div_div_eq_div_mul, Nat.add_comm _ (v / 2 ^ word % 2 ^ bits)]
  ring

/-! ### The words of a value -/

/-- `words_n(v)` for any number of words of any width (R102). -/
def wordsOf (bits n v : Nat) : List Word := (List.range n).map fun j => BitVec.ofNat 64 (v / 2 ^ (bits * j) % 2 ^ bits)

theorem Config.ctrWords_eq_wordsOf (c : Config) (v : Nat) : c.ctrWords v = wordsOf c.wc c.w v := rfl

theorem wordsOf_succ (bits n v : Nat) :
    wordsOf bits (n + 1) v = BitVec.ofNat 64 (v % 2 ^ bits) :: wordsOf bits n (v / 2 ^ bits) := by
  simp only [wordsOf, List.range_succ_eq_map, List.map_cons, List.map_map, Function.comp_def, Nat.mul_zero, pow_zero,
    Nat.div_one, Nat.mul_succ, Nat.add_comm _ bits, pow_add, Nat.div_div_eq_div_mul]

/-- A word below `2^bits` in front of the words of a value. -/
theorem wordsOf_add_mul {bits x : Nat} (h : x < 2 ^ bits) (n v : Nat) :
    wordsOf bits (n + 1) (x + 2 ^ bits * v) = BitVec.ofNat 64 x :: wordsOf bits n v := by
  rw [wordsOf_succ, Nat.add_mul_mod_self_left, Nat.mod_eq_of_lt h, Nat.add_mul_div_left _ _ (by positivity),
    Nat.div_eq_of_lt h, Nat.zero_add]

namespace Config

/-- The bits of a block's last word that are part of the arithmetic (R101). -/
def lastBits (c : Config) : Nat := if c.part then c.wc - 8 else c.wc

theorem lastBits_le (c : Config) : c.lastBits ≤ c.wc := by
  unfold lastBits
  split <;> omega

theorem arithBits_eq (c : Config) : c.arithBits = c.wc * (c.w - 1) + c.lastBits := by
  have hw := c.w_cases
  have hwc := c.wc_cases
  unfold arithBits lastBits blockBits
  rcases hw with hw | hw <;> rw [hw] <;> split <;> omega

/-- A native word comes back from its 64-bit form (R74, R100). -/
theorem toNat_ofNat_native (c : Config) {x : Nat} (h : x < 2 ^ c.wc) : (BitVec.ofNat 64 x).toNat = x :=
  Machine.toNat_ofNat_of_lt (h.trans_le (Nat.pow_le_pow_right (by decide) c.wc_le))

end Config

namespace Machine

variable {c : Config}

/-! ### Increments word by word (R104, R105) -/

/-- On the last word the increment stops below the field (R104). -/
theorem incWords_singleton {x : Word} (h : x.toNat < 2 ^ c.wc) :
    incWords c [x] = [BitVec.ofNat 64 (addLow c.lastBits x.toNat 1)] := by
  cases hp : c.part
  · simp [incWords, Config.lastBits, hp, addLow_of_lt h]
  · simp [incWords, Config.lastBits, hp, addLow]

/-- Before the last word the increment by one is the increment by the word 1. -/
theorem incWords_cons_cons {x : Word} (h : x.toNat < 2 ^ c.wc) (y : Word) (rest : List Word) :
    incWords c (x :: y :: rest) = addWords c 1 (x :: y :: rest) := by
  by_cases hcarry : x.toNat + 1 < 2 ^ c.wc
  · simp [incWords, addWords, hcarry, Nat.mod_eq_of_lt hcarry]
  · have hwrap : x.toNat + 1 = 2 ^ c.wc := by omega
    simp [incWords, addWords, hwrap]

/-- Word 0 takes `k` and the words above it the carry, given what the increment does to those (R105). -/
theorem addWords_wordsOf {n bits k : Nat} (hk : k < 2 ^ c.wc)
    (hinc : ∀ v, incWords c (wordsOf c.wc n v) = wordsOf c.wc n (addLow bits v 1)) (v : Nat) :
    addWords c k (wordsOf c.wc (n + 1) v) = wordsOf c.wc (n + 1) (addLow (c.wc + bits) v k) := by
  have hx : v % 2 ^ c.wc < 2 ^ c.wc := Nat.mod_lt _ (by positivity)
  rw [addLow_word, wordsOf_add_mul (Nat.mod_lt _ (by positivity)), wordsOf_succ, addWords, c.toNat_ofNat_native hx]
  split
  · next hfits => rw [Nat.div_eq_of_lt hfits, addLow_zero]
  · next hcarry =>
    have hone : (v % 2 ^ c.wc + k) / 2 ^ c.wc = 1 := Nat.div_eq_of_lt_le (by omega) (by omega)
    rw [hone, hinc]

/-- The increment is an addition of 1 to the bits below the last word's field (R104). -/
theorem incWords_wordsOf (c : Config) (n v : Nat) :
    incWords c (wordsOf c.wc (n + 1) v) = wordsOf c.wc (n + 1) (addLow (c.wc * n + c.lastBits) v 1) := by
  have hx : ∀ v, v % 2 ^ c.wc < 2 ^ c.wc := fun v => Nat.mod_lt _ (by positivity)
  induction n generalizing v with
  | zero =>
    have hlast := addLow_add_mul c.lastBits_le (v % 2 ^ c.wc) (v / 2 ^ c.wc) 1
    rw [Nat.mod_add_div] at hlast
    rw [Nat.mul_zero, Nat.zero_add c.lastBits, hlast, wordsOf_add_mul (addLow_lt c.lastBits_le (hx v) 1), wordsOf_succ]
    have hword := c.toNat_ofNat_native (hx v)
    exact (incWords_singleton (hword.trans_lt (hx v))).trans (by rw [hword]; rfl)
  | succ n ih =>
    have hone : 1 < 2 ^ c.wc := Nat.one_lt_two_pow (by have := c.wc_cases; omega)
    have hbits : c.wc * (n + 1) + c.lastBits = c.wc + (c.wc * n + c.lastBits) := by ring
    rw [hbits, ← addWords_wordsOf hone ih, wordsOf_succ, wordsOf_succ]
    exact incWords_cons_cons ((c.toNat_ofNat_native (hx v)).trans_lt (hx v)) _ _

/-- Both increments of one block (R104, R105), a block having at least two words. -/
theorem increments_ctrWords (c : Config) (v : Nat) :
    incWords c (c.ctrWords v) = c.ctrWords (addLow c.arithBits v 1) ∧
      ∀ k, k < 2 ^ c.wc → addWords c k (c.ctrWords v) = c.ctrWords (addLow c.arithBits v k) := by
  obtain ⟨n, hn⟩ : ∃ n, c.w = n + 2 := Nat.exists_eq_add_of_le' (by have := c.w_cases; omega)
  have hbits : c.arithBits = c.wc * (n + 1) + c.lastBits := by rw [c.arithBits_eq, hn]; rfl
  have hword : c.wc * (n + 1) + c.lastBits = c.wc + (c.wc * n + c.lastBits) := by ring
  simp only [Config.ctrWords_eq_wordsOf, hn, hbits]
  refine ⟨incWords_wordsOf c (n + 1) v, fun k hk => ?_⟩
  exact hword ▸ addWords_wordsOf hk (incWords_wordsOf c n) v

end Machine

namespace Config

variable {c : Config}

/-- With M = 1 block 0 is the only one, so one form covers both cases of R102. -/
theorem blocks_eq_range_map (h : c.legal = true) (a : Nat) :
    c.blocks a = (List.range c.m).map fun b => c.ctrWords (b * 2 ^ c.arithBits + a) := by
  cases hp : c.part
  · obtain ⟨-, ⟨hm, -⟩, -⟩ := legal_bounds h
    have hone : c.m = 1 := by have := part_false_iff.1 hp; omega
    simp [blocks_of_not_part hp, hone]
  · exact blocks_of_part hp a

/-- What adds `k` within the arithmetic part of every value adds `k` to the counter (R103). -/
theorem blocks_map_of_addLow (h : c.legal = true) {a k : Nat} (ha : a < 2 ^ c.arithBits) {f : List Word → List Word}
    (hf : ∀ v, f (c.ctrWords v) = c.ctrWords (addLow c.arithBits v k)) :
    (c.blocks a).map f = c.blocks (c.counterAdd a k) := by
  rw [blocks_eq_range_map h, blocks_eq_range_map h, List.map_map]
  refine List.map_congr_left fun b _ => ?_
  rw [Function.comp_apply, hf, addLow_mul_add ha, counterAdd]

/-- Different blocks differ in their fields (R106). -/
theorem blocks_ne (h : c.legal = true) {a b b' : Nat} (ha : a < 2 ^ c.arithBits) (hb : b < c.m) (hb' : b' < c.m)
    (hne : b' ≠ b) : (c.blocks a).getD b' [] ≠ (c.blocks a).getD b [] := by
  obtain ⟨-, ⟨-, hm⟩, -⟩ := legal_bounds h
  have hp : c.part = true := decide_eq_true (by omega)
  intro heq
  have hfield := congrArg c.field heq
  rw [field_blocks hp hm ha hb', field_blocks hp hm ha hb] at hfield
  exact hne hfield

end Config

end Sys2Proof

open Sys2Proof Sys2Proof.Machine

/-- Settles O35: every block is the words of its field and the arithmetic part. -/
theorem blocksShareTheArithmeticPartAndDiffer : Obligations.BlocksShareTheArithmeticPartAndDiffer := by
  intro c a hlegal ha
  obtain ⟨-, ⟨-, hm⟩, -⟩ := Config.legal_bounds hlegal
  refine ⟨Config.blocks_length hlegal a, fun b hb => ?_⟩
  obtain ⟨hlength, hnative⟩ : c.BlockShaped ((c.blocks a).getD b []) := Config.blocks_getD hb ▸ c.ctrWords_shaped _
  refine ⟨hlength, hnative, ?_, fun hp => Config.field_blocks hp hm ha hb,
    fun b' hb' hne => Config.blocks_ne hlegal ha hb hb' hne⟩
  rw [Config.arith_blocks hb, Nat.mod_eq_of_lt ha]

/-- Settles O36, by induction on the words of a block: the carry out of word 0 is the increment of the words above it. -/
theorem wordByWordIncrementsAreCounterAdd : Obligations.WordByWordIncrementsAreCounterAdd := by
  intro c a hlegal ha
  exact ⟨Config.blocks_map_of_addLow hlegal ha fun v => (increments_ctrWords c v).1,
    fun n hn => Config.blocks_map_of_addLow hlegal ha fun v => (increments_ctrWords c v).2 n hn⟩
end

section
/-! PROOFS. The counter commands: what a slot command of a running unit answers is its whole effect (spec/41_counter.md R110-R114). -/

namespace Sys2Proof.Machine

variable {i : Instr} {s : State} {k : Nat}

/-- A slot command that writes its slot (R76, R252). -/
theorem exec_slotCommand_writes (hi : IsSlotCommand i) (hrun : s.statusFault = false)
    (hk : slotIndex s.cfg i.slotField = some k) (hlt : k < s.slots.length) {sl : Slot} {data : List Word}
    (hans : slotAnswer s.cfg k (s.slot k) i = .ok (some sl, data)) :
    ∃ t, exec i s = .next t ∧ Completed i data s t ∧ MemorySame s t ∧ SlotWritten k sl s t :=
  ⟨respond 0 i.opcode.code data (s.setSlot k sl), by rw [exec_slotCommand hi hrun hk, hans]; rfl,
    completed_respond i data rfl rfl ⟨rfl, rfl, rfl, rfl, rfl, rfl, rfl, rfl⟩, fun _ => rfl,
    slot_setSlot_same s k sl hlt, fun j hj => slot_setSlot_ne s k j sl hj⟩

/-- A slot command that only answers (R76, R252). -/
theorem exec_slotCommand_reads (hi : IsSlotCommand i) (hrun : s.statusFault = false)
    (hk : slotIndex s.cfg i.slotField = some k) {data : List Word}
    (hans : slotAnswer s.cfg k (s.slot k) i = .ok (none, data)) :
    ∃ t, exec i s = .next t ∧ Completed i data s t ∧ SlotsSame s t ∧ MemorySame s t :=
  ⟨_, by rw [exec_slotCommand hi hrun hk, hans]; rfl,
    completed_respond i data rfl rfl ⟨rfl, rfl, rfl, rfl, rfl, rfl, rfl, rfl⟩, fun _ => rfl, fun _ => rfl⟩

/-- A command of a running unit whose body raises a cause on the state before it is the first fault (R241). -/
theorem exec_of_raised (hrun : s.statusFault = false) {r : Raise} (hbody : bodyOf i s = .raised r s) :
    ∃ t, exec i s = .next t ∧ Faulted i.opcode.code i.slotField r s t :=
  ⟨_, by rw [exec_eq_perform, perform_running hrun, hbody, finish_raised], faulted_takeFault _ _ r hrun⟩

theorem addCtr_eq (c : Config) (ctr : List (List Word)) (n : Nat) :
    c.addCtr ctr n = c.blocks ((c.arith (ctr.getD 0 []) + n) % 2 ^ c.arithBits) := by
  rw [Config.addCtr, Config.counterAdd, List.headD_eq_getD]

/-- Nothing stands where the field does unless the field is reserved and the value reaches beyond the arithmetic part (R113). -/
theorem loadedField_eq_zero {c : Config} {v : Nat} (h : ¬ (c.part = true ∧ 2 ^ c.arithBits ≤ v)) : loadedField c v = 0 := by
  cases hp : c.part
  · simp [loadedField, hp]
  · rw [loadedField, if_pos hp]
    exact Nat.div_eq_of_lt (not_le.1 fun hle => h ⟨hp, hle⟩)

/-- The field bits of a value that reaches beyond the arithmetic part (R113). -/
theorem loadedField_of_le {c : Config} {v : Nat} (hp : c.part = true) (h : 2 ^ c.arithBits ≤ v) :
    loadedField c v = v / 2 ^ c.arithBits ∧ loadedField c v ≠ 0 := by
  rw [loadedField, if_pos hp]
  exact ⟨rfl, (Nat.div_pos h (by positivity)).ne'⟩

end Sys2Proof.Machine

open Sys2Proof Sys2Proof.Machine

/-- Settles O31, by the answer of CTR_ZERO. -/
theorem ctrZeroZeroesTheCounter : Obligations.CtrZeroZeroesTheCounter := by
  intro s slot k sl hrun hk hsl
  exact exec_slotCommand_writes (i := .ctrZero slot) ⟨nofun, nofun, nofun⟩ hrun hk (slot_lt s hsl) (by rw [hsl]; rfl)

/-- Settles O32, by the answers of the two commands. -/
theorem ctrIncAndCtrAddAddToTheCounter : Obligations.CtrIncAndCtrAddAddToTheCounter := by
  intro s slot n k sl hrun hk hsl
  simp only [← addCtr_eq]
  constructor
  · exact exec_slotCommand_writes (i := .ctrInc slot) ⟨nofun, nofun, nofun⟩ hrun hk (slot_lt s hsl) (by rw [hsl]; rfl)
  · exact exec_slotCommand_writes (i := .ctrAdd slot n) ⟨nofun, nofun, nofun⟩ hrun hk (slot_lt s hsl) (by rw [hsl]; rfl)

/-- Settles O33: the answer of CTR_LOAD turns on the bits where the field stands. -/
theorem ctrLoadSetsTheCounter : Obligations.CtrLoadSetsTheCounter := by
  intro s slot words k sl hrun hk hsl
  have hi : IsSlotCommand (.ctrLoad slot words) := ⟨nofun, nofun, nofun⟩
  constructor
  · intro hfits
    refine exec_slotCommand_writes hi hrun hk (slot_lt s hsl) ?_
    rw [hsl]
    exact if_neg (not_not.2 (loadedField_eq_zero hfits))
  · intro hp hreaches
    obtain ⟨hvalue, hne⟩ := loadedField_of_le hp hreaches
    refine exec_of_raised (i := .ctrLoad slot words) hrun ?_
    rw [bodyOf_eq_slotAnswer hi hk, hsl, ← hvalue]
    exact congrArg (SlotAnswer.apply k s) (if_pos hne)

/-- Settles O34: the check of the block number comes first, and the answer writes no slot. -/
theorem ctrReadAnswersTheBlock : Obligations.CtrReadAnswersTheBlock := by
  intro s slot b hrun
  constructor
  · intro k sl hb hk hsl
    refine exec_slotCommand_reads (i := .ctrRead slot b) ⟨nofun, nofun, nofun⟩ hrun hk ?_
    rw [hsl]
    exact if_neg (not_le.2 hb)
  · intro hb
    exact exec_of_raised (i := .ctrRead slot b) hrun (if_pos hb)
end

section
/-! PROOFS. TRANSFORM, and the S-box by the inverses of GF(2^8) (spec/42_engine.md R131, R142, R143). -/

namespace Sys2Proof.Machine

/-- The product of `count` successive squarings of `a`, from `a` itself on: `a ^ (2 ^ count - 1)`. -/
def gfSquaresProduct : (count : Nat) → (a : Byte) → Byte
  | 0, _ => 1
  | count + 1, a => gfMul a (gfSquaresProduct count (gfMul a a))

/-- The inverse in GF(2^8) as `a ^ 254`, since the 255 units form a group; `0 ^ 254 = 0` is the inverse R143 gives to 0. -/
def gfInv (a : Byte) : Byte := gfSquaresProduct 7 (gfMul a a)

theorem gfMulFrom_zero_left (count i : Nat) (b : Byte) : gfMulFrom count i 0 b = 0 := by
  induction count generalizing i with
  | zero => rfl
  | succ count ih =>
    have hxtime : Aes.xtime 0 = 0 := by decide
    rw [gfMulFrom, hxtime, ih, ite_self]
    exact BitVec.xor_self

theorem gfMul_zero_left (b : Byte) : gfMul 0 b = 0 := gfMulFrom_zero_left 8 0 b

theorem gfInv_zero : gfInv 0 = 0 := by
  rw [gfInv, gfMul_zero_left]
  exact gfMul_zero_left _

/-- `gfInv` gives inverses for the multiplication of R142, checked for each of the 255 units. -/
theorem gfMul_gfInv : ∀ a : Byte, a ≠ 0 → gfMul a (gfInv a) = 1 := by decide +kernel

/-- The table of R143 against its definition, checked for each of its 256 entries. -/
theorem sbox_eq_sboxAffine_gfInv : ∀ a : Byte, Aes.sbox a = sboxAffine (gfInv a) := by decide +kernel

end Sys2Proof.Machine

open Sys2Proof Sys2Proof.Machine

/-- Settles O39: the answer of TRANSFORM at a valid slot writes no slot. -/
theorem transformAnswersTheEngine : Obligations.TransformAnswersTheEngine := by
  intro s slot block k sl hrun hk hsl
  exact exec_slotCommand_reads (i := .transform slot block) ⟨nofun, nofun, nofun⟩ hrun hk (by rw [hsl]; rfl)

/-- Settles O41: the inverse is the power 254, and the entries of the table are the affine map of it. -/
theorem sboxIsAffineOfInverse : Obligations.SboxIsAffineOfInverse := by
  intro a
  refine ⟨gfInv a, ?_, gfMul_gfInv a, sbox_eq_sboxAffine_gfInv a⟩
  rintro rfl
  exact gfInv_zero
end

section
/-! PROOFS. The adapter's commands: what constructs a slot, and the words NEXT answers (spec/43_stream.md R170-R175, R181, R186). -/

namespace Sys2Proof.Machine

variable {c : Config} {sl : Slot}

/-! ### The slot after NEXT (R174) -/

theorem readySlot_of_ne (h : sl.cur ≠ c.bufLen) : readySlot c sl = sl := if_neg h

theorem readySlot_of_eq (h : sl.cur = c.bufLen) : readySlot c sl = { refill c 1 sl with cur := 0 } := if_pos h

theorem nextSlot_of_ne (h : sl.cur ≠ c.bufLen) : nextSlot c sl = { sl with cur := sl.cur + 1 } := by
  rw [nextSlot, readySlot_of_ne h]

theorem nextSlot_of_eq (h : sl.cur = c.bufLen) : nextSlot c sl = { refill c 1 sl with cur := 1 } := by
  rw [nextSlot, readySlot_of_eq h]

theorem nextWord_of_ne (h : sl.cur ≠ c.bufLen) : nextWord c sl = sl.buf.getD sl.cur 0 := by
  rw [nextWord, readySlot_of_ne h]

theorem nextWord_of_eq (h : sl.cur = c.bufLen) : nextWord c sl = (fill c sl.key (c.addCtr sl.ctr 1)).getD 0 0 := by
  rw [nextWord, readySlot_of_eq h]
  rfl

/-- A buffer of result words holds nothing above MAX, and beyond its end reads 0 (R37, R186). -/
theorem getD_lt_of_forall_mem {bound : Nat} {l : List Word} (hbound : 0 < bound) (h : ∀ v ∈ l, v.toNat < bound) (n : Nat) :
    (l.getD n 0).toNat < bound := by
  by_cases hn : n < l.length
  · rw [List.getD_eq_getElem _ _ hn]
    exact h _ (List.getElem_mem hn)
  · rw [List.getD_eq_default _ _ (not_lt.1 hn)]
    exact hbound

/-- The result word has WR bits, from the buffer as it stands or from a new one (R174, R186). -/
theorem nextWord_lt (hbuf : ∀ v ∈ sl.buf, v.toNat < 2 ^ c.wrBits) : (nextWord c sl).toNat < 2 ^ c.wrBits := by
  by_cases hcur : sl.cur = c.bufLen
  · rw [nextWord_of_eq hcur]
    exact getD_lt_of_forall_mem (by positivity) fill_lt 0
  · rw [nextWord_of_ne hcur]
    exact getD_lt_of_forall_mem (by positivity) hbuf sl.cur

/-- NEXT on a valid slot of a running unit (R174, R180). -/
theorem exec_next_valid {s : State} {slot : BitVec 32} {k : Nat} (hrun : s.statusFault = false)
    (hk : slotIndex s.cfg slot = some k) (hsl : s.slot k = some sl) :
    ∃ t, exec (.next slot) s = .next t ∧ Completed (.next slot) [nextWord s.cfg sl] s t ∧ MemorySame s t ∧
      SlotWritten k (nextSlot s.cfg sl) s t :=
  exec_slotCommand_writes (i := .next slot) ⟨nofun, nofun, nofun⟩ hrun hk (slot_lt s hsl) (by rw [hsl]; rfl)

/-! ### Constructing slots (R170, R181) -/

/-- A slot command that answers a constructed slot, whatever the slot held (R170). -/
theorem exec_constructs {i : Instr} {s : State} {k : Nat} {key : List Word} (hi : IsSlotCommand i)
    (hrun : s.statusFault = false) (hk : slotIndex s.cfg i.slotField = some k) (hlt : k < s.slots.length)
    (hans : slotAnswer s.cfg k (s.slot k) i = .ok (some (constructed s.cfg key), [])) :
    ∃ t sl, exec i s = .next t ∧ Completed i [] s t ∧ MemorySame s t ∧ SlotWritten k sl s t ∧
      sl.key = key ∧ sl.ctr = s.cfg.blocks 0 ∧ sl.cur = s.cfg.bufLen := by
  obtain ⟨t, hexec, hdone, hmem, hslot⟩ := exec_slotCommand_writes hi hrun hk hlt hans
  exact ⟨t, _, hexec, hdone, hmem, hslot, rfl, rfl, rfl⟩

/-- The seed of slot `k` under SEED_ALL: in SEQUENTIAL mode the seed itself (R181). -/
def seedOfSlot (c : Config) (value : Word) (k : Nat) : Word :=
  match c.mode with
  | .sequential => value
  | .parallel => c.seedOfStream value k

theorem nstreams_of_sequential (h : c.legal = true) (hmode : c.mode = .sequential) : c.nstreams = 1 := by
  simpa [Config.legal, hmode] using (Bool.and_eq_true_iff.1 h).2

/-- SEED_ALL leaves every slot constructed from its seed; in SEQUENTIAL mode slot 0 is the only one (R181). -/
theorem seededSlots_getD (hc : c.legal = true) (value : Word) {slots : List (Option Slot)}
    (hlen : slots.length = c.nstreams) :
    (seededSlots c value slots).length = c.nstreams ∧
      ∀ k, k < c.nstreams →
        (seededSlots c value slots).getD k none = some (constructed c (c.keyFromSeed (seedOfSlot c value k))) := by
  unfold seededSlots seedOfSlot
  cases hmode : c.mode with
  | sequential =>
    have hone := nstreams_of_sequential hc hmode
    refine ⟨by simpa using hlen, fun k hk => ?_⟩
    obtain rfl : k = 0 := by omega
    simp [hlen, hone]
  | parallel => exact ⟨by simp, fun k hk => by simp [hk]⟩

end Sys2Proof.Machine

open Sys2Proof Sys2Proof.Machine

/-- Settles O37, by the answers of the three commands, which do not look at the slot's registers. -/
theorem constructingCommandsConstructTheSlot : Obligations.ConstructingCommandsConstructTheSlot := by
  intro s slot key values value k hrun hk hlt
  simp only [List.forall_mem_cons]
  exact ⟨exec_constructs (i := .keyLoad slot key) ⟨nofun, nofun, nofun⟩ hrun hk hlt rfl,
    exec_constructs (i := .seed slot value) ⟨nofun, nofun, nofun⟩ hrun hk hlt rfl,
    exec_constructs (i := .seedSeq slot values) ⟨nofun, nofun, nofun⟩ hrun hk hlt rfl, nofun⟩

/-- Settles O38: every slot is constructed from its seed, by mode. -/
theorem seedAllConstructsEverySlot : Obligations.SeedAllConstructsEverySlot := by
  intro s value hrun hlegal hsizes
  obtain ⟨hlen, hseeded⟩ := seededSlots_getD hlegal value hsizes.slots
  refine ⟨_, (exec_eq_perform _ s).trans (perform_running hrun),
    completed_respond (.seedAll value) [] rfl rfl ⟨rfl, rfl, rfl, rfl, rfl, rfl, rfl, rfl⟩, fun _ => rfl, hlen,
    fun k hk => ⟨_, hseeded k hk, rfl, rfl, fun hmode => ?_, fun hmode => ?_⟩⟩ <;>
    simp [constructed, seedOfSlot, hmode]

/-- Settles O42, by the slot after NEXT in its two cases. -/
theorem nextAnswersTheNextWord : Obligations.NextAnswersTheNextWord := by
  intro s slot k sl hrun hk hsl
  obtain ⟨t, hexec, hdone, hmem, hslot⟩ := exec_next_valid hrun hk hsl
  constructor
  · intro hcur
    rw [nextWord_of_ne hcur.ne] at hdone
    rw [nextSlot_of_ne hcur.ne] at hslot
    exact ⟨t, hexec, hdone, hmem, hslot⟩
  · intro hcur
    rw [nextWord_of_eq hcur] at hdone
    rw [nextSlot_of_eq hcur] at hslot
    exact ⟨t, _, _, hexec, hdone, hmem, addCtr_eq _ _ 1, rfl, hslot⟩

/-- Settles O43: every word of a shaped buffer, and of a new one, has WR bits. -/
theorem nextWordIsAtMostMax : Obligations.NextWordIsAtMostMax := by
  intro s slot k sl hrun hk hsl hshaped
  obtain ⟨t, hexec, hdone, -, -⟩ := exec_next_valid hrun hk hsl
  exact ⟨t, _, hexec, hdone, Nat.le_sub_one_of_lt (nextWord_lt hshaped.bufWords)⟩
end

section
/-! PROOFS. DISCARD n is n NEXTs, in its closed form and as a run of the unit (spec/43_stream.md R176-R178). -/

namespace Sys2Proof.Machine

variable {c : Config} {sl : Slot}

/-! ### The closed form (R176, R177) -/

/-- A refill by `k` and then one by 1 are a refill by `k + 1`, wherever the cursor stood: the counter's arithmetic part adds up, and
the buffer is a function of the key and the counter (R103, R175). -/
theorem refill_refill (hc : c.legal = true) (k cur cur' : Nat) (sl : Slot) :
    ({ refill c 1 { refill c k sl with cur := cur } with cur := cur' } : Slot) = { refill c (k + 1) sl with cur := cur' } := by
  obtain ⟨-, ⟨hm, -⟩, -⟩ := Config.legal_bounds hc
  have hctr : c.addCtr (c.addCtr sl.ctr k) 1 = c.addCtr sl.ctr (k + 1) := by
    simp only [addCtr_eq, Config.arith_blocks hm, Nat.mod_mod, Nat.mod_add_mod, Nat.add_assoc]
  simp only [refill, hctr]

/-- DISCARD within the buffer moves the cursor on (R177). -/
theorem discardSlot_of_le {n : Nat} (h : n ≤ c.bufLen - sl.cur) : discardSlot c n sl = { sl with cur := sl.cur + n } := if_pos h

/-- DISCARD past `blocks` whole buffers and `cur` words of the next one refills once, by `blocks + 1` (R177). -/
theorem discardSlot_past {blocks cur : Nat} (hpos : 0 < cur) (hle : cur ≤ c.bufLen) :
    discardSlot c (c.bufLen - sl.cur + (blocks * c.bufLen + cur)) sl = { refill c (blocks + 1) sl with cur := cur } := by
  have hrefills : (blocks * c.bufLen + cur + c.bufLen - 1) / c.bufLen = blocks + 1 :=
    Nat.div_eq_of_lt_le (by rw [Nat.succ_mul]; omega) (by rw [Nat.succ_mul, Nat.succ_mul]; omega)
  simp only [discardSlot, Nat.add_sub_cancel_left, hrefills, Nat.add_sub_cancel]
  exact if_neg (by omega)

/-- A positive number of words is some whole buffers and 1 to R words more. -/
theorem eq_mul_add_of_pos {n R : Nat} (hR : 0 < R) (hn : 0 < n) :
    ∃ blocks cur, 0 < cur ∧ cur ≤ R ∧ n = blocks * R + cur := by
  refine ⟨(n - 1) / R, (n - 1) % R + 1, Nat.succ_pos _, Nat.mod_lt _ hR, ?_⟩
  have := Nat.div_add_mod' (n - 1) R
  omega

/-- One word more in the closed form is one NEXT more: the cursor is within the old buffer, at its end, within a new one, or at the
end of that. -/
theorem discardSlot_succ (hc : c.legal = true) (hcur : sl.cur ≤ c.bufLen) (n : Nat) :
    discardSlot c (n + 1) sl = nextSlot c (discardSlot c n sl) := by
  have hR := (Config.bufLen_bounds hc).1
  rcases Nat.lt_trichotomy n (c.bufLen - sl.cur) with hlt | rfl | hgt
  · rw [discardSlot_of_le hlt, discardSlot_of_le hlt.le, nextSlot_of_ne (by simp only; omega)]
    rfl
  · have hpast := discardSlot_past (sl := sl) (blocks := 0) Nat.one_pos hR
    rw [Nat.zero_mul, Nat.zero_add] at hpast
    rw [hpast, discardSlot_of_le le_rfl, nextSlot_of_eq (by simp only; omega)]
    rfl
  · obtain ⟨blocks, cur, hpos, hle, heq⟩ := eq_mul_add_of_pos hR (Nat.sub_pos_of_lt hgt)
    obtain rfl : n = c.bufLen - sl.cur + (blocks * c.bufLen + cur) := by omega
    rw [discardSlot_past hpos hle]
    rcases Nat.lt_or_eq_of_le hle with hwithin | rfl
    · rw [nextSlot_of_ne hwithin.ne]
      exact discardSlot_past (Nat.succ_pos cur) hwithin
    · rw [nextSlot_of_eq rfl, refill_refill hc, ← discardSlot_past Nat.one_pos hR, Nat.succ_mul]
      rfl

theorem nextTimes_succ (c : Config) (n : Nat) (sl : Slot) : nextTimes c (n + 1) sl = nextSlot c (nextTimes c n sl) := by
  induction n generalizing sl with
  | zero => rfl
  | succ n ih => exact ih (nextSlot c sl)

theorem discardSlot_eq_nextTimes (hc : c.legal = true) (hcur : sl.cur ≤ c.bufLen) (n : Nat) :
    discardSlot c n sl = nextTimes c n sl := by
  induction n with
  | zero => exact discardSlot_of_le (Nat.zero_le _)
  | succ n ih => rw [discardSlot_succ hc hcur, nextTimes_succ, ih]

/-! ### Runs of one requester's commands (R251, R252) -/

variable {s : State} {q k : Nat} {i : Instr} {rest : List Event}

/-- No fault is recorded, nothing is in flight, and `q` is a requester. -/
structure IdleFor (q : Nat) (s : State) : Prop where
  running   : s.statusFault = false
  requester : q < s.inflight.length
  idle      : ∀ q', s.inFlight q' = none

/-- The moves of requester `q` that issue a command and complete it. -/
def commandMoves (q : Nat) (i : Instr) : List Event := [.issue q (encode i), .complete q]

/-- The state in which requester `q`'s command is in flight and the moves `rest` are to come (R251). -/
def issuedState (q : Nat) (i : Instr) (rest : List Event) (s : State) : State :=
  { s with inputs := rest, inflight := s.inflight.set q (some (inFlightOf s.cfg (encode i))) }

/-- The state in which a command of requester `q` has written slot `k` and been answered, and the moves `rest` are to come. -/
def answeredState (q : Nat) (i : Instr) (data : List Word) (k : Nat) (sl : Slot) (rest : List Event) (s : State) : State :=
  { s with
    slots := s.slots.set k (some sl)
    outputs := .response q (responseWord 0 i.opcode.code :: data) :: s.outputs
    serving := q
    inputs := rest }

theorem IdleFor.withInputs (h : IdleFor q s) (rest : List Event) : IdleFor q (s.withInputs rest) :=
  ⟨h.running, h.requester, h.idle⟩

theorem IdleFor.after_answer (h : IdleFor q s) (i : Instr) (data : List Word) (k : Nat) (sl : Slot) (rest : List Event) :
    IdleFor q (answeredState q i data k sl rest s) := ⟨h.running, h.requester, h.idle⟩

theorem slot_answeredState (hlt : k < s.slots.length) (q : Nat) (i : Instr) (data : List Word) (sl : Slot) (rest : List Event) :
    (answeredState q i data k sl rest s).slot k = some sl := slot_setSlot_same s k sl hlt

/-- The issue step of an idle unit puts the command in flight (R251). -/
theorem IdleFor.step_issue (h : IdleFor q s) (hinputs : s.inputs = .issue q (encode i) :: rest) :
    step s = .next (issuedState q i rest s) := by
  have hrace : raceFrom q (heldOf s.cfg (encode i)) 0 s.inflight = none :=
    (raceFrom_none _ _ _ _).2 fun j r _ hr => nomatch hr.symm.trans (h.idle j)
  simp [step, hinputs, issueStep, (inFlight_eq_none h.requester).1 (h.idle q), h.running, hrace, issuedState,
    State.withInputs]

/-- The completion step of a slot command that writes its slot, the only command in flight (R252). -/
theorem IdleFor.step_complete (h : IdleFor q s) (hi : IsSlotCommand i) (hwf : i.wf s.cfg = true)
    (hk : slotIndex s.cfg i.slotField = some k) {data : List Word}
    (hans : slotAnswer s.cfg k (s.slot k) i = .ok (some sl, data)) :
    step (issuedState q i (.complete q :: rest) s) = .next (answeredState q i data k sl rest s) := by
  have hflight : (issuedState q i rest s).inFlight q = some (inFlightOf s.cfg (encode i)) := by
    simp [issuedState, State.inFlight, h.requester]
  have hdecode : decode s.cfg (encode i) = .ok i := decodeOfEncodeIsTheCommand s.cfg i hwf
  have hcleared : (s.inflight.set q (some (inFlightOf s.cfg (encode i)))).set q none = s.inflight := by
    rw [List.set_set, ← show s.inflight.getD q none = none from h.idle q, set_getD_self]
  calc step (issuedState q i (.complete q :: rest) s)
      = completeStep q (issuedState q i rest s) := rfl
    _ = exec i (serve q (issuedState q i rest s)) := by
      rw [completeStep_of_inFlight hflight]
      simp only [inFlightOf, issuedState, hdecode]
    _ = .next (respond 0 i.opcode.code data ((serve q (issuedState q i rest s)).setSlot k sl)) := by
      rw [exec_slotCommand hi (s := serve q (issuedState q i rest s)) h.running hk]
      exact congrArg (fun ans => Host.Outcome.next ((SlotAnswer.apply k _ ans).finish i)) hans
    _ = .next (answeredState q i data k sl rest s) := by
      simp only [respond, State.setSlot, serve, issuedState, hcleared, answeredState]

theorem run_succ_of_step {M : Host.Core} {s t : M.State} (h : M.step s = .next t) (n : Nat) :
    M.run (n + 1) s = M.run n t := by
  simp only [Host.Core.run, h]

/-- A slot command that writes its slot takes two steps of an idle unit (R251, R252). -/
theorem IdleFor.run_slotCommand (h : IdleFor q s) (hi : IsSlotCommand i) (hwf : i.wf s.cfg = true)
    (hk : slotIndex s.cfg i.slotField = some k) {data : List Word}
    (hans : slotAnswer s.cfg k (s.slot k) i = .ok (some sl, data)) (hinputs : s.inputs = commandMoves q i ++ rest) (n : Nat) :
    Sys2Proof.core.run (n + 2) s = Sys2Proof.core.run n (answeredState q i data k sl rest s) :=
  (run_succ_of_step (M := Sys2Proof.core) (h.step_issue hinputs) (n + 1)).trans
    (run_succ_of_step (M := Sys2Proof.core) (s := issuedState q i (.complete q :: rest) s)
      (h.step_complete hi hwf hk hans) n)

/-- One NEXT on a valid slot (R174). -/
theorem IdleFor.run_next {slot : BitVec 32} (h : IdleFor q s) (hk : slotIndex s.cfg slot = some k) (hsl : s.slot k = some sl)
    (hinputs : s.inputs = commandMoves q (.next slot) ++ rest) (n : Nat) :
    Sys2Proof.core.run (n + 2) s =
      Sys2Proof.core.run n (answeredState q (.next slot) [nextWord s.cfg sl] k (nextSlot s.cfg sl) rest s) :=
  h.run_slotCommand (i := .next slot) ⟨nofun, nofun, nofun⟩ rfl hk (by rw [hsl]; rfl) hinputs n

/-- One DISCARD on a valid slot, as the loop that defines it (R176). -/
theorem IdleFor.run_discard {slot : BitVec 32} {n : Word} (h : IdleFor q s) (hc : s.cfg.legal = true)
    (hk : slotIndex s.cfg slot = some k) (hsl : s.slot k = some sl) (hcur : sl.cur ≤ s.cfg.bufLen)
    (hinputs : s.inputs = commandMoves q (.discard slot n) ++ rest) (m : Nat) :
    Sys2Proof.core.run (m + 2) s =
      Sys2Proof.core.run m (answeredState q (.discard slot n) [] k (nextTimes s.cfg n.toNat sl) rest s) := by
  rw [← discardSlot_eq_nextTimes hc hcur]
  exact h.run_slotCommand (i := .discard slot n) ⟨nofun, nofun, nofun⟩ rfl hk (by rw [hsl]; rfl) hinputs m

/-- A run of `n + 1` NEXTs leaves the slot after as many, and its last response is the last word. -/
theorem IdleFor.run_nexts {slot : BitVec 32} (h : IdleFor q s) (hk : slotIndex s.cfg slot = some k)
    (hsl : s.slot k = some sl) (n : Nat)
    (hinputs : s.inputs = (List.replicate (n + 1) (commandMoves q (.next slot))).flatten) :
    ∃ t before, Sys2Proof.core.run (2 * (n + 1)) s = .next t ∧
      t.slots = s.slots.set k (some (nextTimes s.cfg (n + 1) sl)) ∧ t.mem = s.mem ∧
      t.outputs = .response q [responseWord 0 0x38, nextWord s.cfg (nextTimes s.cfg n sl)] :: before := by
  induction n generalizing s sl with
  | zero => exact ⟨_, _, h.run_next hk hsl hinputs 0, rfl, rfl, rfl⟩
  | succ n ih =>
    obtain ⟨t, before, hrun, hslots, hmem, houtputs⟩ :=
      ih (h.after_answer (.next slot) [nextWord s.cfg sl] k (nextSlot s.cfg sl) _) hk
        (slot_answeredState (slot_lt s hsl) ..) rfl
    exact ⟨t, before, (h.run_next hk hsl hinputs _).trans hrun, hslots.trans (List.set_set _), hmem, houtputs⟩

/-- A run of DISCARD n and NEXT leaves the slot after `n + 1` NEXTs, and its last response is the last word. -/
theorem IdleFor.run_discard_next {slot : BitVec 32} {n : Word} (h : IdleFor q s) (hc : s.cfg.legal = true)
    (hk : slotIndex s.cfg slot = some k) (hsl : s.slot k = some sl) (hcur : sl.cur ≤ s.cfg.bufLen)
    (hinputs : s.inputs = commandMoves q (.discard slot n) ++ commandMoves q (.next slot)) :
    ∃ t before, Sys2Proof.core.run 4 s = .next t ∧
      t.slots = s.slots.set k (some (nextTimes s.cfg (n.toNat + 1) sl)) ∧ t.mem = s.mem ∧
      t.outputs = .response q [responseWord 0 0x38, nextWord s.cfg (nextTimes s.cfg n.toNat sl)] :: before := by
  have hnext := (h.after_answer (.discard slot n) [] k (nextTimes s.cfg n.toNat sl) (commandMoves q (.next slot))).run_next
    (rest := []) hk (slot_answeredState (slot_lt s hsl) ..) rfl 0
  refine ⟨_, _, (h.run_discard hc hk hsl hcur hinputs 2).trans hnext, ?_, rfl, rfl⟩
  rw [nextTimes_succ]
  exact List.set_set _

end Sys2Proof.Machine

open Sys2Proof Sys2Proof.Machine

/-- Settles O44, by induction on n: one word more in the closed form is one NEXT more. -/
theorem discardIsTheLoopOfNexts : Obligations.DiscardIsTheLoopOfNexts := by
  refine ⟨fun c sl n hlegal hcur => discardSlot_eq_nextTimes hlegal hcur n, ?_⟩
  intro s slot n k sl hrun hlegal hk hsl hcur
  rw [← discardSlot_eq_nextTimes hlegal hcur]
  exact exec_slotCommand_writes (i := .discard slot n) ⟨nofun, nofun, nofun⟩ hrun hk (slot_lt s hsl) (by rw [hsl]; rfl)

/-- Settles O45: the slot after DISCARD n is the slot after n NEXTs, and both runs end with one NEXT on it. -/
theorem discardThenNextIsOneMoreNext : Obligations.DiscardThenNextIsOneMoreNext := by
  intro s q slot n k sl hrun hlegal hq hidle hk hsl hcur
  have h : IdleFor q s := ⟨hrun, hq, hidle⟩
  obtain ⟨t, before, hdiscard, hslots, hmem, houtputs⟩ :=
    (h.withInputs (commandMoves q (.discard slot n) ++ commandMoves q (.next slot))).run_discard_next hlegal hk hsl hcur rfl
  obtain ⟨u, before', hnexts, hslots', hmem', houtputs'⟩ :=
    (h.withInputs (List.replicate (n.toNat + 1) (commandMoves q (.next slot))).flatten).run_nexts hk hsl n.toNat rfl
  exact ⟨t, u, _, before, before', hdiscard, hnexts, hslots.trans hslots'.symm, hmem.trans hmem'.symm, houtputs, houtputs'⟩
end

section
/-! PROOFS. The race of shared slots at the issue step (spec/43_stream.md R183, spec/60_exceptions.md R251). -/

namespace Sys2Proof.Machine

/-! ### The lowest shared slot -/

/-- `o` is the least element of `S`, or nothing where `S` is empty. -/
def LeastIn (S : Set Nat) (o : Option Nat) : Prop :=
  match o with
  | none => S = ∅
  | some k => IsLeast S k

theorem LeastIn.eq_some {S : Set Nat} {o : Option Nat} {k : Nat} (h : LeastIn S o) (hk : IsLeast S k) : o = some k := by
  cases o with
  | none => exact absurd hk.1 (h ▸ Set.notMem_empty k)
  | some k' => exact congrArg some (IsLeast.unique h hk)

theorem LeastIn.union {S T : Set Nat} {a b : Option Nat} (ha : LeastIn S a) (hb : LeastIn T b) :
    LeastIn (S ∪ T) (minOption a b) := by
  cases a with
  | none =>
    obtain rfl : S = ∅ := ha
    rwa [Set.empty_union]
  | some x =>
    cases b with
    | none =>
      obtain rfl : T = ∅ := hb
      rwa [Set.union_empty]
    | some y => exact IsLeast.union ha hb

theorem leastIn_shared (a b : Held) : LeastIn {k | a.Has k ∧ b.Has k} (a.shared b) := by
  cases h : a.shared b with
  | none => exact Set.eq_empty_of_forall_notMem (shared_eq_none.1 h)
  | some k =>
    obtain ⟨hloa, hhia, hlob, hhib, hleast⟩ := shared_eq_some h
    exact ⟨⟨⟨hloa, hhia⟩, hlob, hhib⟩, fun j hj => hleast j hj.1.1 hj.2.1⟩

/-- The slots of `h` that a command in flight of a requester other than `q` holds, the list's first entry being requester `i`. -/
def racedSlots (q : Nat) (h : Held) (i : Nat) (l : List (Option InFlight)) : Set Nat :=
  {k | ∃ j c, i + j ≠ q ∧ l.getD j none = some c ∧ h.Has k ∧ c.held.Has k}

theorem racedSlots_cons (q : Nat) (h : Held) (i : Nat) (r : Option InFlight) (rs : List (Option InFlight)) :
    racedSlots q h i (r :: rs) =
      {k | ∃ c, i ≠ q ∧ r = some c ∧ h.Has k ∧ c.held.Has k} ∪ racedSlots q h (i + 1) rs := by
  ext k
  constructor
  · rintro ⟨_ | j, c, hj, hc, hk⟩
    · exact .inl ⟨c, hj, hc, hk⟩
    · exact .inr ⟨j, c, by omega, hc, hk⟩
  · rintro (⟨c, hj, hc, hk⟩ | ⟨j, c, hj, hc, hk⟩)
    · exact ⟨0, c, hj, hc, hk⟩
    · exact ⟨j + 1, c, by omega, hc, hk⟩

/-- The issue step's search finds the lowest slot that a command in flight shares (R183). -/
theorem leastIn_raceFrom (q : Nat) (h : Held) (i : Nat) (l : List (Option InFlight)) :
    LeastIn (racedSlots q h i l) (raceFrom q h i l) := by
  induction l generalizing i with
  | nil => exact Set.eq_empty_of_forall_notMem (by simp [racedSlots])
  | cons r rs ih =>
    rw [racedSlots_cons]
    refine LeastIn.union ?_ (ih (i + 1))
    cases r with
    | none => exact Set.eq_empty_of_forall_notMem (by simp)
    | some c =>
      by_cases hi : i = q
      · simp only [if_pos hi]
        exact Set.eq_empty_of_forall_notMem (by simp [hi])
      · simpa [hi] using leastIn_shared h c.held

/-- An issue step that finds a race raises it and puts nothing in flight (R251). -/
theorem issueStep_of_race {q k : Nat} {msg : List Word} {s : State} (hq : q < s.inflight.length) (hidle : s.inFlight q = none)
    (hrun : s.statusFault = false) (hrace : raceFrom q (heldOf s.cfg msg) 0 s.inflight = some k) :
    issueStep q msg s =
      .next (takeFault (msgOpc msg) (msgSlot msg) ⟨.sharedStreamRace, BitVec.ofNat 64 k⟩ (serve q s)) := by
  simp [issueStep, (inFlight_eq_none hq).1 hidle, hrun, hrace]

end Sys2Proof.Machine

open Sys2Proof Sys2Proof.Machine

/-- Settles O9: the search over the records in flight finds the lowest shared slot, and the fault clears no record but the empty one
of its requester. -/
theorem sharedSlotRaceFaultsAtIssue : Obligations.SharedSlotRaceFaultsAtIssue := by
  intro s q msg rest k hinputs hq hidle hrun hshared hleast
  have hlowest : IsLeast (racedSlots q (heldOf s.cfg msg) 0 s.inflight) k := by
    constructor
    · obtain ⟨q', c, hne, hc, hlo, hhi, hlo', hhi'⟩ := hshared
      exact ⟨q', c, by omega, hc, ⟨hlo, hhi⟩, hlo', hhi'⟩
    · rintro k' ⟨q', c, hne, hc, ⟨hlo, hhi⟩, hlo', hhi'⟩
      exact hleast q' c k' (by omega) hc hlo hhi hlo' hhi'
  have hrace := (leastIn_raceFrom q (heldOf s.cfg msg) 0 s.inflight).eq_some hlowest
  refine ⟨_, ?_, faulted_takeFault _ _ _ hrun, fun q' hne => ?_⟩
  · rw [step, hinputs]
    exact issueStep_of_race (s := s.withInputs rest) hq hidle hrun hrace
  · simp [State.inFlight, Ne.symm hne]
end

section
/-! PROOFS. The slot prologue of every command that names a slot (spec/43_stream.md R180, spec/60_exceptions.md R241-R247). -/

namespace Sys2Proof.Machine

theorem slotIndex_sequential {c : Config} (h : c.mode = .sequential) (slot : BitVec 32) : slotIndex c slot = some 0 := by
  rw [slotIndex, h]

theorem slotIndex_parallel {c : Config} (h : c.mode = .parallel) (slot : BitVec 32) :
    slotIndex c slot = if slot.toNat < c.nstreams then some slot.toNat else none := by
  rw [slotIndex, h]

theorem onSlot_of_none {s : State} {slot : BitVec 32} (hk : slotIndex s.cfg slot = none) (f : Nat → CmdResult) :
    onSlot slot s f = .raised ⟨.badSlot, slot.setWidth 64⟩ s := by
  rw [onSlot, hk]

theorem onValidSlot_of_none {s : State} {slot : BitVec 32} {k : Nat} (hk : slotIndex s.cfg slot = some k)
    (hsl : s.slot k = none) (f : Nat → Slot → CmdResult) :
    onValidSlot slot s f = .raised ⟨.uninitialised, BitVec.ofNat 64 k⟩ s := by
  simp [onValidSlot, onSlot, hk, hsl]

/-- A command that begins with the slot prologue faults where its slot does not exist (R180). -/
theorem exec_badSlot {i : Instr} {s : State} {f : Nat → CmdResult} (hrun : s.statusFault = false)
    (hk : slotIndex s.cfg i.slotField = none) (hbody : bodyOf i s = onSlot i.slotField s f) :
    ∃ t, exec i s = .next t ∧ Faulted i.opcode.code i.slotField ⟨.badSlot, i.slotField.setWidth 64⟩ s t :=
  exec_of_raised hrun (hbody.trans (onSlot_of_none hk f))

/-- A command that begins with the slot prologue and the check of VALID faults where VALID = 0 (R242). -/
theorem exec_uninitialised {i : Instr} {s : State} {k : Nat} {f : Nat → Slot → CmdResult} (hrun : s.statusFault = false)
    (hk : slotIndex s.cfg i.slotField = some k) (hsl : s.slot k = none) (hbody : bodyOf i s = onValidSlot i.slotField s f) :
    ∃ t, exec i s = .next t ∧ Faulted i.opcode.code i.slotField ⟨.uninitialised, BitVec.ofNat 64 k⟩ s t :=
  exec_of_raised hrun (hbody.trans (onValidSlot_of_none hk hsl f))

/-- CSR_READ is performed in the fault state too; its fault is reported and not recorded (R241, R247). -/
theorem exec_csrRead_reported {csr : Csr} {slot : BitVec 32} {s : State} {r : Raise} (hfault : s.statusFault = true)
    (hbody : csrReadBody csr slot s = .raised r s) :
    ∃ t, exec (.csrRead csr slot) s = .next t ∧ ReportedOnly 0x01 r.cause s t := by
  refine ⟨takeFault 0x01 slot r s, ?_, by simp, by simp, framed_takeFault 0x01 slot r hfault, by simp, by simp⟩
  rw [exec_eq_perform, perform_eq, if_neg (by simp [Instr.opcode])]
  exact congrArg (fun res => Host.Outcome.next (CmdResult.finish (.csrRead csr slot) res)) hbody

end Sys2Proof.Machine

open Sys2Proof Sys2Proof.Machine

/-- Settles O24: each of the commands begins with the slot prologue, CTR_READ after the check of its block number. -/
theorem slotCommandsCheckTheirSlot : Obligations.SlotCommandsCheckTheirSlot := by
  refine ⟨fun c slot => ⟨fun hmode => slotIndex_sequential hmode slot, fun hmode hlt => ?_, fun hmode hle => ?_⟩,
    fun s slot n value ws b hrun hb => ⟨fun hk => ?_, fun k hk hsl => ?_⟩,
    fun s slot hfault => ⟨fun hk => ?_, fun k hk hsl => ?_⟩⟩
  · rw [slotIndex_parallel hmode, if_pos hlt]
  · rw [slotIndex_parallel hmode, if_neg (not_lt.2 hle)]
  · have hread : bodyOf (.ctrRead slot b) s = onValidSlot slot s _ := if_neg (not_le.2 hb)
    have hfaults {i : Instr} {f} := exec_badSlot (i := i) (s := s) (f := f) hrun
    simp only [List.forall_mem_cons]
    exact ⟨hfaults hk rfl, hfaults hk rfl, hfaults hk rfl, hfaults hk rfl, hfaults hk hread, hfaults hk rfl, hfaults hk rfl,
      hfaults hk rfl, hfaults hk rfl, hfaults hk rfl, hfaults hk rfl, hfaults hk rfl, hfaults hk rfl, nofun⟩
  · have hread : bodyOf (.ctrRead slot b) s = onValidSlot slot s _ := if_neg (not_le.2 hb)
    have hfaults {i : Instr} {f} := exec_uninitialised (i := i) (s := s) (k := k) (f := f) hrun
    simp only [List.forall_mem_cons]
    exact ⟨hfaults hk hsl rfl, hfaults hk hsl rfl, hfaults hk hsl rfl, hfaults hk hsl rfl, hfaults hk hsl hread,
      hfaults hk hsl rfl, hfaults hk hsl rfl, hfaults hk hsl rfl, hfaults hk hsl rfl, nofun⟩
  · simp only [List.forall_mem_cons]
    exact ⟨exec_csrRead_reported (csr := .cursor) hfault (onSlot_of_none hk _),
      exec_csrRead_reported (csr := .slotState) hfault (onSlot_of_none hk _), nofun⟩
  · exact exec_csrRead_reported (csr := .cursor) hfault (onValidSlot_of_none hk hsl _)
end

section
/-! PROOFS. RESAMPLE from its checks to its end: when it runs, the counts it stores, and what an aborted policy leaves
(spec/44_resample.md R200, R201, R235, spec/20_memory.md R50-R63). -/

namespace Sys2Proof.Machine

/-! ### Bytes and words of elements (spec/20_memory.md R52, R55) -/

section
variable {c : Config} {f : Footprint} {m : Memory}

theorem elem_fits (h : Reachable c f) {i : Nat} (hi : i < f.n) : f.elem i + 7 < 2 ^ 64 := by
  have hreach := h i hi
  simp only [reachable, Bool.and_eq_true, decide_eq_true_eq] at hreach
  exact hreach.1

/-- The addresses of the 8 bytes at an address that fits do not wrap. -/
theorem toNat_byte_address {a k : Nat} (hfit : a + 7 < 2 ^ 64) (hk : k < 8) :
    (BitVec.ofNat 64 a + BitVec.ofNat 64 k).toNat = a + k := by
  rw [← BitVec.ofNat_add, BitVec.toNat_ofNat, Nat.mod_eq_of_lt (by omega)]

theorem byteAt_write_elsewhere {a : Nat} (hfit : a + 7 < 2 ^ 64) {bs : List Byte} (hlen : bs.length = 8) {b : Word}
    (hb : ¬ (a ≤ b.toNat ∧ b.toNat < a + 8)) : (m.write (BitVec.ofNat 64 a) bs).byteAt b.toNat = m.byteAt b.toNat := by
  refine byteAt_write_outside m _ b bs fun k hk heq => hb ?_
  rw [heq, toNat_byte_address hfit (hlen ▸ hk)]
  omega

/-- The counts stored from element `i` on leave every byte outside those elements. -/
theorem byteAt_writeCounts (h : Reachable c f) {i : Nat} {ks : List Nat} (hn : i + ks.length ≤ f.n) {b : Word}
    (hb : ∀ j, i ≤ j → j < f.n → ¬ (f.elem j ≤ b.toNat ∧ b.toNat < f.elem j + 8)) :
    (writeCounts f i ks m).byteAt b.toNat = m.byteAt b.toNat := by
  induction ks generalizing i m with
  | nil => rfl
  | cons k ks ih =>
    rw [List.length_cons] at hn
    rw [writeCounts, ih (by omega) fun j hj hjn => hb j (by omega) hjn]
    exact byteAt_write_elsewhere (elem_fits h (by omega)) (leBytes_length 8 k) (hb i le_rfl (by omega))

/-- The free values of the first elements leave every byte outside the footprint (R235). -/
theorem byteAt_freeElems (h : Reachable c f) (use : Nat) {count : Nat} (hn : count ≤ f.n) {b : Word}
    (hb : ∀ j, j < f.n → ¬ (f.elem j ≤ b.toNat ∧ b.toNat < f.elem j + 8)) :
    (freeElems c use f count m).byteAt b.toNat = m.byteAt b.toNat := by
  induction count with
  | zero => rfl
  | succ n ih =>
    rw [freeElems, ← ih (by omega)]
    exact byteAt_write_elsewhere (elem_fits h hn) (by simp) (hb n hn)

theorem readWord_congr {m' : Memory} {a : Word}
    (h : ∀ k, k < 8 → m'.byteAt (a + BitVec.ofNat 64 k).toNat = m.byteAt (a + BitVec.ofNat 64 k).toNat) :
    m'.readWord a = m.readWord a := by
  have hbytes : m'.read 8 a = m.read 8 a := by
    refine List.ext_getElem (by simp) fun k hk hk' => ?_
    have hk8 : k < 8 := by simpa using hk
    simpa [hk8, read_getD] using (read_getD m' 8 a k hk8).trans ((h k hk8).trans (read_getD m 8 a k hk8).symm)
  rw [Memory.readWord, Memory.readWord, hbytes]

/-- An element below those written keeps its word. -/
theorem readWord_writeCounts_below (h : Reachable c f) (hs : 0 < f.stride) {i j : Nat} {ks : List Nat}
    (hn : i + ks.length ≤ f.n) (hj : j < i) (hjn : j < f.n) :
    (writeCounts f i ks m).readWord (BitVec.ofNat 64 (f.elem j)) = m.readWord (BitVec.ofNat 64 (f.elem j)) := by
  refine readWord_congr fun k hk => byteAt_writeCounts h hn fun j' hj' _ => ?_
  rw [toNat_byte_address (elem_fits h hjn) hk]
  have habove := elem_add_le hs (Nat.lt_of_lt_of_le hj hj')
  omega

/-- Every stored count is read back modulo 2^64. -/
theorem readWord_writeCounts (h : Reachable c f) (hs : 0 < f.stride) (hwf : m.wf = true) {i j : Nat} {ks : List Nat}
    (hn : i + ks.length ≤ f.n) (hj : j < ks.length) :
    (writeCounts f i ks m).readWord (BitVec.ofNat 64 (f.elem (i + j))) = BitVec.ofNat 64 (ks.getD j 0) := by
  induction ks generalizing i j m with
  | nil => simp at hj
  | cons k ks ih =>
    rw [List.length_cons] at hn hj
    match j with
    | 0 =>
      rw [writeCounts, readWord_writeCounts_below h hs (by omega) (by omega) (by omega)]
      exact readWord_writeWord_same hwf _ k
    | j + 1 =>
      rw [writeCounts, show i + (j + 1) = i + 1 + j by omega, List.getD_cons_succ]
      exact ih (wf_writeWord hwf _ k) (by omega) (by omega)

end

/-! ### The checks pass exactly when the command can run (R200-R205) -/

variable {o : ResampleOps} {s t : State}

theorem operandsOk_iff : OperandsOk o ↔ operandCheck o = none ∧ o.n ≠ 0 := by
  have hpos : 0 < o.n.toNat ↔ o.n ≠ 0 := by
    rw [Nat.pos_iff_ne_zero, ne_eq, ne_eq, ← BitVec.toNat_inj]
    rfl
  rw [operandCheck_none, ← hpos]
  exact ⟨fun ⟨hw, hr, hnw, hnrl, hn, hbound⟩ => ⟨⟨hw, hr, hnw, hnrl, hbound⟩, hn⟩,
    fun ⟨⟨hw, hr, hnw, hnrl, hbound⟩, hn⟩ => ⟨hw, hr, hnw, hnrl, hn, hbound⟩⟩

/-- Buffers that share a byte fail the overlap check (R63). -/
theorem disjoint_of_overlapCheck {w r : Footprint} (hs : 0 < w.stride) (h : overlapCheck w r = none) (a : Nat) :
    ¬ (w.contains a = true ∧ r.contains a = true) := by
  rintro ⟨hw, hr⟩
  obtain ⟨i, hi, hlo, hhi⟩ := (contains_iff w hs a).1 hw
  have hnone := (firstFrom_none _ _ _).1 ((firstFrom_none _ _ _).1 h i (Nat.zero_le i) (by omega)) a hlo hhi
  simp [hr] at hnone

theorem memoryCheck_none (hops : OperandsOk o) : memoryCheck s.cfg o = none ↔ BuffersOk o s := by
  refine ⟨fun h => ?_, memoryCheck_of_buffersOk hops⟩
  have hw : o.wbase.toNat % 8 = 0 := by
    by_contra hne
    rw [memoryCheck, if_pos hne] at h
    cases h
  have hr : o.rbase.toNat % 8 = 0 := by
    by_contra hne
    rw [memoryCheck, if_neg (not_not.2 hw), if_pos hne] at h
    cases h
  rw [memoryCheck_of_aligned hw hr, Option.or_eq_none_iff, Option.or_eq_none_iff] at h
  obtain ⟨hwbus, hrbus, hoverlap⟩ := h
  exact ⟨hw, hr, (busCheck_none _ _).1 hwbus, (busCheck_none _ _).1 hrbus,
    disjoint_of_overlapCheck (toNat_pos_of_toInt_pos hops.wstride) hoverlap⟩

theorem weightCheck_none :
    weightCheckFrom 0 (readWeights s.mem (weightFoot o)) = none ↔
      ∀ i, i < o.n.toNat → weightBad (storedWeight o s i) = false := by
  rw [weightCheckFrom_none]
  simp [readWeights, storedWeight]

theorem resampleRunnable_iff :
    ResampleRunnable o s ↔ operandCheck o = none ∧ o.n ≠ 0 ∧ resampleCheck o s = none := by
  rw [resampleCheck_none, slotCheck_none, weightCheck_none, ← and_assoc, ← operandsOk_iff]
  constructor
  · rintro ⟨hops, ⟨hstreams, hvalid⟩, hbuffers, hweights⟩
    exact ⟨hops, ⟨hstreams, hvalid⟩, (memoryCheck_none hops).2 hbuffers, hweights⟩
  · rintro ⟨hops, ⟨hstreams, hvalid⟩, hbuffers, hweights⟩
    exact ⟨hops, ⟨hstreams, hvalid⟩, (memoryCheck_none hops).1 hbuffers, hweights⟩

/-! ### The ends of the command (R200, R235) -/

section
variable {x : (ResampleOps → Instr) × Policy} (hx : x ∈ resamplePolicies) (hrun : s.statusFault = false)
include hx hrun

theorem exec_resample (o : ResampleOps) : exec (x.1 o) s = .next ((resampleBody x.2 o s).finish (x.1 o)) := by
  obtain ⟨-, -, -, hbody, -⟩ := resample_laws hx o
  rw [exec_eq_perform, perform_running hrun, hbody]

theorem exec_resample_of_operandCheck {r : Raise} (hcheck : operandCheck o = some r) :
    ∃ t, exec (x.1 o) s = .next t ∧ Faulted 0x40 0 r s t := by
  obtain ⟨hopcode, hslot, -, hbody, -⟩ := resample_laws hx o
  have hraised : bodyOf (x.1 o) s = .raised r s := by simp only [hbody, resampleBody, hcheck]
  have hfaulted := exec_of_raised hrun hraised
  rw [hopcode, hslot] at hfaulted
  exact hfaulted

/-- N = 0 does nothing (R201). -/
theorem exec_resample_of_zero (hcheck : operandCheck o = none) (hn : o.n = 0) :
    exec (x.1 o) s = .next (respond 0 (x.1 o).opcode.code [] s) := by
  have hbody : resampleBody x.2 o s = .done s [] := by simp only [resampleBody, hcheck, if_pos hn]
  rw [exec_resample hx hrun, hbody, finish_done]

theorem exec_resample_of_ok (h : ResampleRunnable o s) {rep : List Nat} {slots : List (Option Slot)}
    (hok : policyOn x.2 o s = .ok (rep, slots)) :
    exec (x.1 o) s = .next (respond 0 (x.1 o).opcode.code []
      (s.withStore (slots, writeCounts (countFoot o) 0 rep s.mem))) := by
  obtain ⟨hops, hn, hcheck⟩ := resampleRunnable_iff.1 h
  have hbody : resampleBody x.2 o s = .done (s.withStore (slots, writeCounts (countFoot o) 0 rep s.mem)) [] := by
    simp only [resampleBody, hops, if_neg hn, hcheck, hok]
    rfl
  rw [exec_resample hx hrun, hbody, finish_done]

theorem exec_resample_of_error (h : ResampleRunnable o s) {f : PolicyFault} (herr : policyOn x.2 o s = .error f) :
    exec (x.1 o) s = .next ((abort o f s).finish (x.1 o)) := by
  obtain ⟨hops, hn, hcheck⟩ := resampleRunnable_iff.1 h
  have hbody : resampleBody x.2 o s = abort o f s := by simp only [resampleBody, hops, if_neg hn, hcheck, herr]
  rw [exec_resample hx hrun, hbody]

/-- A RESAMPLE that completes had N = 0, or every check passed and the policy answered (R200). -/
theorem resample_completed (hexec : exec (x.1 o) s = .next t) (hdone : t.statusFault = false) :
    (o.n = 0 ∧ t.slots = s.slots) ∨
      ∃ rep slots, ResampleRunnable o s ∧ policyOn x.2 o s = .ok (rep, slots) ∧ t.slots = slots := by
  rw [exec_resample hx hrun] at hexec
  cases hexec
  rcases resampleBody_cases x.2 o s with ⟨r, -, heq⟩ | ⟨-, hn, heq⟩ | ⟨r, -, -, -, heq⟩ | ⟨f, -, -, -, -, heq⟩ |
    ⟨rep, slots, hops, hn, hcheck, hok, heq⟩ <;> rw [heq] at hdone ⊢
  · simp at hdone
  · exact .inl ⟨hn, rfl⟩
  · simp at hdone
  · obtain ⟨r, s', habort, -⟩ := abort_mem o f s
    simp [habort] at hdone
  · exact .inr ⟨rep, slots, resampleRunnable_iff.2 ⟨hops, hn, hcheck⟩, hok, rfl⟩

end

/-- What an abort raises, and on which state (R235, R241). -/
theorem abort_spec (o : ResampleOps) (f : PolicyFault) (s : State) :
    ∃ info s', abort o f s = .raised ⟨f.cause, info⟩ s' ∧ (f.info < 2 ^ 64 → info = BitVec.ofNat 64 f.info) ∧
      s'.slots = (abortedState o f s).slots ∧ s'.mem = (abortedState o f s).mem ∧ s'.statusFault = s.statusFault ∧
      s'.outputs = s.outputs ∧ s'.serving = s.serving := by
  obtain ⟨-, hfault, -, -, -, -, -, houtputs, hserving⟩ := abortedState_frame o f s
  unfold abort
  split
  · exact ⟨_, _, rfl, fun _ => rfl, rfl, rfl, hfault, houtputs, hserving⟩
  · next hlarge => exact ⟨_, _, rfl, fun h => absurd h hlarge, rfl, rfl, hfault, houtputs, hserving⟩

theorem abortedState_of_not_drawn {f : PolicyFault} (h : f.drawn = false) (o : ResampleOps) (s : State) :
    abortedState o f s = s := by
  simp [abortedState, h]

theorem abortedState_of_drawn {f : PolicyFault} (h : f.drawn = true) (o : ResampleOps) (s : State) :
    abortedState o f s =
      { s with
        slots := freeSlots s.cfg s.freeCount (usedSlots s.cfg o.n.toNat) s.slots
        mem := freeElems s.cfg s.freeCount (countFoot o) o.n.toNat s.mem
        freeCount := s.freeCount + 1 } :=
  if_pos h

theorem freeSlots_getD_of_le (c : Config) (use : Nat) {count k : Nat} (h : count ≤ k) (slots : List (Option Slot)) :
    (freeSlots c use count slots).getD k none = slots.getD k none := by
  induction count with
  | zero => rfl
  | succ n ih => rw [freeSlots, ← ih (by omega)]; simp [show n ≠ k by omega]

theorem freeSlots_getD_of_lt (c : Config) (use : Nat) {count k : Nat} {slots : List (Option Slot)} (h : k < count)
    (hk : k < slots.length) : (freeSlots c use count slots).getD k none = some (freeSlot c use k) := by
  induction count with
  | zero => omega
  | succ n ih =>
    rw [freeSlots]
    rcases Nat.lt_succ_iff_lt_or_eq.1 h with hlt | rfl
    · rw [← ih hlt]
      simp [show n ≠ k by omega]
    · simp [hk]

end Sys2Proof.Machine

open Sys2Proof Sys2Proof.Machine

/-- Settles O49: under each clause's conditions the operand check answers its cause, or passes with N = 0. -/
theorem resampleOperandChecks : Obligations.ResampleOperandChecks := by
  intro x hx o s hrun
  have hfaults {r : Raise} (h : operandCheck o = some r) := exec_resample_of_operandCheck hx hrun h
  refine ⟨fun hw => hfaults ?_, fun hw hr => hfaults ?_, fun hw hr =>
    ⟨fun hnw => hfaults ?_, fun hnw hnrl => hfaults ?_, fun hnw hnrl hn => hfaults ?_, fun hnw hnrl hn => ?_⟩⟩
  · simp [operandCheck, stridePositive, hw]
  · simp [operandCheck, stridePositive, hw, hr]
  · simp [operandCheck, stridePositive, hw, hr, hnw]
  · simp [operandCheck, stridePositive, hw, hr, hnw, hnrl]
  · simp only [operandCheck, stridePositive, hw, hr, hnw, hnrl]
    simpa using hn
  · have hcheck : operandCheck o = none := (operandCheck_none o).2 ⟨hw, hr, hnw, hnrl, by simp [hn]⟩
    exact ⟨_, exec_resample_of_zero hx hrun hcheck hn,
      completed_respond _ [] rfl rfl ⟨rfl, rfl, rfl, rfl, rfl, rfl, rfl, rfl⟩, fun _ => rfl, fun _ => rfl⟩

/-- Settles O51: the body of a runnable command whose policy raises a cause is the abort. -/
theorem policyFaultsEndTheCommand : Obligations.PolicyFaultsEndTheCommand := by
  intro x hx o s f hrun hrunnable herr
  obtain ⟨hopcode, -⟩ := resample_laws hx o
  obtain ⟨info, s', habort, hinfo, hslots, hmem, hstatus, houtputs, hserving⟩ := abort_spec o f s
  refine ⟨_, exec_resample_of_error hx hrun hrunnable herr, ?_⟩
  rw [habort, finish_raised, hopcode]
  refine ⟨by simp, by simp [hstatus, hrun], fun h => by simp [hstatus, hrun, hinfo h], ?_, by simpa, by simpa, fun hnot => ?_⟩
  · rw [takeFault_outputs, houtputs, hserving]
    rfl
  · rw [takeFault_slots, takeFault_mem, hslots, hmem, abortedState_of_not_drawn hnot]
    exact ⟨rfl, rfl⟩

/-- Settles O52: an abort writes free values to the used slots and to the elements of RFOOT alone. -/
theorem abortLeavesOnlyUsedSlotsAndCountsOpen : Obligations.AbortLeavesOnlyUsedSlotsAndCountsOpen := by
  intro o s f _ hrunnable hdrawn
  rw [abortedState_of_drawn hdrawn]
  refine ⟨fun k hk => freeSlots_getD_of_le _ _ hk _, fun k hk => ?_, fun a ha => ?_⟩
  · obtain ⟨sl, hsl⟩ := Option.isSome_iff_exists.1 (hrunnable.streams.valid k hk)
    exact ⟨_, freeSlots_getD_of_lt _ _ hk (slot_lt s hsl), freeSlot_shaped _ _ _⟩
  · refine byteAt_freeElems hrunnable.buffers.rreach _ le_rfl fun j hj hin => ?_
    have hcontains := (contains_iff (countFoot o) (toNat_pos_of_toInt_pos hrunnable.operands.rstride) a.toNat).2 ⟨j, hj, hin⟩
    rw [ha] at hcontains
    cases hcontains

/-- Settles O56: N = 0 keeps the slots; else they are those of the policy's answer, which advances the streams of its particles. -/
theorem resampleAdvancesOnlyItsStreams : Obligations.ResampleAdvancesOnlyItsStreams := by
  intro x hx o s t hrun hexec hdone
  rcases resample_completed hx hrun hexec hdone with ⟨-, hslots⟩ | ⟨rep, slots, hrunnable, hok, rfl⟩
  · simp only [State.slot, hslots]
    exact ⟨(SlotsAdvanced.refl s.cfg s.slots).moved, fun _ _ => trivial⟩
  · obtain ⟨hops, hn, -⟩ := resampleRunnable_iff.1 hrunnable
    refine ⟨(policies_advance x hx _ _ _ _ _ _ hok).moved, fun k hk => ?_⟩
    have hsame := (resampleEffect_leaves hx hn hk).same s.store
    have hok' : x.2 s.cfg (Draws.ofInstance s.cfg) (readWeights s.store.2 (weightFoot o)) s.store.1 = .ok (rep, t.slots) := hok
    rw [resampleEffect, if_pos ⟨hops, hn⟩, hok'] at hsame
    exact hsame
end

section
/-! PROOFS. Every policy that answers places N copies, and a RESAMPLE that completes stores them (spec/44_resample.md R200, R212, R216, R221,
R230). -/

namespace Sys2Proof.Machine

/-! ### The number of counts and their sum -/

/-- An answer has `L` counts that sum to `K`. -/
def PolicyResult.Places (L K : Nat) (r : PolicyResult) : Prop :=
  ∀ rep slots, r = .ok (rep, slots) → rep.length = L ∧ rep.sum = K

/-- The sum check of R212 makes up for what was placed before index `i`. -/
theorem primitiveFrom_places {c : Config} {d : Draws} {S : Nat} {v : List F64} {i : Nat} {accW : F64} {accS : Nat} {drawn : Bool}
    {slots slots' : List (Option Slot)} {rep : List Nat}
    (h : primitiveFrom c d S v i accW accS drawn slots = .ok (rep, slots')) : rep.length = v.length ∧ accS + rep.sum = S := by
  induction v generalizing i accW accS drawn slots rep with
  | nil =>
    rw [primitiveFrom] at h
    split at h
    · next hsum => cases h; exact ⟨rfl, hsum⟩
    · cases h
  | cons x xs ih =>
    rcases primitiveFrom_cons c d S x xs i accW accS drawn slots with
      ⟨-, heq⟩ | ⟨-, -, heq⟩ | ⟨p, k, drawnSlots, -, -, -, heq⟩ <;> rw [heq] at h
    · obtain ⟨rest, hrest, rfl⟩ := push_ok h
      obtain ⟨hlen, hsum⟩ := ih hrest
      exact ⟨congrArg (· + 1) hlen, by rw [List.sum_cons]; omega⟩
    · cases h
    · obtain ⟨rest, hrest, rfl⟩ := push_ok h
      obtain ⟨hlen, hsum⟩ := ih hrest
      exact ⟨congrArg (· + 1) hlen, by rw [List.sum_cons]; omega⟩

theorem primitive_places (c : Config) (d : Draws) (S : Nat) (v : List F64) (slots : List (Option Slot)) :
    (primitive c d S v slots).Places v.length S := fun _ _ h => by
  obtain ⟨hlen, hsum⟩ := primitiveFrom_places h
  exact ⟨hlen, by omega⟩

theorem scanFrom_sum (cw : F64) (vs pos : List F64) : (scanFrom cw vs pos).sum = pos.length := by
  induction vs generalizing cw pos with
  | nil => simp [scanFrom]
  | cons v vs ih =>
    rw [scanFrom, List.sum_cons, ih, ← List.length_append, List.takeWhile_append_dropWhile]

theorem scan_length {v : List F64} (hv : v ≠ []) (pos : List F64) : (scan v pos).length = v.length := by
  cases v with
  | nil => exact absurd rfl hv
  | cons v vs => exact scanFrom_length v vs pos

theorem scan_sum {v : List F64} (hv : v ≠ []) (pos : List F64) : (scan v pos).sum = pos.length := by
  cases v with
  | nil => exact absurd rfl hv
  | cons v vs => exact scanFrom_sum v vs pos

theorem stratPosFrom_length (c : Config) (d : Draws) (K count j : Nat) (slots : List (Option Slot)) :
    (stratPosFrom c d K count j slots).1.length = count := by
  induction count generalizing j slots with
  | zero => rfl
  | succ n ih => exact congrArg (· + 1) (ih (j + 1) _)

theorem stratPos_length (c : Config) (d : Draws) (K : Nat) (slots : List (Option Slot)) :
    (stratPos c d K slots).1.length = K := stratPosFrom_length c d K K 0 slots

theorem sysPos_length (c : Config) (d : Draws) (K : Nat) (slots : List (Option Slot)) :
    (sysPos c d K slots).1.length = K := by simp [sysPos]

theorem scanPolicy_places {v : List F64} (hv : v ≠ []) {K : Nat} {positions : List F64 × List (Option Slot)}
    (hpos : positions.1.length = K) : (scanPolicy positions v).Places v.length K := by
  intro rep slots h
  cases h
  exact ⟨scan_length hv _, (scan_sum hv _).trans hpos⟩

/-- The copies that Split guarantees and those the inner policy places are N together (R216, R218). -/
theorem residualPolicy_places {inner : (S : Nat) → List F64 → List (Option Slot) → PolicyResult} {w : List F64}
    {slots : List (Option Slot)} (hinner : ∀ S rw, rw.length = w.length → (inner S rw slots).Places w.length S) :
    (residualPolicy inner w slots).Places w.length w.length := by
  intro rep slots' h
  obtain ⟨-, ⟨hall, rfl, -⟩ | ⟨hleft, -, rp, hok, rfl⟩⟩ := residualPolicy_ok h
  · exact ⟨by simp, hall⟩
  · obtain ⟨hlen, hsum⟩ := hinner _ _ (by simp) _ _ hok
    refine ⟨by simp [hlen], ?_⟩
    rw [← List.sum_add_sum_eq_sum_zipWith_of_length_eq _ _ (by simp [hlen]), hsum]
    omega

/-- Every policy places N copies on N particles (R230). -/
theorem policies_place : ∀ x ∈ resamplePolicies, ∀ c d w slots, w ≠ [] → (x.2 c d w slots).Places w.length w.length := by
  have hne {w rw : List F64} (hw : w ≠ []) (hlen : rw.length = w.length) : rw ≠ [] := by
    rintro rfl
    exact hw (List.length_eq_zero_iff.1 hlen.symm)
  simp only [resamplePolicies, List.forall_mem_cons]
  refine ⟨?_, ?_, ?_, ?_, ?_, ?_, nofun⟩ <;> intro c d w slots hw
  · exact primitive_places c d w.length w slots
  · exact residualPolicy_places fun S rw hlen => hlen ▸ primitive_places c d S rw slots
  · exact scanPolicy_places hw (stratPos_length c d w.length slots)
  · exact scanPolicy_places hw (sysPos_length c d w.length slots)
  · exact residualPolicy_places fun S rw hlen => hlen ▸ scanPolicy_places (hne hw hlen) (stratPos_length c d S slots)
  · exact residualPolicy_places fun S rw hlen => hlen ▸ scanPolicy_places (hne hw hlen) (sysPos_length c d S slots)

/-! ### The counts in memory -/

variable {o : ResampleOps} {s t : State} {x : (ResampleOps → Instr) × Policy}

/-- A policy that answers a runnable command answers N counts that sum to N. -/
theorem policyOn_places (hx : x ∈ resamplePolicies) (h : ResampleRunnable o s) {rep : List Nat} {slots : List (Option Slot)}
    (hok : policyOn x.2 o s = .ok (rep, slots)) : rep.length = o.n.toNat ∧ rep.sum = o.n.toNat := by
  have hlen : (readWeights s.mem (weightFoot o)).length = o.n.toNat := readWeights_length _ _
  have hne : readWeights s.mem (weightFoot o) ≠ [] := by
    rw [← List.length_pos_iff, hlen]
    exact h.operands.nPos
  simpa [hlen] using policies_place x hx _ _ _ _ hne rep slots hok

@[simp] theorem countFoot_n (o : ResampleOps) : (countFoot o).n = o.n.toNat := rfl

theorem countFoot_contains_iff (h : OperandsOk o) (a : Nat) : (countFoot o).contains a = true ↔
    ∃ i, i < o.n.toNat ∧ (countFoot o).elem i ≤ a ∧ a < (countFoot o).elem i + 8 :=
  contains_iff (countFoot o) (toNat_pos_of_toInt_pos h.rstride) a

/-- The counts written leave every byte outside RFOOT (R200). -/
theorem byteAt_counts (h : ResampleRunnable o s) {rep : List Nat} (hlen : rep.length = o.n.toNat) {a : Word}
    (ha : (countFoot o).contains a.toNat = false) :
    (writeCounts (countFoot o) 0 rep s.mem).byteAt a.toNat = s.mem.byteAt a.toNat := by
  refine byteAt_writeCounts h.buffers.rreach (by simp [hlen]) fun j _ hj hin => ?_
  rw [(countFoot_contains_iff h.operands _).2 ⟨j, hj, hin⟩] at ha
  cases ha

/-- The bytes of a weight are none of RFOOT's (R63). -/
theorem countFoot_not_contains_weight (h : ResampleRunnable o s) {i k : Nat} (hi : i < o.n.toNat) (hk : k < 8) :
    (countFoot o).contains (BitVec.ofNat 64 ((weightFoot o).elem i) + BitVec.ofNat 64 k).toNat = false := by
  rw [toNat_byte_address (elem_fits h.buffers.wreach hi) hk]
  have hweight : (weightFoot o).contains ((weightFoot o).elem i + k) = true :=
    (contains_iff _ (toNat_pos_of_toInt_pos h.operands.wstride) _).2 ⟨i, hi, by omega, by omega⟩
  simpa [hweight] using h.buffers.disjoint ((weightFoot o).elem i + k)

/-- A RESAMPLE whose checks pass and whose policy answers stores the answer (R63, R200). -/
theorem resample_storesTheCounts (hx : x ∈ resamplePolicies) : ResampleStoresTheCounts x.1 x.2 := by
  intro o s rep slots hrun hwf h hok
  obtain ⟨hlen, hsum⟩ := policyOn_places hx h hok
  refine ⟨_, exec_resample_of_ok hx hrun h hok, completed_respond _ [] rfl rfl (framed_withStore s _), rfl, hlen,
    fun i hi => ?_, fun a ha => byteAt_counts h hlen ha, fun i hi => ?_⟩
  · have hread := readWord_writeCounts (i := 0) h.buffers.rreach (toNat_pos_of_toInt_pos h.operands.rstride) hwf
      (by simp [hlen]) (hlen ▸ hi)
    have hle : rep.getD i 0 ≤ rep.sum := by
      rw [List.getD_eq_getElem _ _ (hlen ▸ hi)]
      exact List.le_sum_of_mem (List.getElem_mem _)
    have hbound := h.operands.nBound
    have hsmall : rep.getD i 0 < 2 ^ 64 := by omega
    rw [Nat.zero_add] at hread
    exact (congrArg BitVec.toNat hread).trans (toNat_ofNat_of_lt hsmall)
  · have hword : (writeCounts (countFoot o) 0 rep s.mem).readWord (BitVec.ofNat 64 ((weightFoot o).elem i)) =
        s.mem.readWord (BitVec.ofNat 64 ((weightFoot o).elem i)) :=
      readWord_congr fun k hk => byteAt_counts h hlen (countFoot_not_contains_weight h hi hk)
    exact congrArg F64.ofBits hword

/-- The counts that a completed RESAMPLE of N > 0 leaves in memory are its policy's. -/
theorem resample_counts (hx : x ∈ resamplePolicies) (hrun : s.statusFault = false) (hwf : s.mem.wf = true)
    (hexec : exec (x.1 o) s = .next t) (hdone : t.statusFault = false) (hn : 0 < o.n.toNat) :
    ∃ rep slots, ResampleRunnable o s ∧ policyOn x.2 o s = .ok (rep, slots) ∧
      ∀ i, i < o.n.toNat → storedCount o t i = rep.getD i 0 := by
  rcases resample_completed hx hrun hexec hdone with ⟨hzero, -⟩ | ⟨rep, slots, h, hok, -⟩
  · simp [hzero] at hn
  · obtain ⟨t', hexec', -, -, -, hstored, -⟩ := resample_storesTheCounts hx o s rep slots hrun hwf h hok
    obtain rfl : t' = t := Host.Outcome.next.inj (hexec'.symm.trans hexec)
    exact ⟨rep, slots, h, hok, hstored⟩

end Sys2Proof.Machine

open Sys2Proof Sys2Proof.Machine

/-- Settles O46: two of the six policies. -/
theorem primitivePoliciesStoreTheirCounts : Obligations.PrimitivePoliciesStoreTheirCounts :=
  ⟨resample_storesTheCounts (x := (.resampleMultinomial, policyMultinomial)) (by simp [resamplePolicies]),
    resample_storesTheCounts (x := (.resampleResidual, policyResidual)) (by simp [resamplePolicies])⟩

/-- Settles O47: two of the six policies, and their answer is a scan. -/
theorem scanPoliciesAlwaysComplete : Obligations.ScanPoliciesAlwaysComplete :=
  ⟨resample_storesTheCounts (x := (.resampleStratified, policyStratified)) (by simp [resamplePolicies]),
    resample_storesTheCounts (x := (.resampleSystematic, policySystematic)) (by simp [resamplePolicies]),
    fun _ _ => ⟨⟨_, _, rfl⟩, _, _, rfl⟩⟩

/-- Settles O48: two of the six policies. -/
theorem residualScanPoliciesStoreTheirCounts : Obligations.ResidualScanPoliciesStoreTheirCounts :=
  ⟨resample_storesTheCounts (x := (.resampleResidualStratified, policyResidualStratified)) (by simp [resamplePolicies]),
    resample_storesTheCounts (x := (.resampleResidualSystematic, policyResidualSystematic)) (by simp [resamplePolicies])⟩

/-- Settles O53: the stored counts are the policy's, which sum to N. -/
theorem completedResampleSumsToN : Obligations.CompletedResampleSumsToN := by
  intro x hx o s t hrun hwf hexec hdone
  rcases Nat.eq_zero_or_pos o.n.toNat with hn | hn
  · simp [hn]
  · obtain ⟨rep, slots, h, hok, hstored⟩ := resample_counts hx hrun hwf hexec hdone hn
    obtain ⟨hlen, hsum⟩ := policyOn_places hx h hok
    have hcounts : (List.range o.n.toNat).map (storedCount o t) = rep := by
      refine List.ext_getElem (by simp [hlen]) fun i hi hi' => ?_
      rw [List.getElem_map, List.getElem_range, hstored i (by simpa using hi), List.getD_eq_getElem _ _ hi']
    rw [hcounts, hsum]
end

section
/-! PROOFS. The model's primitive, positions and scan are the loops of the rules (spec/44_resample.md R210-R212, R220, R221). -/

namespace Sys2Proof.Machine

/-! ### Lists as the loops read and write them -/

section
variable {α : Type} (before : List α) (a b : α) (rest : List α)

theorem getD_append_length (d : α) : (before ++ a :: rest).getD before.length d = a := by simp

theorem set_append_length : (before ++ a :: rest).set before.length b = before ++ b :: rest := by simp

theorem modifyHead_zero_add (l : List Nat) : l.modifyHead (0 + ·) = l := by cases l <;> simp

end

/-! ### The scan (R221) -/

theorem scanFrom_nil (cw : F64) (vs : List F64) : scanFrom cw vs [] = List.replicate (vs.length + 1) 0 := by
  induction vs generalizing cw with
  | nil => rfl
  | cons v vs ih => rw [scanFrom, List.dropWhile_nil, ih]; rfl

/-- A position below the cumulative weight falls in the particle. -/
theorem scanFrom_of_lt {x cw : F64} (h : F64.lt x cw = true) (v : F64) (vs pos : List F64) :
    scanFrom cw (v :: vs) (x :: pos) = (scanFrom cw (v :: vs) pos).modifyHead (1 + ·) := by
  simp [scanFrom, h, Nat.add_comm]

/-- A position not below it leaves the particle. -/
theorem scanFrom_of_not_lt {x cw : F64} (h : F64.lt x cw = false) (v : F64) (vs pos : List F64) :
    scanFrom cw (v :: vs) (x :: pos) = 0 :: scanFrom (F64.add cw v) vs (x :: pos) := by
  simp [scanFrom, h]

/-- The loop of R221 in the middle: `done` are the counts of the particles `seen` before particle `u`, `count` that of `u` so far, and
`placed` the positions placed so far. -/
theorem scanLoop_eq {v pos seen vs placed left : List F64} {u cw : F64} {done : List Nat} {count fuel : Nat}
    (hv : v = seen ++ u :: vs) (hpos : pos = placed ++ left) (hdone : done.length = seen.length)
    (hfuel : vs.length + left.length ≤ fuel) :
    scanLoop v.length pos.length v pos fuel placed.length done.length cw (done ++ count :: List.replicate vs.length 0) =
      done ++ (scanFrom cw vs left).modifyHead (count + ·) := by
  have hL : v.length = done.length + 1 + vs.length := by rw [hv, hdone]; simp; omega
  have hK : pos.length = placed.length + left.length := by rw [hpos, List.length_append]
  induction fuel generalizing seen vs placed left u cw done count with
  | zero =>
    obtain rfl : left = [] := List.length_eq_zero_iff.1 (by omega)
    rw [scanLoop, scanFrom_nil]
    rfl
  | succ fuel ih =>
    rw [scanLoop]
    match left, vs with
    | [], vs =>
      rw [if_neg (by simp [hK]), scanFrom_nil]
      rfl
    | x :: xs, [] =>
      have hlast : v.length - 1 = done.length := by simp [hL]
      rw [if_pos (by simp [hK]), hlast, if_pos rfl, getD_append_length, set_append_length, hK, Nat.add_sub_cancel_left]
      rfl
    | x :: xs, v' :: vs =>
      simp only [List.length_cons] at hL hK hfuel
      have hx : pos.getD placed.length .zero = x := by rw [hpos, getD_append_length]
      rw [if_pos (by omega), if_neg (by omega), hx]
      cases hlt : F64.lt x cw with
      | true =>
        have hrec := ih (cw := cw) (count := count + 1) hv (placed := placed ++ [x]) (left := xs) (by simp [hpos]) hdone
          (by simp; omega) hL (by simp; omega)
        rw [if_pos rfl, getD_append_length, set_append_length, scanFrom_of_lt hlt]
        simpa [List.modifyHead_modifyHead, Function.comp_def, Nat.add_assoc] using hrec
      | false =>
        have hv' : v.getD (done.length + 1) .zero = v' := by
          rw [hv, hdone]
          simp
        have hrec := ih (cw := F64.add cw v') (count := 0) (seen := seen ++ [u]) (u := v') (vs := vs) (done := done ++ [count])
          (by simp [hv]) hpos (by simp [hdone]) (by simp; omega) (by simp; omega) (by simpa using hK)
        rw [modifyHead_zero_add] at hrec
        rw [if_neg (by simp), hv', scanFrom_of_not_lt hlt]
        simpa [List.replicate_succ] using hrec

theorem scan_eq_scanLoop {v : List F64} (hv : v ≠ []) (pos : List F64) :
    scan v pos = scanLoop v.length pos.length v pos (v.length + pos.length + 1) 0 0 (v.getD 0 .zero)
      (List.replicate v.length 0) := by
  cases v with
  | nil => exact absurd rfl hv
  | cons u vs =>
    have hloop := scanLoop_eq (v := u :: vs) (pos := pos) (seen := []) (placed := []) (cw := u) (done := []) (count := 0)
      (fuel := (u :: vs).length + pos.length + 1) rfl rfl rfl (by simp; omega)
    rw [modifyHead_zero_add] at hloop
    simpa [scan, List.replicate_succ] using hloop.symm

/-! ### The primitive (R210, R212) -/

/-- A policy's answer with the counts `done` in front. -/
def PolicyResult.prepend (done : List Nat) : PolicyResult → PolicyResult
  | .ok (rep, slots) => .ok (done ++ rep, slots)
  | .error f => .error f

theorem prepend_push (done : List Nat) (k : Nat) (r : PolicyResult) : (r.push k).prepend done = r.prepend (done ++ [k]) := by
  cases r with
  | ok x => simp [PolicyResult.push, PolicyResult.prepend]
  | error f => rfl

theorem prepend_nil (r : PolicyResult) : r.prepend [] = r := by cases r <;> rfl

/-- The loop of R210 from the index after the weights `seen`, whose counts are `done`. -/
theorem primitiveLoop_eq (c : Config) (d : Draws) (S : Nat) {v seen rest : List F64} {done : List Nat} (hv : v = seen ++ rest)
    (hdone : done.length = seen.length) (accW : F64) (accS : Nat) (drawn : Bool) (slots : List (Option Slot)) :
    primitiveLoop c d S v rest.length done.length accW accS drawn (done ++ List.replicate rest.length 0) slots =
      (primitiveFrom c d S rest done.length accW accS drawn slots).prepend done := by
  induction rest generalizing seen done accW accS drawn slots with
  | nil =>
    by_cases hsum : accS = S <;> simp [primitiveLoop, primitiveFrom, PolicyResult.prepend, hsum]
  | cons x xs ih =>
    have hx : v.getD done.length .zero = x := by rw [hv, hdone, getD_append_length]
    have hcond : (0 < (S : Int) - accS ∧ F64.lt F64.zero x = true) ↔ (accS < S ∧ F64.lt F64.zero x = true) :=
      and_congr_left fun _ => by omega
    have hrest (k : Nat) (accS' : Nat) (drawn' : Bool) (slots' : List (Option Slot)) :
        primitiveLoop c d S v xs.length (done.length + 1) (F64.add accW x) accS' drawn'
            (done ++ k :: List.replicate xs.length 0) slots' =
          ((primitiveFrom c d S xs (done.length + 1) (F64.add accW x) accS' drawn' slots').push k).prepend done := by
      have hrec := ih (seen := seen ++ [x]) (done := done ++ [k]) (by simp [hv]) (by simp [hdone]) (F64.add accW x) accS'
        drawn' slots'
      simpa [prepend_push] using hrec
    simp only [List.length_cons, primitiveLoop, primitiveFrom, hx, hcond, List.replicate_succ]
    split_ifs
    · cases clamp (F64.div x (F64.sub F64.one accW)) with
      | none => rfl
      | some p =>
        simp only [set_append_length]
        exact hrest _ _ _ _
    · exact hrest _ _ _ _

theorem primitive_eq_primitiveRule (c : Config) (d : Draws) (S : Nat) (v : List F64) (slots : List (Option Slot)) :
    primitive c d S v slots = primitiveRule c d S v slots := by
  have hloop := primitiveLoop_eq c d S (v := v) (seen := []) (done := []) rfl rfl F64.zero 0 false slots
  rw [prepend_nil] at hloop
  exact hloop.symm

/-! ### The positions (R220) -/

/-- One turn of the loop of StratPos. -/
def stratTurn (c : Config) (d : Draws) (K : Nat) (acc : List F64 × List (Option Slot)) (j : Nat) :
    List F64 × List (Option Slot) :=
  (acc.1 ++ [position K j (u01Draw c d (streamOf c j) acc.2).1], (u01Draw c d (streamOf c j) acc.2).2)

theorem stratLoop_eq_foldl (c : Config) (d : Draws) (K : Nat) (slots : List (Option Slot)) :
    stratLoop c d K slots = (List.range K).foldl (stratTurn c d K) ([], slots) := rfl

theorem foldl_stratTurn (c : Config) (d : Draws) (K count j : Nat) (acc : List F64) (slots : List (Option Slot)) :
    (List.range' j count).foldl (stratTurn c d K) (acc, slots) =
      (acc ++ (stratPosFrom c d K count j slots).1, (stratPosFrom c d K count j slots).2) := by
  induction count generalizing j acc slots with
  | zero => simp [stratPosFrom]
  | succ n ih => simp [List.range'_succ, stratTurn, ih, stratPosFrom]

theorem stratPos_eq_stratLoop (c : Config) (d : Draws) (K : Nat) (slots : List (Option Slot)) :
    stratPos c d K slots = stratLoop c d K slots := by
  rw [stratLoop_eq_foldl, List.range_eq_range', foldl_stratTurn]
  rfl

theorem foldl_append_singleton {α β : Type} (f : α → β) (l : List α) (acc : List β) :
    l.foldl (fun acc x => acc ++ [f x]) acc = acc ++ l.map f := by
  induction l generalizing acc with
  | nil => simp
  | cons x xs ih => simp [ih]

theorem sysPos_eq_sysLoop (c : Config) (d : Draws) (K : Nat) (slots : List (Option Slot)) :
    sysPos c d K slots = sysLoop c d K slots := by
  rw [sysLoop, foldl_append_singleton]
  rfl

/-! ### The policies (R215, R218, R222-R225) -/

theorem scanPolicy_eq_scanRule {v : List F64} (hv : v ≠ []) {K : Nat} {positions : List F64 × List (Option Slot)}
    (hpos : positions.1.length = K) : scanPolicy positions v = scanRule K positions v := by
  subst hpos
  exact congrArg (fun rep => Except.ok (rep, positions.2)) (scan_eq_scanLoop hv positions.1)

theorem scanStratPos_eq {v : List F64} (hv : v ≠ []) (c : Config) (d : Draws) (K : Nat) (slots : List (Option Slot)) :
    scanPolicy (stratPos c d K slots) v = scanRule K (stratLoop c d K slots) v := by
  rw [scanPolicy_eq_scanRule hv (stratPos_length c d K slots), stratPos_eq_stratLoop]

theorem scanSysPos_eq {v : List F64} (hv : v ≠ []) (c : Config) (d : Draws) (K : Nat) (slots : List (Option Slot)) :
    scanPolicy (sysPos c d K slots) v = scanRule K (sysLoop c d K slots) v := by
  rw [scanPolicy_eq_scanRule hv (sysPos_length c d K slots), sysPos_eq_sysLoop]

/-- Split and Normalise hand their inner policy as many weights as there are particles, at least one of them. -/
theorem residualPolicy_congr {inner inner' : (S : Nat) → List F64 → List (Option Slot) → PolicyResult} {w : List F64}
    {slots : List (Option Slot)} (hw : w ≠ []) (h : ∀ S rw, rw ≠ [] → inner S rw slots = inner' S rw slots) :
    residualPolicy inner w slots = residualPolicy inner' w slots := by
  simp only [residualPolicy]
  rw [h _ _ (by simpa using hw)]

end Sys2Proof.Machine

open Sys2Proof Sys2Proof.Machine

/-- Settles O58: the loop from its first turn, and the sum of the counts of the scan. -/
theorem scanIsTheLoopOfTheRule : Obligations.ScanIsTheLoopOfTheRule :=
  fun _ pos hv => ⟨scan_eq_scanLoop hv pos, scan_sum hv pos⟩
end

section
/-! PROOFS. Binary64 values as the policies meet them: what a bit pattern stands for, the sign of a sum and of a quotient, adding a weight of
zero, and the floor of a rounded product (spec/00_scope.md R10, R11, spec/44_resample.md R203, R216, R220, R221). -/

namespace Sys2Proof

open Machine

namespace F64

variable {a b u v x : F64}

theorem ofUnits_cases (neg : Bool) (units : Nat) : ofUnits neg units = .fin neg units ∨ ofUnits neg units = .inf neg := by
  unfold ofUnits
  split
  · exact .inl rfl
  · exact .inr rfl

@[simp] theorem roundUnits_zero_left (den : Nat) : roundUnits 0 den = 0 := by
  simp [roundUnits]

theorem le_roundUnits {m num den : Nat} (hden : 0 < den) (hm : RepresentableUnits m) (h : m * den ≤ num) :
    m ≤ roundUnits num den := by
  by_contra hlt
  have hnear := (roundUnits_nearest (num := num) hden hm).1
  have hstep : roundUnits num den * den + den ≤ m * den := by
    rw [← Nat.succ_mul]
    exact Nat.mul_le_mul_right den (by omega)
  rw [← Nat.cast_mul, ← Nat.cast_mul, Int.abs_eq_natAbs, Int.abs_eq_natAbs] at hnear
  generalize roundUnits num den * den = r at *
  generalize m * den = exact at *
  omega

theorem roundUnits_le {m num den : Nat} (hden : 0 < den) (hm : RepresentableUnits m) (h : num ≤ m * den) :
    roundUnits num den ≤ m := by
  by_contra hlt
  have hnear := (roundUnits_nearest (num := num) hden hm).1
  have hstep : m * den + den ≤ roundUnits num den * den := by
    rw [← Nat.succ_mul]
    exact Nat.mul_le_mul_right den (by omega)
  rw [← Nat.cast_mul, ← Nat.cast_mul, Int.abs_eq_natAbs, Int.abs_eq_natAbs] at hnear
  generalize roundUnits num den * den = r at *
  generalize m * den = exact at *
  omega

/-! ### Values that binary64 holds (R11) -/

/-- A finite value has at most 53 significant bits and is below 2^1024. -/
structure IsBinary64 (x : F64) : Prop where
  ofFin : ∀ neg mag, x = .fin neg mag → RepresentableUnits mag ∧ mag < 2 ^ 1024 * unit

theorem isBinary64_fin {mag : Nat} (neg : Bool) (hrep : RepresentableUnits mag) (hbound : mag < 2 ^ 1024 * unit) :
    IsBinary64 (.fin neg mag) := by
  refine ⟨fun neg' mag' h => ?_⟩
  cases h
  exact ⟨hrep, hbound⟩

theorem isBinary64_nan : IsBinary64 .nan := ⟨nofun⟩

theorem isBinary64_inf (neg : Bool) : IsBinary64 (.inf neg) := ⟨nofun⟩

theorem isBinary64_ofUnits (neg : Bool) (num den : Nat) : IsBinary64 (ofUnits neg (roundUnits num den)) := by
  by_cases h : roundUnits num den < 2 ^ 1024 * unit
  · rw [ofUnits_of_lt h]
    exact isBinary64_fin neg (roundUnits_representable num den) h
  · rw [ofUnits_of_le (not_lt.1 h)]
    exact isBinary64_inf neg

theorem isBinary64_add (a b : F64) : IsBinary64 (add a b) := by
  match a, b with
  | .nan, _ | .inf _, .nan | .fin _ _, .nan => exact isBinary64_nan
  | .inf a, .fin _ _ => exact isBinary64_inf a
  | .fin _ _, .inf b => exact isBinary64_inf b
  | .inf a, .inf b =>
    rw [add]
    split_ifs
    · exact isBinary64_inf a
    · exact isBinary64_nan
  | .fin a x, .fin b y =>
    obtain ⟨neg, n, -, hadd, -⟩ := add_fin a b x y
    exact hadd ▸ isBinary64_ofUnits neg n 1

theorem isBinary64_signed_zero (neg : Bool) : IsBinary64 (.fin neg 0) :=
  isBinary64_fin neg ⟨0, 0, by simp⟩ (Nat.mul_pos (by positivity) unit_pos)

theorem isBinary64_div (a b : F64) : IsBinary64 (div a b) := by
  match a, b with
  | .nan, _ | .inf _, .nan | .fin _ _, .nan | .inf _, .inf _ => exact isBinary64_nan
  | .inf a, .fin b _ => exact isBinary64_inf (a != b)
  | .fin a _, .inf b => exact isBinary64_signed_zero (a != b)
  | .fin a x, .fin b y =>
    rw [div]
    split_ifs
    · exact isBinary64_nan
    · exact isBinary64_inf _
    · exact isBinary64_ofUnits _ _ _

/-- A significand of 53 bits in the place `e` (R10). -/
theorem significand_mul_lt {f e k : Nat} (hf : f < 2 ^ 52) (hk : 53 + e ≤ k) : (2 ^ 52 + f) * 2 ^ e < 2 ^ k :=
  calc (2 ^ 52 + f) * 2 ^ e < 2 ^ 53 * 2 ^ e := Nat.mul_lt_mul_of_pos_right (by omega) (by positivity)
    _ = 2 ^ (53 + e) := (pow_add 2 _ _).symm
    _ ≤ 2 ^ k := Nat.pow_le_pow_right two_pos hk

theorem fraction_lt {f k : Nat} (hf : f < 2 ^ 52) (hk : 52 < k) : f < 2 ^ k :=
  hf.trans (Nat.pow_lt_pow_right one_lt_two hk)

theorem isBinary64_ofBits (w : Word) : IsBinary64 (ofBits w) := by
  have hfrac : w.toNat % 2 ^ 52 < 2 ^ 52 := Nat.mod_lt _ (by positivity)
  have hexp : w.toNat / 2 ^ 52 % 2 ^ 11 < 2 ^ 11 := Nat.mod_lt _ (by positivity)
  have hbound {mag : Nat} (h : mag < 2 ^ 2098) : mag < 2 ^ 1024 * unit := by rwa [overflow_eq]
  unfold ofBits
  generalize w.toNat % 2 ^ 52 = f at *
  generalize w.toNat / 2 ^ 52 % 2 ^ 11 = e at *
  dsimp only
  split_ifs with hmax hinf hsub
  · exact isBinary64_inf _
  · exact isBinary64_nan
  · exact isBinary64_fin _ ⟨f, 0, by omega, by simp⟩ (hbound (fraction_lt hfrac (by decide)))
  · exact isBinary64_fin _ ⟨2 ^ 52 + f, e - 1, by omega, rfl⟩ (hbound (significand_mul_lt hfrac (by omega)))

/-- The patterns below that of 1.0 are the values from 0 up to 1 (R203). -/
theorem ofBits_below_one {i : Nat} (h : i < 0x3FF0000000000000) : ∃ mag, mag < unit ∧ ofBits (BitVec.ofNat 64 i) = .fin false mag := by
  have hnat : (BitVec.ofNat 64 i).toNat = i := toNat_ofNat_of_lt (by omega)
  have hsign : (BitVec.ofNat 64 i).msb = false := by
    rw [BitVec.msb_eq_decide, hnat]
    simp; omega
  have hexp : i / 2 ^ 52 % 2 ^ 11 = i / 2 ^ 52 := Nat.mod_eq_of_lt (by omega)
  have hbound : i / 2 ^ 52 < 0x3FF := by omega
  have hfrac : i % 2 ^ 52 < 2 ^ 52 := Nat.mod_lt _ (by positivity)
  unfold ofBits
  rw [hsign, hnat, hexp]
  generalize i % 2 ^ 52 = f at *
  generalize i / 2 ^ 52 = e at *
  dsimp only
  rw [if_neg (by omega)]
  split_ifs
  · exact ⟨f, fraction_lt (k := 1074) hfrac (by decide), rfl⟩
  · exact ⟨_, significand_mul_lt (k := 1074) hfrac (by omega), rfl⟩

/-! ### Values not below zero -/

theorem lt_fin_zero {neg : Bool} {mag : Nat} : lt (.fin neg mag) zero = false ↔ 0 ≤ signed neg mag := by
  simp [lt, zero, signed]

theorem signed_le (neg : Bool) (mag : Nat) : signed neg mag ≤ mag := by
  cases neg
  · exact le_rfl
  · simp [signed]

theorem nonneg_ofUnits {neg : Bool} {units : Nat} (h : 0 ≤ signed neg units) : lt (ofUnits neg units) zero = false := by
  cases neg with
  | false => rcases ofUnits_cases false units with heq | heq <;> rw [heq] <;> simp [lt, zero, signed]
  | true =>
    obtain rfl : units = 0 := by simpa [signed] using h
    rw [ofUnits_zero]
    exact lt_fin_zero.2 h

theorem signed_nonneg_of_roundUnits {neg : Bool} {num : Nat} (h : 0 ≤ signed neg num) (den scale : Nat) :
    0 ≤ signed neg (roundUnits (num * scale) den) := by
  cases neg with
  | false => simp [signed]
  | true =>
    obtain rfl : num = 0 := by simpa [signed] using h
    simp [signed]

theorem nonneg_add (ha : lt a zero = false) (hb : lt b zero = false) : lt (add a b) zero = false := by
  match a, b with
  | .nan, _ | .inf _, .nan | .fin _ _, .nan => rfl
  | .inf _, .fin _ _ => exact ha
  | .fin _ _, .inf _ => exact hb
  | .inf a, .inf b => cases a <;> cases b <;> simp_all [add, lt, zero]
  | .fin a x, .fin b y =>
    obtain ⟨neg, n, hsum, hadd, -⟩ := add_fin a b x y
    rw [lt_fin_zero] at ha hb
    have hn : 0 ≤ signed neg n := by omega
    rw [hadd]
    exact nonneg_ofUnits (by simpa using signed_nonneg_of_roundUnits hn 1 1)

theorem ofNat_cases (n : Nat) : (∃ mag, ofNat n = .fin false mag) ∨ ofNat n = .inf false :=
  (ofUnits_cases false _).imp_left fun h => ⟨_, h⟩

theorem nonneg_ofNat (n : Nat) : lt (ofNat n) zero = false := nonneg_ofUnits (by simp [signed])

theorem nonneg_div_ofNat (ha : lt a zero = false) (n : Nat) : lt (div a (ofNat n)) zero = false := by
  rcases ofNat_cases n with ⟨y, heq⟩ | heq <;> rw [heq]
  · match a with
    | .nan => rfl
    | .inf a => cases a <;> simp_all [div, lt, zero]
    | .fin a x =>
      rw [lt_fin_zero] at ha
      rw [div]
      split_ifs with hy hx
      · rfl
      · cases a <;> simp_all [lt, zero, signed]
      · rw [Bool.bne_false]
        exact nonneg_ofUnits (signed_nonneg_of_roundUnits ha y unit)
  · match a with
    | .nan | .inf _ => rfl
    | .fin a x => simp [div, lt, zero, signed]

/-! ### Values without weight -/

/-- A weight of zero, or what normalising one by a total that is no number gives (R217). -/
def Weightless (v : F64) : Prop := v.isZero = true ∨ v = .nan

theorem isZero_iff : v.isZero = true ↔ ∃ neg, v = .fin neg 0 := by
  cases v <;> simp [isZero]

theorem weightless_iff : Weightless v ↔ (∃ neg, v = .fin neg 0) ∨ v = .nan := by
  rw [Weightless, isZero_iff]

theorem Weightless.zero_not_lt (h : Weightless v) : lt zero v = false := by
  rcases weightless_iff.1 h with ⟨neg, rfl⟩ | rfl
  · cases neg <;> simp [lt, zero, signed]
  · rfl

/-- What lies below a weightless value lies below zero. -/
theorem Weightless.not_lt (h : Weightless v) (hx : lt x zero = false) : lt x v = false := by
  rcases weightless_iff.1 h with ⟨neg, rfl⟩ | rfl
  · have hzero : lt x (.fin neg 0) = lt x zero := by cases neg <;> cases x <;> simp [lt, zero, signed]
    rw [hzero, hx]
  · cases x <;> rfl

/-- Adding a weightless value to a cumulative weight puts no further position below it (R221). -/
theorem Weightless.not_lt_add (h : Weightless v) (hu : IsBinary64 u) (hx : lt x u = false) : lt x (add u v) = false := by
  rcases weightless_iff.1 h with ⟨neg, rfl⟩ | rfl
  · match u with
    | .nan | .inf _ => exact hx
    | .fin a y =>
      obtain ⟨hrep, hbound⟩ := hu.ofFin a y rfl
      obtain ⟨neg', n, hsum, hadd, -⟩ := add_fin a neg y 0
      rw [signed_eq_zero.2 rfl, add_zero] at hsum
      obtain rfl : y = n := by simpa using congrArg Int.natAbs hsum
      rw [hadd, roundUnits_of_representable hrep, ofUnits_of_lt hbound]
      have hsame : lt x (.fin neg' y) = lt x (.fin a y) := by cases x <;> simp [lt, hsum]
      rw [hsame, hx]
  · cases u <;> cases x <;> rfl

theorem weightless_signed_zero (neg : Bool) : Weightless (.fin neg 0) := .inl rfl

theorem Weightless.div (h : Weightless v) (hu : u.isZero = false) : Weightless (div v u) := by
  rcases weightless_iff.1 h with ⟨neg, rfl⟩ | rfl
  · match u with
    | .nan => exact .inr rfl
    | .inf b => exact weightless_signed_zero (neg != b)
    | .fin b y =>
      have hy : y ≠ 0 := by simpa [isZero] using hu
      rw [F64.div, if_neg hy, Nat.zero_mul, roundUnits_zero_left, ofUnits_zero]
      exact weightless_signed_zero _
  · exact .inr rfl

end F64

namespace Machine

variable {N : Nat} {w : F64}

/-! ### The split of one weight (R216) -/

/-- The floor of the rounded product, or where that is no finite number the exact floor (R216, assumption log 8). The definition is unfolded
before it is applied: a check of the applied one would evaluate the product. -/
theorem guaranteed_cases (N : Nat) (w : F64) :
    (∃ neg mag, scaled N w = .fin neg mag ∧ guaranteed N w = mag / F64.unit) ∨
    ((∀ neg mag, scaled N w ≠ .fin neg mag) ∧ ∀ neg mag, w = .fin neg mag → guaranteed N w = N * mag / F64.unit) := by
  obtain ⟨g, hg⟩ : ∃ g, g = guaranteed := ⟨_, rfl⟩
  rw [← hg]
  delta guaranteed at hg
  subst hg
  beta_reduce
  generalize scaled N w = t
  cases t with
  | fin neg mag => exact .inl ⟨neg, mag, rfl, rfl⟩
  | nan | inf => exact .inr ⟨nofun, fun neg mag hw => hw ▸ rfl⟩

theorem guaranteed_of_fin {neg : Bool} {mag : Nat} (h : scaled N w = .fin neg mag) : guaranteed N w = mag / F64.unit := by
  rcases guaranteed_cases N w with ⟨neg', mag', hfin, hg⟩ | ⟨hnot, -⟩
  · rw [h] at hfin
    cases hfin
    exact hg
  · exact absurd h (hnot neg mag)

theorem guaranteed_of_not_fin {neg : Bool} {mag : Nat} (h : ∀ neg' t, scaled N (.fin neg mag) ≠ .fin neg' t) :
    guaranteed N (.fin neg mag) = N * mag / F64.unit := by
  rcases guaranteed_cases N (.fin neg mag) with ⟨neg', t, hfin, -⟩ | ⟨-, hg⟩
  · exact absurd hfin (h neg' t)
  · exact hg neg mag rfl

theorem scaled_fin (hN : N ≤ 2 ^ 53) (neg : Bool) (mag : Nat) :
    scaled N (.fin neg mag) = F64.ofUnits neg (F64.roundUnits (N * mag * F64.unit) F64.unit) := by
  rw [scaled, F64.ofNat_exact hN, F64.mul, Bool.false_bne, ← F64.unit, Nat.mul_right_comm]

/-- A weight of zero has no guaranteed copy and no residue. -/
theorem split_zero_weight (N : Nat) (h : w.isZero = true) : guaranteed N w = 0 ∧ F64.Weightless (residue N w) := by
  obtain ⟨neg, rfl⟩ := F64.isZero_iff.1 h
  have hscaled : (∃ neg', scaled N (.fin neg 0) = .fin neg' 0) ∨ scaled N (.fin neg 0) = .nan := by
    unfold scaled
    rcases F64.ofNat_cases N with ⟨mag, heq⟩ | heq <;> rw [heq]
    · exact .inl ⟨_, by rw [F64.mul, Nat.mul_zero, F64.roundUnits_zero_left, F64.ofUnits_zero]⟩
    · rw [F64.mul, if_pos rfl]
      exact .inr rfl
  rcases hscaled with ⟨neg', heq⟩ | heq
  · have hg : guaranteed N (.fin neg 0) = 0 := by rw [guaranteed_of_fin heq, Nat.zero_div]
    refine ⟨hg, ?_⟩
    rw [residue, hg, heq, F64.ofNat_exact (Nat.zero_le _), Nat.zero_mul, F64.sub_of_diff_zero (by simp [F64.signed])]
    exact F64.weightless_signed_zero _
  · refine ⟨?_, ?_⟩
    · rw [guaranteed_of_not_fin (by simp [heq]), Nat.mul_zero, Nat.zero_div]
    · rw [residue, heq]
      exact .inr rfl

/-- The exact floor of N * w is guaranteed, or more copies than there are particles are: an integer of 53 bits that the exact product
reaches, the rounded one reaches too (R216, R232). -/
theorem floor_le_guaranteed (hN : N < 2 ^ 53) (neg : Bool) {mag : Nat} (hg : guaranteed N (.fin neg mag) ≤ N) :
    N * mag / F64.unit ≤ guaranteed N (.fin neg mag) := by
  have hscaled := scaled_fin hN.le neg mag
  rcases F64.ofUnits_cases neg (F64.roundUnits (N * mag * F64.unit) F64.unit) with heq | heq <;> rw [heq] at hscaled
  · have hreach {k : Nat} (hk : k ≤ 2 ^ 53) (hle : k ≤ N * mag / F64.unit) : k ≤ guaranteed N (.fin neg mag) := by
      rw [Nat.le_div_iff_mul_le F64.unit_pos] at hle
      rw [guaranteed_of_fin hscaled, Nat.le_div_iff_mul_le F64.unit_pos]
      exact F64.le_roundUnits F64.unit_pos ⟨k, 1074, hk, rfl⟩ (Nat.mul_le_mul_right _ hle)
    by_cases hk : N * mag / F64.unit ≤ 2 ^ 53
    · exact hreach hk le_rfl
    · have := hreach le_rfl (not_le.1 hk).le
      omega
  · exact (guaranteed_of_not_fin (by simp [hscaled])).ge

end Machine

end Sys2Proof
end

section
/-! PROOFS. Draws, particles without weight, and the guaranteed copies (spec/44_resample.md R203, R204, R231, R232). -/

namespace Sys2Proof.Machine

/-! ### Draws (R203, R204) -/

/-- U01Draw's patterns stand for the values from 0 up to 1, -0 among them (R203). -/
theorem ofBits_u01Bits (c : Config) (sl : Slot) :
    ∃ neg mag, F64.ofBits (u01Bits c sl) = .fin neg mag ∧ mag < F64.unit ∧ 0 ≤ F64.signed neg mag := by
  have hindex := (c.u01Index sl.key sl.ctr sl.buf sl.cur).isLt
  unfold u01Bits
  generalize (c.u01Index sl.key sl.ctr sl.buf sl.cur).val = i at *
  dsimp only
  split
  · exact ⟨true, 0, by decide +kernel, F64.unit_pos, le_rfl⟩
  · obtain ⟨mag, hmag, heq⟩ := F64.ofBits_below_one (i := i) (by omega)
    exact ⟨false, mag, heq, hmag, by simp [F64.signed]⟩

theorem u01Bits_nonneg (c : Config) (sl : Slot) : F64.lt (F64.ofBits (u01Bits c sl)) F64.zero = false := by
  obtain ⟨neg, mag, heq, -, hsign⟩ := ofBits_u01Bits c sl
  rw [heq, F64.lt_fin_zero]
  exact hsign

theorem u01Bits_lt_one (c : Config) (sl : Slot) : F64.lt (F64.ofBits (u01Bits c sl)) F64.one = true := by
  obtain ⟨neg, mag, heq, hmag, -⟩ := ofBits_u01Bits c sl
  rw [heq, F64.one, F64.lt, decide_eq_true_eq]
  calc F64.signed neg mag ≤ mag := F64.signed_le neg mag
    _ < F64.unit := Int.ofNat_lt.2 hmag

theorem zero_le_u01Bits (c : Config) (sl : Slot) : F64.le F64.zero (F64.ofBits (u01Bits c sl)) = true := by
  have hnonneg := u01Bits_nonneg c sl
  obtain ⟨neg, mag, heq, -, -⟩ := ofBits_u01Bits c sl
  rw [F64.le, hnonneg, heq]
  rfl

theorem binomVariate_le (c : Config) (sl : Slot) (n : Nat) (p : F64) : binomVariate c sl n p ≤ n := by
  unfold binomVariate
  split_ifs
  · exact Nat.zero_le n
  · exact le_rfl
  · exact Nat.le_of_lt_succ (Fin.isLt _)

theorem binomVariate_of_isZero {p : F64} (h : p.isZero = true) (c : Config) (sl : Slot) (n : Nat) :
    binomVariate c sl n p = 0 := if_pos h

theorem binomVariate_one (c : Config) (sl : Slot) (n : Nat) : binomVariate c sl n F64.one = n := by
  have hone : F64.one.isZero = false := by decide +kernel
  rw [binomVariate, hone, if_neg Bool.false_ne_true, if_pos rfl]

theorem u01Draw_nonneg (c : Config) (k : Nat) (slots : List (Option Slot)) :
    F64.lt (u01Draw c (Draws.ofInstance c) k slots).1 F64.zero = false := by
  unfold u01Draw
  split
  · exact u01Bits_nonneg c _
  · rfl

/-! ### Positions are not below zero (R220) -/

theorem position_nonneg (K j : Nat) {u : F64} (hu : F64.lt u F64.zero = false) : F64.lt (position K j u) F64.zero = false :=
  F64.nonneg_div_ofNat (F64.nonneg_add (F64.nonneg_ofNat j) hu) K

theorem stratPosFrom_nonneg (c : Config) (K count j : Nat) (slots : List (Option Slot)) :
    ∀ x ∈ (stratPosFrom c (Draws.ofInstance c) K count j slots).1, F64.lt x F64.zero = false := by
  induction count generalizing j slots with
  | zero => exact nofun
  | succ n ih => exact List.forall_mem_cons.2 ⟨position_nonneg K j (u01Draw_nonneg c _ slots), ih (j + 1) _⟩

theorem sysPos_nonneg (c : Config) (K : Nat) (slots : List (Option Slot)) :
    ∀ x ∈ (sysPos c (Draws.ofInstance c) K slots).1, F64.lt x F64.zero = false := by
  intro x hx
  obtain ⟨j, -, rfl⟩ := List.mem_map.1 hx
  exact position_nonneg K j (u01Draw_nonneg c _ slots)

/-! ### Particles without weight (R231) -/

/-- An answer gives particle `i` no copy. -/
def PolicyResult.NoCopies (i : Nat) (r : PolicyResult) : Prop := ∀ rep slots, r = .ok (rep, slots) → rep.getD i 0 = 0

/-- The primitive draws for positive weights alone (R210). -/
theorem primitiveFrom_noCopies {c : Config} {d : Draws} {S i j : Nat} {v : List F64} {accW : F64} {accS : Nat} {drawn : Bool}
    {slots : List (Option Slot)} (hv : F64.lt F64.zero (v.getD i .zero) = false) :
    (primitiveFrom c d S v j accW accS drawn slots).NoCopies i := by
  intro rep slots' h
  induction v generalizing i j accW accS drawn slots rep with
  | nil =>
    rw [primitiveFrom] at h
    split at h <;> cases h
    rfl
  | cons x xs ih =>
    rcases primitiveFrom_cons c d S x xs j accW accS drawn slots with
      ⟨-, heq⟩ | ⟨-, -, heq⟩ | ⟨p, k, drawnSlots, ⟨-, hpos⟩, -, -, heq⟩ <;> rw [heq] at h
    · obtain ⟨rest, hrest, rfl⟩ := push_ok h
      match i with
      | 0 => rfl
      | i + 1 => exact ih hv _ hrest
    · cases h
    · obtain ⟨rest, hrest, rfl⟩ := push_ok h
      match i with
      | 0 => rw [List.getD_cons_zero, hpos] at hv; cases hv
      | i + 1 => exact ih hv _ hrest

theorem takeWhile_dropWhile_of_imp {α : Type} {p q : α → Bool} (h : ∀ x, p x = false → q x = false) (l : List α) :
    (l.dropWhile p).takeWhile q = [] := by
  induction l with
  | nil => rfl
  | cons x xs ih => cases hp : p x <;> simp [hp, ih, h]

/-- Between the first and the last particle, one without weight gets no position: those below its cumulative weight lay below the one
before (R221). -/
theorem scanFrom_weightless {cw : F64} {vs : List F64} {i : Nat} (hcw : F64.IsBinary64 cw)
    (hv : F64.Weightless (vs.getD i .zero)) (hlast : i + 1 < vs.length) (pos : List F64) :
    (scanFrom cw vs pos).getD (i + 1) 0 = 0 := by
  induction vs generalizing cw i pos with
  | nil => simp at hlast
  | cons v vs ih =>
    rw [scanFrom, List.getD_cons_succ]
    match i, vs with
    | 0, v' :: vs =>
      have hv : F64.Weightless v := hv
      rw [scanFrom, List.getD_cons_zero, takeWhile_dropWhile_of_imp (p := fun x => F64.lt x cw) fun x hx => hv.not_lt_add hcw hx]
      rfl
    | i + 1, vs => exact ih (F64.isBinary64_add cw v) hv (by simpa using hlast) _

theorem scan_weightless {v pos : List F64} {i : Nat} (hbits : ∀ x ∈ v, F64.IsBinary64 x) (hv : F64.Weightless (v.getD i .zero))
    (hlast : i + 1 < v.length) (hpos : ∀ x ∈ pos, F64.lt x F64.zero = false) : (scan v pos).getD i 0 = 0 := by
  match v, i with
  | v0 :: v1 :: vs, 0 =>
    have hnone : pos.takeWhile (fun x => F64.lt x v0) = [] := by
      rw [List.takeWhile_eq_nil_iff]
      intro hlen
      simpa using F64.Weightless.not_lt hv (hpos _ (List.get_mem pos ⟨0, hlen⟩))
    rw [scan, scanFrom, hnone]
    rfl
  | v0 :: vs, i + 1 => exact scanFrom_weightless (cw := v0) (vs := vs) (hbits v0 (by simp)) hv (by simpa using hlast) pos

theorem scanPolicy_noCopies {v : List F64} {i : Nat} {positions : List F64 × List (Option Slot)}
    (hbits : ∀ x ∈ v, F64.IsBinary64 x) (hv : F64.Weightless (v.getD i .zero)) (hlast : i + 1 < v.length)
    (hpos : ∀ x ∈ positions.1, F64.lt x F64.zero = false) : (scanPolicy positions v).NoCopies i := by
  intro rep slots h
  cases h
  exact scan_weightless hbits hv hlast hpos

theorem zipWith_add_getD_eq_zero {g rp : List Nat} {i : Nat} (hg : g.getD i 0 = 0) (hrp : rp.getD i 0 = 0) :
    (List.zipWith (· + ·) g rp).getD i 0 = 0 := by
  simp only [List.getD_eq_getElem?_getD, List.getElem?_zipWith] at hg hrp ⊢
  cases hgi : g[i]? <;> cases hri : rp[i]? <;> simp_all

/-- Split and Normalise leave a particle of weight zero no guaranteed copy and no weight (R216, R217). -/
theorem residualPolicy_noCopies {inner : (S : Nat) → List F64 → List (Option Slot) → PolicyResult} {w : List F64} {i : Nat}
    {slots : List (Option Slot)} (hw : (w.getD i .zero).isZero = true) (hi : i < w.length)
    (hinner : ∀ S rw, rw.length = w.length → (∀ x ∈ rw, F64.IsBinary64 x) → F64.Weightless (rw.getD i .zero) →
      (inner S rw slots).NoCopies i) : (residualPolicy inner w slots).NoCopies i := by
  intro rep slots' h
  rw [List.getD_eq_getElem _ _ hi] at hw
  obtain ⟨hguaranteed, hresidue⟩ := split_zero_weight w.length hw
  have hg : (w.map (guaranteed w.length)).getD i 0 = 0 := by
    rwa [List.getD_eq_getElem _ _ (by simpa using hi), List.getElem_map]
  obtain ⟨-, ⟨-, rfl, -⟩ | ⟨-, htot, rp, hok, rfl⟩⟩ := residualPolicy_ok h
  · exact hg
  · have hrp : rp.getD i 0 = 0 := by
      refine hinner _ _ (by simp) (fun x hx => ?_) ?_ rp slots' hok
      · obtain ⟨r, -, rfl⟩ := List.mem_map.1 hx
        exact F64.isBinary64_div _ _
      · rw [List.getD_eq_getElem _ _ (by simpa using hi), List.getElem_map, List.getElem_map]
        exact hresidue.div htot
    exact zipWith_add_getD_eq_zero hg hrp

theorem policies_noCopies : ∀ x ∈ resamplePolicies, ∀ o c w slots i, (∀ y ∈ w, F64.IsBinary64 y) →
    (w.getD i .zero).isZero = true → i < w.length →
    (x.1 o = .resampleMultinomial o ∨ x.1 o = .resampleResidual o ∨ i + 1 < w.length) →
    (x.2 c (Draws.ofInstance c) w slots).NoCopies i := by
  simp only [resamplePolicies, List.forall_mem_cons]
  refine ⟨?_, ?_, ?_, ?_, ?_, ?_, nofun⟩ <;> intro o c w slots i hbits hw hi hlast <;>
    simp only [reduceCtorEq, false_or, true_or] at hlast
  · exact primitiveFrom_noCopies (F64.Weightless.zero_not_lt (.inl hw))
  · exact residualPolicy_noCopies hw hi fun S rw _ _ hrw => primitiveFrom_noCopies hrw.zero_not_lt
  · exact scanPolicy_noCopies hbits (.inl hw) hlast (stratPosFrom_nonneg c _ _ 0 slots)
  · exact scanPolicy_noCopies hbits (.inl hw) hlast (sysPos_nonneg c _ slots)
  · exact residualPolicy_noCopies hw hi fun S rw hlen hrw hweightless =>
      scanPolicy_noCopies hrw hweightless (hlen ▸ hlast) (stratPosFrom_nonneg c S S 0 slots)
  · exact residualPolicy_noCopies hw hi fun S rw hlen hrw hweightless =>
      scanPolicy_noCopies hrw hweightless (hlen ▸ hlast) (sysPos_nonneg c S slots)

/-! ### The guaranteed copies (R216, R232) -/

/-- A residual policy that answers gives every particle its guaranteed copies, and these are at most N. -/
theorem guaranteed_le_of_residualPolicy {inner : (S : Nat) → List F64 → List (Option Slot) → PolicyResult} {w : List F64}
    {slots slots' : List (Option Slot)} {rep : List Nat} (h : residualPolicy inner w slots = .ok (rep, slots')) {i : Nat}
    (hi : i < w.length) (hlen : rep.length = w.length) :
    guaranteed w.length (w.getD i .zero) ≤ w.length ∧ guaranteed w.length (w.getD i .zero) ≤ rep.getD i 0 := by
  rw [List.getD_eq_getElem _ _ hi, List.getD_eq_getElem _ _ (hlen ▸ hi)]
  obtain ⟨hsum, hends⟩ := residualPolicy_ok h
  refine ⟨(List.le_sum_of_mem (List.mem_map_of_mem (List.getElem_mem hi))).trans hsum, ?_⟩
  obtain ⟨-, rfl, -⟩ | ⟨-, -, rp, -, rfl⟩ := hends
  · simp
  · simp

/-- The three residual commands run residual policies (R218, R224, R225). -/
theorem residual_commands {mk : ResampleOps → Instr}
    (hmk : mk ∈ [Instr.resampleResidual, .resampleResidualStratified, .resampleResidualSystematic]) :
    ∃ policy, (mk, policy) ∈ resamplePolicies ∧
      ∀ c d w slots, ∃ inner, policy c d w slots = residualPolicy inner w slots := by
  simp only [List.mem_cons, List.not_mem_nil, or_false] at hmk
  rcases hmk with rfl | rfl | rfl
  · exact ⟨policyResidual, by simp [resamplePolicies], fun c d w slots => ⟨_, rfl⟩⟩
  · exact ⟨policyResidualStratified, by simp [resamplePolicies], fun c d w slots => ⟨_, rfl⟩⟩
  · exact ⟨policyResidualSystematic, by simp [resamplePolicies], fun c d w slots => ⟨_, rfl⟩⟩

end Sys2Proof.Machine

open Sys2Proof Sys2Proof.Machine

/-- Settles O57: the variates and the numbers of NEXTs are functions of the slot's registers. -/
theorem drawsObeyTheirLaws : Obligations.DrawsObeyTheirLaws := by
  refine fun c sl => ⟨⟨F64.ofBits (u01Bits c sl), c.u01ExtraNexts sl.key sl.ctr sl.buf sl.cur + 1, zero_le_u01Bits c sl,
      u01Bits_lt_one c sl, Nat.le_add_left 1 _, fun k slots hk => ?_⟩, fun n p =>
    ⟨binomVariate c sl n p, c.binomNexts sl.key sl.ctr sl.buf sl.cur n p.toBits, binomVariate_le c sl n p,
      fun hp => binomVariate_of_isZero hp c sl n, fun hp => hp ▸ binomVariate_one c sl n, fun k slots hk => ?_⟩⟩
  · rw [u01Draw, hk]
    rfl
  · rw [binomDraw, hk]
    rfl

/-- Settles O54: the stored count is the policy's, which is 0 for a particle without weight. -/
theorem zeroWeightsGetNoCopies : Obligations.ZeroWeightsGetNoCopies := by
  intro x hx o s t i hrun hwf hexec hdone hi hzero hlast
  obtain ⟨rep, slots, -, hok, hstored⟩ := resample_counts hx hrun hwf hexec hdone (Nat.zero_lt_of_lt hi)
  have hread : (readWeights s.mem (weightFoot o)).getD i .zero = storedWeight o s i := readWeights_getD _ _ i hi
  rw [hstored i hi]
  refine policies_noCopies x hx o s.cfg (readWeights s.mem (weightFoot o)) s.slots i (fun y hy => ?_) (by rwa [hread])
    (by simpa using hi) (by simpa using hlast) rep slots hok
  obtain ⟨j, -, rfl⟩ := List.mem_map.1 hy
  exact F64.isBinary64_ofBits _

/-- Settles O55: the stored count is at least the guaranteed one, which is at least the exact floor. -/
theorem residualPoliciesGiveTheFloor : Obligations.ResidualPoliciesGiveTheFloor := by
  intro mk hmk o s t i neg mag hrun hwf hexec hdone hi hweight
  obtain ⟨policy, hx, hresidual⟩ := residual_commands hmk
  obtain ⟨rep, slots, h, hok, hstored⟩ := resample_counts hx hrun hwf hexec hdone (Nat.zero_lt_of_lt hi)
  obtain ⟨hlen, -⟩ := policyOn_places hx h hok
  obtain ⟨inner, hinner⟩ := hresidual s.cfg (Draws.ofInstance s.cfg) (readWeights s.mem (weightFoot o)) s.slots
  have hread : (readWeights s.mem (weightFoot o)).getD i .zero = .fin neg mag := (readWeights_getD _ _ i hi).trans hweight
  have hbound := h.operands.nBound
  obtain ⟨hleN, hleRep⟩ := guaranteed_le_of_residualPolicy (hinner.symm.trans hok) (by simpa using hi) (by simpa using hlen)
  rw [readWeights_length, weightFoot_n, hread] at hleN hleRep
  rw [hstored i hi]
  exact (floor_le_guaranteed (by omega) neg hleN).trans hleRep
end

section
/-! PROOFS. Clamp by its bounds, Split and Normalise by their branches, and a product that overflows (spec/44_resample.md R211, R216, R217,
assumption log 8). -/

namespace Sys2Proof.F64

theorem isNan_iff {p : F64} : p.isNan = true ↔ p = .nan := by cases p <;> simp [isNan]

theorem not_lt_one_of_lt_zero {p : F64} (h : lt p zero = true) : lt one p = false := by
  match p with
  | .nan => rfl
  | .inf neg => cases neg <;> simp_all [lt, zero, one]
  | .fin neg mag =>
    have hneg : signed neg mag < 0 := by simpa [lt, zero, signed] using h
    have hunit := unit_pos
    rw [one, lt, decide_eq_false_iff_not]
    change ¬ (unit : Int) < signed neg mag
    omega

end Sys2Proof.F64

namespace Sys2Proof.Machine

/-! ### Clamp (R211) -/

theorem clamp_eq_none_iff {tol : F64} (htol : tol = F64.ofBits Config.probTol) (p : F64) :
    clamp p = none ↔ p = .nan ∨ F64.lt p tol.negate = true ∨ F64.lt (F64.add F64.one tol) p = true := by
  subst htol
  rw [← F64.isNan_iff, clamp]
  generalize F64.ofBits Config.probTol = tol
  simp only [Bool.or_eq_true, or_assoc]
  split_ifs with hout hlow hhigh <;> simp [hout]

theorem clamp_eq_some {p q : F64} (h : clamp p = some q) :
    (F64.lt p F64.zero = true → q = F64.zero) ∧ (F64.lt F64.one p = true → q = F64.one) ∧
      (F64.lt p F64.zero = false → F64.lt F64.one p = false → q = p) := by
  rw [clamp] at h
  generalize F64.ofBits Config.probTol = tol at h
  split_ifs at h with hout hlow hhigh <;> cases h
  · exact ⟨fun _ => rfl, fun hone => absurd hone (by simp [F64.not_lt_one_of_lt_zero hlow]), fun hzero => by simp [hlow] at hzero⟩
  · exact ⟨fun hzero => absurd hzero hlow, fun _ => rfl, fun _ hone => by simp [hhigh] at hone⟩
  · exact ⟨fun hzero => absurd hzero hlow, fun hone => absurd hone hhigh, fun _ _ => rfl⟩

/-! ### The branches of a residual policy (R216-R218) -/

section
variable {inner : (S : Nat) → List F64 → List (Option Slot) → PolicyResult} {w : List F64} {slots : List (Option Slot)}

theorem residualPolicy_of_too_many (h : w.length < (w.map (guaranteed w.length)).sum) :
    residualPolicy inner w slots = .error ⟨.sumMismatch, (w.map (guaranteed w.length)).sum, false⟩ := if_pos h

theorem residualPolicy_of_all (h : (w.map (guaranteed w.length)).sum = w.length) :
    residualPolicy inner w slots = .ok (w.map (guaranteed w.length), slots) := by
  rw [residualPolicy, if_neg (by omega), if_pos (by omega)]

theorem residualPolicy_of_no_weight (h : (w.map (guaranteed w.length)).sum < w.length)
    (htot : (total (w.map (residue w.length))).isZero = true) :
    residualPolicy inner w slots = .error ⟨.sumMismatch, (w.map (guaranteed w.length)).sum, false⟩ := by
  rw [residualPolicy, if_neg (by omega), if_neg (by omega), if_pos htot]

theorem residualPolicy_of_left (h : (w.map (guaranteed w.length)).sum < w.length)
    (htot : (total (w.map (residue w.length))).isZero = false) {res : PolicyResult}
    (hres : inner (w.length - (w.map (guaranteed w.length)).sum)
      ((w.map (residue w.length)).map fun x => F64.div x (total (w.map (residue w.length)))) slots = res) :
    (∀ rp slots', res = .ok (rp, slots') →
      residualPolicy inner w slots = .ok (List.zipWith (· + ·) (w.map (guaranteed w.length)) rp, slots')) ∧
    ∀ f, res = .error f → residualPolicy inner w slots = .error f := by
  rw [residualPolicy, if_neg (by omega), if_neg (by omega), if_neg (by simp [htot])]
  simp only [hres]
  cases res with
  | ok x => exact ⟨fun rp slots' h => by cases h; rfl, nofun⟩
  | error f => exact ⟨nofun, fun f' h => by cases h; rfl⟩

end

/-! ### Split (R216) -/

theorem split_element {N k mag : Nat} {x : F64} {neg : Bool} (hscaled : scaled N x = .fin neg mag) (hlow : k * F64.unit ≤ mag)
    (hhigh : mag < (k + 1) * F64.unit) : guaranteed N x = k ∧ residue N x = F64.sub (.fin neg mag) (F64.ofNat k) := by
  have hg : guaranteed N x = k := (guaranteed_of_fin hscaled).trans (Nat.div_eq_of_lt_le hlow hhigh)
  exact ⟨hg, by rw [residue, hscaled, hg]⟩

/-- What R216 says of each element determines the copies and the residues. -/
theorem SplitInto.eq_map {w : List F64} {g : List Nat} {r : List F64} (h : SplitInto w g r) :
    g = w.map (guaranteed w.length) ∧ r = w.map (residue w.length) := by
  have helement (i : Nat) (hi : i < w.length) :
      guaranteed w.length (w.getD i .zero) = g.getD i 0 ∧ residue w.length (w.getD i .zero) = r.getD i .zero := by
    obtain ⟨-, neg, mag, hmul, hlow, hhigh, hr⟩ := h.element i hi
    exact hr ▸ split_element hmul hlow hhigh
  constructor
  · refine List.ext_getElem (by simp [h.gLength]) fun i hi hi' => ?_
    have hiw : i < w.length := by simpa using hi'
    rw [List.getElem_map, ← List.getD_eq_getElem g 0 hi, ← (helement i hiw).1, List.getD_eq_getElem w _ hiw]
  · refine List.ext_getElem (by simp [h.rLength]) fun i hi hi' => ?_
    have hiw : i < w.length := by simpa using hi'
    rw [List.getElem_map, ← List.getD_eq_getElem r .zero hi, ← (helement i hiw).2, List.getD_eq_getElem w _ hiw]

theorem representable_two_pow (e : Nat) : RepresentableUnits (2 ^ e * F64.unit) :=
  ⟨1, e + 1074, by decide, by rw [F64.unit, one_mul, pow_add]⟩

theorem two_pow_mul_unit_lt {m n : Nat} (h : m < n) : 2 ^ m * F64.unit < 2 ^ n * F64.unit :=
  Nat.mul_lt_mul_of_pos_right (Nat.pow_lt_pow_right one_lt_two h) F64.unit_pos

/-- A valid weight whose product with N overflows has an exact product above N (assumption log 8). -/
theorem lt_guaranteed_of_overflow {N : Nat} (hN : N < 2 ^ 32) {x : F64} (hgood : weightBad x = false)
    (hmul : F64.mul (F64.ofNat N) x = .inf false) : N < guaranteed N x := by
  cases x with
  | nan => cases hgood
  | inf neg => cases neg <;> simp [weightBad, F64.lt, F64.zero] at hgood
  | fin neg mag =>
    have hscaled : scaled N (.fin neg mag) = .inf false := hmul
    rw [guaranteed_of_not_fin (by simp [hscaled])]
    have hover : 2 ^ 1024 * F64.unit ≤ F64.roundUnits (N * mag * F64.unit) F64.unit := by
      by_contra hlt
      rw [scaled_fin (by omega), F64.ofUnits_of_lt (not_le.1 hlt)] at hscaled
      cases hscaled
    have hexact : 2 ^ 1023 * F64.unit ≤ N * mag := by
      by_contra hlt
      have hround := F64.roundUnits_le F64.unit_pos (representable_two_pow 1023)
        (Nat.mul_le_mul_right F64.unit (not_le.1 hlt).le)
      exact absurd (hover.trans hround) (not_le.2 (two_pow_mul_unit_lt (m := 1023) (n := 1024) (by decide)))
    have hpow : (2 : Nat) ^ 32 ≤ 2 ^ 1023 := pow_le_pow_right₀ one_le_two (by decide)
    exact hN.trans_le (hpow.trans ((Nat.le_div_iff_mul_le F64.unit_pos).2 hexact))

end Sys2Proof.Machine

open Sys2Proof Sys2Proof.Machine

/-- Settles O60: the loops by induction on what is left of them, Clamp and Split by their branches. -/
theorem policiesAreTheLoopsOfTheRules : Obligations.PoliciesAreTheLoopsOfTheRules := by
  refine ⟨fun c d w slots => ⟨primitive_eq_primitiveRule c d w.length w slots, ?_, fun hw => ⟨?_, ?_, ?_, ?_⟩⟩,
    fun tol htol => ?_, fun inner w slots => ⟨fun g r hsplit => ?_, fun hN hgood ⟨x, hx, hmul⟩ => ?_⟩⟩
  · exact congrArg (fun inner => residualPolicy inner w slots)
      (funext fun S => funext fun ws => funext fun sl => primitive_eq_primitiveRule c d S ws sl)
  · exact scanStratPos_eq hw c d w.length slots
  · exact scanSysPos_eq hw c d w.length slots
  · exact residualPolicy_congr hw fun S rw hrw => scanStratPos_eq hrw c d S slots
  · exact residualPolicy_congr hw fun S rw hrw => scanSysPos_eq hrw c d S slots
  · refine ⟨?_, ?_, ?_, fun p => ⟨clamp_eq_none_iff htol p, fun q hq => clamp_eq_some hq⟩⟩
    · subst htol; decide +kernel
    · subst htol; decide +kernel
    · decide +kernel
  · obtain ⟨rfl, rfl⟩ := hsplit.eq_map
    refine ⟨residualPolicy_of_too_many, residualPolicy_of_all, residualPolicy_of_no_weight, fun hleft htot => ⟨?_, ?_⟩⟩
    · exact fun rp slots' hok => (residualPolicy_of_left hleft htot rfl).1 rp slots' hok
    · exact fun f herr => (residualPolicy_of_left hleft htot rfl).2 f herr
  · have hmany : w.length < (w.map (guaranteed w.length)).sum :=
      (lt_guaranteed_of_overflow hN (hgood x hx) hmul).trans_le (List.le_sum_of_mem (List.mem_map_of_mem hx))
    exact ⟨_, hmany, residualPolicy_of_too_many hmany⟩
end

section
/-! PROOFS. The completion step of one message, and what no move but reset changes in the fault state (spec/60_exceptions.md R241-R252). -/

namespace Sys2Proof.Machine

variable {s t : State} {q : Nat} {c : InFlight} {rest : List Event}

/-! ### The completion step by what the message decodes to (R252) -/

theorem step_complete (hinputs : s.inputs = .complete q :: rest) : step s = completeStep q (s.withInputs rest) := by
  rw [step, hinputs]

theorem completeStep_of_decode {i : Instr} (hc : s.inFlight q = some c) (hdecode : decode s.cfg c.msg = .ok i) :
    completeStep q s = exec i (serve q s) := by
  rw [completeStep_of_inFlight hc, hdecode]

theorem completeStep_of_reject {r : Raise} (hc : s.inFlight q = some c) (hdecode : decode s.cfg c.msg = .error r) :
    completeStep q s = .next (rejectMessage c.msg r (serve q s)) := by
  rw [completeStep_of_inFlight hc, hdecode]

theorem rejectMessage_running (h : s.statusFault = false) (msg : List Word) (r : Raise) :
    rejectMessage msg r s = takeFault (msgOpc msg) (msgSlot msg) r s := by
  simp [rejectMessage, h]

theorem rejectMessage_slots (msg : List Word) (r : Raise) (s : State) : (rejectMessage msg r s).slots = s.slots := by
  rcases rejectMessage_cases msg r s with ⟨-, -, heq⟩ | ⟨-, heq⟩ <;> simp [heq]

theorem rejectMessage_inputs (msg : List Word) (r : Raise) (s : State) : (rejectMessage msg r s).inputs = s.inputs := by
  rcases rejectMessage_cases msg r s with ⟨-, -, heq⟩ | ⟨-, heq⟩ <;> simp [heq]

/-- A rejected message gets its cause's code, or in the fault state the refusal's unless its OPC is CSR_READ's (R243, R244). -/
theorem rejectMessage_outputs (msg : List Word) (r : Raise) (s : State) :
    (rejectMessage msg r s).outputs = .response s.serving [responseWord
      (if s.statusFault = true ∧ msgOpc msg ≠ Opcode.csrRead.code then Cause.refused.code else r.cause.code)
      (msgOpc msg)] :: s.outputs := by
  unfold rejectMessage
  split
  · exact refuse_outputs s _
  · exact takeFault_outputs s _ _ r

/-! ### The fault state (R241, R244, R247) -/

/-- The first fault's record and every slot are as they were. -/
structure FaultStateKept (s t : State) : Prop extends RecordSame s t where
  slots : t.slots = s.slots

namespace FaultStateKept

theorem of_refuse (opc : BitVec 8) (s : State) : FaultStateKept s (refuse opc s) := ⟨⟨rfl, rfl, rfl, rfl⟩, rfl⟩

/-- A fault in the fault state is not recorded (R241). -/
theorem of_takeFault (h : s.statusFault = true) (opc : BitVec 8) (slot : BitVec 32) (r : Raise) :
    FaultStateKept s (takeFault opc slot r s) where
  toRecordSame := ⟨by simp [h], by simp [h], by simp [h], by simp [h]⟩
  slots := by simp

/-- Only CSR_READ is performed in the fault state, and it changes neither record nor slots (R90, R244). -/
theorem of_exec {i : Instr} (h : s.statusFault = true) (hexec : exec i s = .next t) : FaultStateKept s t := by
  rw [exec_eq_perform] at hexec
  by_cases hi : i.opcode = .csrRead
  · obtain ⟨csr, slot, rfl⟩ : ∃ csr slot, i = .csrRead csr slot := by
      cases i with
      | csrRead csr slot => exact ⟨csr, slot, rfl⟩
      | _ => cases hi
    rw [perform_eq, if_neg fun hrefused => hrefused.2 hi] at hexec
    cases hexec
    rcases csrReadBody_cases csr slot s with ⟨r, heq⟩ | ⟨data, heq⟩ <;> rw [bodyOf, heq]
    · exact of_takeFault h _ _ r
    · exact ⟨⟨rfl, rfl, rfl, rfl⟩, rfl⟩
  · rw [perform_refused h hi] at hexec
    cases hexec
    exact of_refuse _ s

theorem of_rejectMessage (h : s.statusFault = true) (msg : List Word) (r : Raise) :
    FaultStateKept s (rejectMessage msg r s) := by
  rcases rejectMessage_cases msg r s with ⟨-, -, heq⟩ | ⟨-, heq⟩ <;> rw [heq]
  · exact of_refuse _ s
  · exact of_takeFault h _ _ r

theorem of_serve (h : FaultStateKept (serve q s) t) : FaultStateKept s t :=
  ⟨⟨h.statusFault, h.statusCause, h.faultInfo, h.faultLoc⟩, h.slots⟩

theorem of_withInputs (h : FaultStateKept (s.withInputs rest) t) : FaultStateKept s t :=
  ⟨⟨h.statusFault, h.statusCause, h.faultInfo, h.faultLoc⟩, h.slots⟩

theorem of_completeStep (h : s.statusFault = true) (hstep : completeStep q s = .next t) : FaultStateKept s t := by
  obtain ⟨c, -, ⟨i, -, hexec⟩ | ⟨r, -, rfl⟩⟩ := completeStep_cases hstep
  · exact (of_exec (s := serve q s) h hexec).of_serve
  · exact (of_rejectMessage (s := serve q s) h c.msg r).of_serve

/-- In the fault state no race is looked for (R251). -/
theorem of_issueStep {msg : List Word} (h : s.statusFault = true) (hstep : issueStep q msg s = .next t) :
    FaultStateKept s t := by
  obtain ⟨-, -, ⟨k, hrun, -⟩ | ⟨-, rfl⟩⟩ := issueStep_cases hstep
  · rw [h] at hrun
    cases hrun
  · exact ⟨⟨rfl, rfl, rfl, rfl⟩, rfl⟩

/-- In the fault state a host access is the access itself (R254). -/
theorem of_hostAccess {len : Nat} {write : Bool} {addr : Word} {access : State → State} (h : s.statusFault = true)
    (haccess : FaultStateKept s (access s)) (hstep : hostAccess q write addr len access s = .next t) :
    FaultStateKept s t := by
  obtain ⟨-, -, ⟨a, owner, msg, hrun, -⟩ | ⟨-, rfl⟩⟩ := hostAccess_cases hstep
  · rw [h] at hrun
    cases hrun
  · exact haccess

theorem of_step (h : s.statusFault = true) (hreset : ∀ rest, s.inputs ≠ .reset :: rest) (hstep : step s = .next t) :
    FaultStateKept s t := by
  rcases step_cases hstep with ⟨q, msg, rest, -, hissue⟩ | ⟨q, rest, -, hcomplete⟩ | ⟨q, addr, len, rest, -, hread⟩ |
    ⟨q, addr, bytes, rest, -, hwrite⟩ | ⟨rest, hinputs, -⟩ | ⟨-, q, -, hcomplete⟩ | ⟨-, -, rfl⟩
  · exact (of_issueStep (s := s.withInputs rest) h hissue).of_withInputs
  · exact (of_completeStep (s := s.withInputs rest) h hcomplete).of_withInputs
  · exact (of_hostAccess (s := s.withInputs rest) h ⟨⟨rfl, rfl, rfl, rfl⟩, rfl⟩ hread).of_withInputs
  · exact (of_hostAccess (s := s.withInputs rest) h ⟨⟨rfl, rfl, rfl, rfl⟩, rfl⟩ hwrite).of_withInputs
  · exact absurd hinputs (hreset rest)
  · exact of_completeStep h hcomplete
  · exact ⟨⟨rfl, rfl, rfl, rfl⟩, rfl⟩

end FaultStateKept

end Sys2Proof.Machine

open Sys2Proof Sys2Proof.Machine

/-- Settles O5: a pending completion move is the completion step, which performs what the message decodes to. -/
theorem stepPerformsTheDecodedCommand : Obligations.StepPerformsTheDecodedCommand := by
  intro s q c rest i hinputs hc hdecode
  rw [step_complete hinputs]
  exact completeStep_of_decode (s := s.withInputs rest) hc hdecode

/-- Settles O6: the rejection of the message is a precise fault, or in the fault state a response that records nothing. -/
theorem stepRaisesWhatDecodingRejects : Obligations.StepRaisesWhatDecodingRejects := by
  intro s q c rest r hinputs hc hdecode
  have hstep : step s = .next (rejectMessage c.msg r (serve q (s.withInputs rest))) :=
    (step_complete hinputs).trans (completeStep_of_reject (s := s.withInputs rest) hc hdecode)
  refine ⟨_, hstep, rejectMessage_inflight _ _ _, rejectMessage_slots _ _ _, rejectMessage_mem _ _ _,
    rejectMessage_inputs _ _ _, fun hrun => ?_, fun hfault => ?_⟩
  · rw [rejectMessage_running (s := serve q (s.withInputs rest)) hrun]
    exact faulted_takeFault _ _ r hrun
  · obtain ⟨⟨hstatus, hcause, hinfo, hloc⟩, -⟩ :=
      FaultStateKept.of_rejectMessage (s := serve q (s.withInputs rest)) hfault c.msg r
    refine ⟨hstatus.trans hfault, hcause, hinfo, hloc, ?_⟩
    rw [rejectMessage_outputs]
    by_cases hcsr : msgOpc c.msg = 0x01 <;> simp [hfault, hcsr, Opcode.code, Cause.code]

/-- Settles O22, by the refusal of R244. -/
theorem faultStateRefusesAllButCsrRead : Obligations.FaultStateRefusesAllButCsrRead := by
  intro i s hfault hi
  rw [exec_eq_perform, perform_refused hfault hi]
  rfl

/-- Settles O20: every move but reset keeps the record and the slots once a fault is recorded. -/
theorem onlyResetLeavesTheFaultState : Obligations.OnlyResetLeavesTheFaultState := by
  intro s t hfault hreset hstep
  obtain ⟨⟨hstatus, hcause, hinfo, hloc⟩, hslots⟩ := FaultStateKept.of_step hfault hreset hstep
  exact ⟨hstatus.trans hfault, hcause, hinfo, hloc, hslots⟩
end

section
/-! PROOFS. Faults of commands are precise, but for those a policy raises (spec/44_resample.md R235, spec/60_exceptions.md R241). -/

namespace Sys2Proof.Machine

/-! ### The causes a policy raises (R211, R212, R216, R217) -/

/-- The answer is no fault, or ProbOutOfRange or SumMismatch. -/
def PolicyResult.RaisesPolicyCause (r : PolicyResult) : Prop :=
  ∀ f, r = .error f → f.cause = .probOutOfRange ∨ f.cause = .sumMismatch

theorem raisesPolicyCause_push {r : PolicyResult} (h : r.RaisesPolicyCause) (k : Nat) :
    (PolicyResult.push k r).RaisesPolicyCause := by
  cases r with
  | ok x => exact nofun
  | error f => exact h

theorem primitiveFrom_raisesPolicyCause {c : Config} {d : Draws} {S : Nat} {v : List F64} {i : Nat} {accW : F64} {accS : Nat}
    {drawn : Bool} {slots : List (Option Slot)} :
    PolicyResult.RaisesPolicyCause (primitiveFrom c d S v i accW accS drawn slots) := by
  induction v generalizing i accW accS drawn slots with
  | nil =>
    intro f h
    rw [primitiveFrom] at h
    split at h <;> cases h
    exact .inr rfl
  | cons x xs ih =>
    rcases primitiveFrom_cons c d S x xs i accW accS drawn slots with
      ⟨-, heq⟩ | ⟨-, -, heq⟩ | ⟨p, k, slots', -, -, -, heq⟩ <;> rw [heq]
    · exact raisesPolicyCause_push ih 0
    · rintro f ⟨⟩
      exact .inl rfl
    · exact raisesPolicyCause_push ih k

theorem scanPolicy_raisesPolicyCause {positions : List F64 × List (Option Slot)} {v : List F64} :
    (scanPolicy positions v).RaisesPolicyCause := nofun

theorem residualPolicy_raisesPolicyCause {inner : (S : Nat) → List F64 → List (Option Slot) → PolicyResult} {w : List F64}
    {slots : List (Option Slot)} (hinner : ∀ S rw, (inner S rw slots).RaisesPolicyCause) :
    (residualPolicy inner w slots).RaisesPolicyCause := by
  intro f h
  unfold residualPolicy at h
  simp only at h
  split_ifs at h
  · cases h
    exact .inr rfl
  · cases h
    exact .inr rfl
  · split at h
    · cases h
    · next f' hf' =>
      cases h
      exact hinner _ _ f hf'

theorem policies_raisePolicyCause : ∀ x ∈ resamplePolicies, ∀ c d w slots, (x.2 c d w slots).RaisesPolicyCause := by
  simp only [resamplePolicies, List.forall_mem_cons]
  refine ⟨?_, ?_, ?_, ?_, ?_, ?_, nofun⟩ <;> intro c d w slots
  · exact primitiveFrom_raisesPolicyCause
  · exact residualPolicy_raisesPolicyCause fun _ _ => primitiveFrom_raisesPolicyCause
  · exact scanPolicy_raisesPolicyCause
  · exact scanPolicy_raisesPolicyCause
  · exact residualPolicy_raisesPolicyCause fun _ _ => scanPolicy_raisesPolicyCause
  · exact residualPolicy_raisesPolicyCause fun _ _ => scanPolicy_raisesPolicyCause

/-! ### How a command ends -/

/-- Every command completes, or raises a cause on the state it found, or raises one of the two causes of R235. -/
theorem bodyOf_done_or_raised (i : Instr) (s : State) :
    (∃ s' data, bodyOf i s = .done s' data ∧ s'.statusFault = s.statusFault) ∨
    (∃ r, bodyOf i s = .raised r s) ∨
    (∃ r s', bodyOf i s = .raised r s' ∧ s'.statusFault = s.statusFault ∧
      (r.cause = .probOutOfRange ∨ r.cause = .sumMismatch)) := by
  rcases bodyOf_cases i s with hraised | ⟨x, hx, o, -, rfl, -⟩ | ⟨data, heq⟩
  · exact .inr (.inl hraised)
  · obtain ⟨-, -, -, hbody, -⟩ := resample_laws hx o
    rw [hbody]
    rcases resampleBody_cases x.2 o s with ⟨r, -, heq⟩ | ⟨-, -, heq⟩ | ⟨r, -, -, -, heq⟩ | ⟨f, -, -, -, herr, heq⟩ |
      ⟨rep, slots, -, -, -, -, heq⟩ <;> rw [heq]
    · exact .inr (.inl ⟨r, rfl⟩)
    · exact .inl ⟨s, [], rfl, rfl⟩
    · exact .inr (.inl ⟨r, rfl⟩)
    · obtain ⟨info, s', habort, -, -, -, hstatus, -⟩ := abort_spec o f s
      exact .inr (.inr ⟨_, s', habort, hstatus, policies_raisePolicyCause x hx _ _ _ _ f herr⟩)
    · exact .inl ⟨_, [], rfl, rfl⟩
  · exact .inl ⟨_, data, heq, rfl⟩

end Sys2Proof.Machine

open Sys2Proof Sys2Proof.Machine

/-- Settles O23: a fault is raised on the state the command found, unless its cause is one of the two of R235. -/
theorem faultsArePrecise : Obligations.FaultsArePrecise := by
  intro i s t hexec hrun hfault hprob hsum
  rw [exec_eq_perform, perform_running hrun] at hexec
  cases hexec
  rcases bodyOf_done_or_raised i s with ⟨s', data, heq, hstatus⟩ | ⟨r, heq⟩ | ⟨r, s', heq, hstatus, hcause⟩ <;>
    rw [heq] at hfault hprob hsum ⊢
  · rw [finish_done, respond_statusFault, hstatus, hrun] at hfault
    cases hfault
  · exact ⟨by simp, by simp, by simp⟩
  · rw [finish_raised, takeFault_statusCause, hstatus, hrun, if_neg Bool.false_ne_true] at hprob hsum
    rcases hcause with hcause | hcause
    · exact absurd (congrArg Cause.code hcause) hprob
    · exact absurd (congrArg Cause.code hcause) hsum
end

section
/-! PROOFS. An idle unit completes the commands in flight, the lowest requester's first (spec/60_exceptions.md R252, R253). -/

namespace Sys2Proof.Machine

variable {s t : State} {q : Nat} {c : InFlight}

/-! ### The lowest requester with a command in flight (log 11) -/

theorem firstInFlight_eq_some (hc : s.inFlight q = some c) (hlow : ∀ q', q' < q → s.inFlight q' = none) :
    firstInFlight s = some q := by
  have hget := inFlight_eq_some.1 hc
  obtain ⟨hlt, hq⟩ := List.getElem?_eq_some_iff.1 hget
  refine List.findIdx?_eq_some_iff_getElem.2 ⟨hlt, by simp [hq], fun j hj => ?_⟩
  have hnone := (inFlight_eq_none (hj.trans hlt)).1 (hlow j hj)
  simp [(List.getElem?_eq_some_iff.1 hnone).2]

theorem firstInFlight_eq_none : firstInFlight s = none ↔ ∀ q, s.inFlight q = none := by
  simp only [firstInFlight, List.findIdx?_eq_none_iff, Option.isSome_eq_false_iff, Option.isNone_iff_eq_none]
  refine ⟨fun h q => ?_, fun h r hr => ?_⟩
  · by_cases hq : q < s.inflight.length
    · exact (inFlight_eq_none hq).2 (List.getElem?_eq_some_iff.2 ⟨hq, h _ (List.getElem_mem hq)⟩)
    · simp [State.inFlight, hq]
  · obtain ⟨q, hq, rfl⟩ := List.getElem_of_mem hr
    exact (List.getElem?_eq_some_iff.1 ((inFlight_eq_none hq).1 (h q))).2

theorem step_idle (hinputs : s.inputs = []) (hfirst : firstInFlight s = none) : step s = .next s := by
  rw [step, hinputs]
  simp only [hfirst]

theorem step_lowest (hinputs : s.inputs = []) (hfirst : firstInFlight s = some q) : step s = completeStep q s := by
  rw [step, hinputs]
  simp only [hfirst]

theorem withInputs_nil (hinputs : s.inputs = []) : s.withInputs [] = s := by
  rw [State.withInputs, ← hinputs]

/-! ### Completing them all -/

/-- The completion step of a command in flight answers its requester, whose command is then no longer in flight, and
delivers nothing else (R252). -/
theorem completeStep_answers (hc : s.inFlight q = some c) :
    ∃ t words, completeStep q s = .next t ∧ t.inputs = s.inputs ∧ t.inflight = s.inflight.set q none ∧
      t.outputs = .response q words :: s.outputs := by
  cases hdecode : decode s.cfg c.msg with
  | error r =>
    exact ⟨_, _, completeStep_of_reject hc hdecode, rejectMessage_inputs _ _ _, rejectMessage_inflight _ _ _,
      rejectMessage_outputs _ _ _⟩
  | ok i =>
    rw [completeStep_of_decode hc hdecode]
    obtain ⟨t, hexec, hinflight, -, hinputs, -, ⟨data, hdone⟩ | ⟨-, -, hout, -⟩ | ⟨-, -, cause, hout⟩⟩ :=
      everyCommandIsAnswered i (serve q s)
    · exact ⟨t, _, hexec, hinputs, hinflight, hdone.response⟩
    · exact ⟨t, _, hexec, hinputs, hinflight, hout⟩
    · exact ⟨t, _, hexec, hinputs, hinflight, hout⟩

/-- `t` is what completing every command in flight of `s` leaves: nothing pending or in flight, and one more response for each. -/
structure AllAnswered (s t : State) : Prop where
  inputs   : t.inputs = []
  idle     : ∀ q, t.inFlight q = none
  length   : t.inflight.length = s.inflight.length
  outputs  : ∃ new, t.outputs = new ++ s.outputs ∧ new.length = s.inflight.countP Option.isSome ∧
    ∀ q, (s.inFlight q).isSome = true → ∃ words, Output.response q words ∈ new

theorem countP_eq_zero_iff_idle : s.inflight.countP Option.isSome = 0 ↔ ∀ q, s.inFlight q = none := by
  rw [← firstInFlight_eq_none, firstInFlight, List.findIdx?_eq_none_iff, List.countP_eq_zero]
  simp

/-- A unit with a command in flight has a lowest requester with one. -/
theorem firstInFlight_of_countP_pos (h : s.inflight.countP Option.isSome ≠ 0) :
    ∃ q c, firstInFlight s = some q ∧ s.inFlight q = some c := by
  cases hfirst : firstInFlight s with
  | none => exact absurd (countP_eq_zero_iff_idle.2 (firstInFlight_eq_none.1 hfirst)) h
  | some q =>
    obtain ⟨hlt, hsome, -⟩ := List.findIdx?_eq_some_iff_getElem.1 hfirst
    obtain ⟨c, hc⟩ := Option.isSome_iff_exists.1 hsome
    exact ⟨q, c, rfl, inFlight_eq_some.2 (List.getElem?_eq_some_iff.2 ⟨hlt, hc⟩)⟩

theorem countP_set_none (hc : s.inFlight q = some c) :
    (s.inflight.set q none).countP Option.isSome + 1 = s.inflight.countP Option.isSome := by
  obtain ⟨hlt, hq⟩ := List.getElem?_eq_some_iff.1 (inFlight_eq_some.1 hc)
  have hpos : 0 < s.inflight.countP Option.isSome :=
    List.countP_pos_iff.2 ⟨some c, hq ▸ List.getElem_mem hlt, rfl⟩
  rw [List.countP_set hlt, hq]
  simpa using Nat.sub_add_cancel hpos

namespace AllAnswered

theorem of_idle (hinputs : s.inputs = []) (hcount : s.inflight.countP Option.isSome = 0) : AllAnswered s s := by
  have hidle := countP_eq_zero_iff_idle.1 hcount
  exact ⟨hinputs, hidle, rfl, [], rfl, hcount.symm, fun q hq => by rw [hidle q] at hq; cases hq⟩

/-- Answering one command first, then all the others. -/
theorem of_answer {s' : State} {words : List Word} (hc : s.inFlight q = some c) (hinflight : s'.inflight = s.inflight.set q none)
    (hout : s'.outputs = .response q words :: s.outputs) (h : AllAnswered s' t) : AllAnswered s t := by
  obtain ⟨hinputs, hidle, hlength, new, hnew, hcount, hanswered⟩ := h
  refine ⟨hinputs, hidle, by simpa [hinflight] using hlength, new ++ [.response q words], by simp [hnew, hout], ?_,
    fun q' hq' => ?_⟩
  · rw [List.length_append, hcount, hinflight]
    exact countP_set_none hc
  · by_cases hne : q' = q
    · exact ⟨words, by simp [hne]⟩
    · obtain ⟨words', hmem⟩ := hanswered q' (by simpa [State.inFlight, hinflight, Ne.symm hne] using hq')
      exact ⟨words', List.mem_append_left _ hmem⟩

end AllAnswered

/-- As many steps as there are commands in flight answer them all, by induction on their number. -/
theorem run_answers_all (hinputs : s.inputs = []) :
    ∃ t, Sys2Proof.core.run (s.inflight.countP Option.isSome) s = .next t ∧ AllAnswered s t := by
  induction hn : s.inflight.countP Option.isSome generalizing s with
  | zero => exact ⟨s, rfl, .of_idle hinputs hn⟩
  | succ n ih =>
    obtain ⟨q, c, hfirst, hc⟩ := firstInFlight_of_countP_pos (s := s) (by omega)
    obtain ⟨s', words, hstep, hinputs', hinflight, hout⟩ := completeStep_answers hc
    have hcount := countP_set_none hc
    obtain ⟨t, hrun, hall⟩ := ih (hinputs'.trans hinputs) (by rw [hinflight]; omega)
    have hcore : Sys2Proof.core.step s = .next s' := (step_lowest hinputs hfirst).trans hstep
    exact ⟨t, (run_succ_of_step hcore n).trans hrun, hall.of_answer hc hinflight hout⟩

end Sys2Proof.Machine

open Sys2Proof Sys2Proof.Machine

/-- Settles O7: the search finds the lowest requester, and each completion answers one command, by induction on their number. -/
theorem idleUnitCompletesEverything : Obligations.IdleUnitCompletesEverything := by
  intro s hinputs
  refine ⟨fun q c hc hlow => ?_, fun hidle => step_idle hinputs (firstInFlight_eq_none.2 hidle), ?_⟩
  · have hlowest := step_lowest hinputs (firstInFlight_eq_some hc hlow)
    have hpending : step (s.withInputs [.complete q]) = completeStep q (s.withInputs []) := step_complete rfl
    rw [withInputs_nil hinputs] at hpending
    exact ⟨hlowest, hlowest.trans hpending.symm⟩
  · obtain ⟨t, hrun, hinputs', hidle, hlength, new, hnew, hcount, hanswered⟩ := run_answers_all hinputs
    exact ⟨t, new, hrun, hinputs', hidle, hlength, hnew, hcount, hanswered⟩
end

section
/-! PROOFS. The issue step without a race: the held slots and the footprints it records (spec/20_memory.md R55,
spec/43_stream.md R182, spec/60_exceptions.md R251). -/

namespace Sys2Proof.Machine

theorem issueStep_of_no_race {q : Nat} {msg : List Word} {s : State} (hq : q < s.inflight.length) (hidle : s.inFlight q = none)
    (hrace : s.statusFault = true ∨ raceFrom q (heldOf s.cfg msg) 0 s.inflight = none) :
    issueStep q msg s = .next { s with inflight := s.inflight.set q (some (inFlightOf s.cfg msg)) } := by
  have hnone : (if s.statusFault then none else raceFrom q (heldOf s.cfg msg) 0 s.inflight) = none := by
    rcases hrace with hfault | hnone
    · rw [if_pos hfault]
    · rw [hnone, ite_self]
  simp only [issueStep, (inFlight_eq_none hq).1 hidle, hnone]

/-! ### The held slots of a message (R182) -/

theorem not_has_empty (k : Nat) : ¬ (⟨0, 0⟩ : Held).Has k := fun h => Nat.not_lt_zero k h.2

theorem has_below {n k : Nat} : (⟨0, n⟩ : Held).Has k ↔ k < n := and_iff_right (Nat.zero_le k)

theorem has_single {j k : Nat} : (⟨j, j + 1⟩ : Held).Has k ↔ k = j := by
  simp only [Held.Has]
  omega

section
variable {c : Config} {cw : Word} {ops : List Word}

theorem heldOf_nil (c : Config) : heldOf c [] = ⟨0, 0⟩ := rfl

theorem heldOf_of_unheld (h : Opcode.ofCode (opcOf cw) = none ∨ Opcode.ofCode (opcOf cw) = some .csrRead) :
    heldOf c (cw :: ops) = ⟨0, 0⟩ := by
  rcases h with h | h <;> simp [heldOf, msgOpc, h]

theorem heldOf_of_seedAll (h : Opcode.ofCode (opcOf cw) = some .seedAll) : heldOf c (cw :: ops) = ⟨0, c.nstreams⟩ := by
  simp [heldOf, msgOpc, h]

/-- A RESAMPLE holds the slots of its particles that exist, none where N is not in 1 .. 2^32 - 1. -/
theorem heldOf_of_resample (h : Opcode.ofCode (opcOf cw) = some .resample) :
    heldOf c (cw :: ops) =
      if (ops.getD 0 0).toNat = 0 ∨ 2 ^ 32 ≤ (ops.getD 0 0).toNat then ⟨0, 0⟩
      else if c.mode = .sequential then ⟨0, 1⟩ else ⟨0, min (ops.getD 0 0).toNat c.nstreams⟩ := by
  simp only [heldOf, msgOpc, List.headD_cons, h, List.getD_cons_succ]
  cases c.mode <;> rfl

/-- Every other opcode holds the slot that SLOT names, if it exists. -/
theorem heldOf_of_slot {op : Opcode} (h : Opcode.ofCode (opcOf cw) = some op) (hcsr : op ≠ .csrRead) (hall : op ≠ .seedAll)
    (hres : op ≠ .resample) :
    heldOf c (cw :: ops) = ((slotIndex c (slotFieldOf cw)).map fun k => (⟨k, k + 1⟩ : Held)).getD ⟨0, 0⟩ := by
  have hslot : slotIndex c (msgSlot (cw :: ops)) = slotIndex c (slotFieldOf cw) := rfl
  simp only [heldOf, msgOpc, List.headD_cons, h, hslot]
  cases op with
  | csrRead => exact absurd rfl hcsr
  | seedAll => exact absurd rfl hall
  | resample => exact absurd rfl hres
  | _ => cases slotIndex c (slotFieldOf cw) <;> rfl

end

/-! ### The footprints of a message (R55, R251) -/

theorem fits_iff (f : Footprint) : f.fits = true ↔ (f.n ≠ 0 → f.base + 8 * (f.n - 1) * f.stride + 7 < 2 ^ 64) := by
  simp only [Footprint.fits, Bool.or_eq_true, decide_eq_true_eq]
  exact or_iff_not_imp_left

theorem footprintsComputable_iff {o : ResampleOps} :
    FootprintsComputable o ↔ operandCheck o = none ∧ (weightFoot o).fits = true ∧ (countFoot o).fits = true := by
  rw [operandCheck_none, fits_iff, fits_iff]
  exact ⟨fun ⟨hw, hr, hnw, hnrl, hn, hwfits, hrfits⟩ => ⟨⟨hw, hr, hnw, hnrl, hn⟩, hwfits, hrfits⟩,
    fun ⟨⟨hw, hr, hnw, hnrl, hn⟩, hwfits, hrfits⟩ => ⟨hw, hr, hnw, hnrl, hn, hwfits, hrfits⟩⟩

/-- Footprints are recorded of a RESAMPLE of eight words whose operand checks pass and whose addresses fit, and of nothing else
(R251, log 16). -/
theorem footOf_eq_some {msg : List Word} {f : Footprints} :
    footOf msg = some f ↔ ∃ cw o, msg = cw :: o.words ∧ Opcode.ofCode (opcOf cw) = some .resample ∧
      FootprintsComputable o ∧ f = ⟨weightFoot o, countFoot o⟩ := by
  constructor
  · intro h
    unfold footOf at h
    split at h
    · next cw n wbase wstride nw rbase rstride nrl =>
      simp only [Option.ite_none_right_eq_some, Option.some.injEq] at h
      obtain ⟨⟨hop, hcheck, hwfits, hrfits⟩, rfl⟩ := h
      exact ⟨cw, ⟨n, wbase, wstride, nw, rbase, rstride, nrl⟩, rfl, hop,
        footprintsComputable_iff.2 ⟨hcheck, hwfits, hrfits⟩, rfl⟩
    · cases h
  · rintro ⟨cw, o, rfl, hop, hcomputable, rfl⟩
    exact if_pos ⟨hop, footprintsComputable_iff.1 hcomputable⟩

end Sys2Proof.Machine

open Sys2Proof Sys2Proof.Machine

/-- Settles O8: the search finds no shared slot; the held slots are those of each row of R182's table; a byte is in a footprint
exactly when it is one of an element's. -/
theorem issuePutsTheCommandInFlight : Obligations.IssuePutsTheCommandInFlight := by
  refine ⟨fun s q msg rest hinputs hq hidle hapart => ?_, fun c cw ops k => ?_, fun cw o hop hcomputable => ?_,
    fun msg f hfoot => ?_⟩
  · rw [step, hinputs]
    exact issueStep_of_no_race (s := s.withInputs rest) hq hidle
      (hapart.imp_right fun h => (raceFrom_none _ _ _ _).2 fun j r hj hr => h j r (by omega) hr)
  · refine ⟨not_has_empty k, fun h => ?_, fun h => ?_,
      fun h => ⟨fun hnone => ?_, fun hpos hlt => ⟨fun hmode => ?_, fun hmode => ?_⟩⟩,
      fun op h hcsr hall hres => ⟨fun hslot => ?_, fun j hslot => ?_⟩⟩
    · rw [heldOf_of_unheld h]
      exact not_has_empty k
    · rw [heldOf_of_seedAll h]
      exact has_below
    · rw [heldOf_of_resample h, if_pos]
      · exact not_has_empty k
      · rcases hnone with rfl | hN
        · exact .inl rfl
        · exact hN
    · rw [heldOf_of_resample h, if_neg (by omega), if_pos hmode]
      exact has_single
    · rw [heldOf_of_resample h, if_neg (by omega), if_neg (by simp [hmode])]
      exact has_below
    · rw [heldOf_of_slot h hcsr hall hres, hslot]
      exact not_has_empty k
    · rw [heldOf_of_slot h hcsr hall hres, hslot]
      exact has_single
  · exact ⟨_, footOf_eq_some.2 ⟨cw, o, rfl, hop, hcomputable, rfl⟩, fun a =>
      ⟨contains_iff (weightFoot o) (toNat_pos_of_toInt_pos hcomputable.wstride) a,
        contains_iff (countFoot o) (toNat_pos_of_toInt_pos hcomputable.rstride) a⟩⟩
  · obtain ⟨cw, o, hmsg, hop, hcomputable, -⟩ := footOf_eq_some.1 hfoot
    exact ⟨cw, o, hmsg, hop, hcomputable⟩
end

section
/-! PROOFS. Reset gives a clean launch of no slot, in which every invariant holds (spec/10_state.md R30, R46,
spec/70_reset_and_hazards.md R270, R272). -/

namespace Sys2Proof.Machine

/-- The record of a clean launch reads 0, as R38-R40 ask while no fault is recorded. -/
theorem CleanLaunch.recordClear {V : List (Option Slot)} {s : State} (h : CleanLaunch V s) : RecordClear s :=
  fun _ => ⟨h.noCause, h.noInfo, h.noLoc⟩

variable (s : State)

/-- No slot is constructed after reset, so whatever is asked of the constructed slots holds (R28, R46). -/
theorem of_slot_resetUnit {P : Nat → Slot → Prop} (k : Nat) (sl : Slot) (h : (resetUnit s).slot k = some sl) : P k sl := by
  rw [slot_resetUnit] at h
  cases h

theorem slotsShaped_resetUnit : SlotsShaped (resetUnit s) := of_slot_resetUnit s

theorem slotsCoherent_resetUnit : SlotsCoherent (resetUnit s) := of_slot_resetUnit s

theorem sizesRight_resetUnit : SizesRight (resetUnit s) where
  slots    := by simp
  inflight := by simp

/-- Reset launches cleanly from every state, with no slot given (R270, R272). -/
theorem cleanLaunch_resetUnit : CleanLaunch [] (resetUnit s) where
  noFault  := resetUnit_statusFault s
  noCause  := resetUnit_statusCause s
  noInfo   := resetUnit_faultInfo s
  noLoc    := resetUnit_faultLoc s
  idle     := inFlight_resetUnit s
  slotsOfV := of_slot_resetUnit s

/-- The state right after reset is one that the reset event makes, so what holds after every reset holds in it (R46, R270). -/
theorem resetUnit_resetOf (c : Config) : resetUnit (State.resetOf c) = State.resetOf c := rfl

/-- The memory of the state right after reset lists nothing, which is canonical (R50). -/
theorem mem_wf_resetOf (c : Config) : (State.resetOf c).mem.wf = true := rfl

end Sys2Proof.Machine

open Sys2Proof Sys2Proof.Machine

/-- Settles O13: the state is one that the reset event makes, which leaves no fault recorded, nothing in flight and no slot
constructed. -/
theorem resetIsACleanLaunchWithTheInvariants : Obligations.ResetIsACleanLaunchWithTheInvariants := by
  intro c
  rw [← resetUnit_resetOf c]
  have hlaunch := cleanLaunch_resetUnit (State.resetOf c)
  exact ⟨hlaunch, rfl, mem_wf_resetOf c, hlaunch.recordClear, sizesRight_resetUnit _, slotsShaped_resetUnit _,
    slotsCoherent_resetUnit _, .resetUnit _⟩
end
